-- ==== Sys2Proof/Word.lean ====
section
/-! DEFINITION. The word types of the engine (spec/00_scope.md R12, R13): bytes, single bits and two-bit error codes.
A cursor or a length operand is a natural number below `2 ^ CURSOR_WIDTH`: its arithmetic never wraps (R13), and the bound is an
invariant of the machine (log 14). -/

namespace Sys2Proof

/-- A byte; bit 7 is the most significant, bit 0 the least (R12). -/
abbrev Byte := BitVec 8

/-- A 1-bit register or field; `NOT b` is its complement (R13). -/
abbrev Bit := BitVec 1

/-- A 2-bit error code, that of an R-block and of `R_ERR` (R101, R35). -/
abbrev ErrCode := BitVec 2

end Sys2Proof
end

