-- ==== Sys2Proof/Syntax.lean ====
section
/-! DEFINITION. The rows of spec/opcode_table.json, one constructor each: 21 control bytes (format PCB, a block
received) and 30 patterns of the pair key (format PAIR, a last-sent and a received block). -/

namespace Sys2Proof

/-- The S-block sub-types (R100). -/
inductive SType where
  | resync
  | ifs
  | abort
  | wtx
  deriving DecidableEq, Repr

/-- The S-block directions (R100). -/
inductive SDir where
  | request
  | response
  deriving DecidableEq, Repr

/-- The kind of a control byte by its top two bits, the sentinel first (R96). -/
inductive BlockKind where
  | invalid
  | i
  | r
  | s
  deriving DecidableEq, Repr

/-- The instructions. A PAIR row's operands are the bits its pattern leaves open. -/
inductive Instr where
  -- The control bytes (R97 to R100): the block with this control byte has been received.
  | i00 | i01 | i10 | i11
  | r00 | r01 | r02 | r03
  | r10 | r11 | r12 | r13
  | sResyncReq | sIfsReq | sAbortReq | sWtxReq
  | sResyncResp | sIfsResp | sAbortResp | sWtxResp
  | invalid
  -- The rows of the rule table (43_rule_table.md): sent side first, received side second.
  /-- any → S(IFS,REQUEST), R210. -/
  | anyToIfsReq (sent : Byte)
  /-- I(a,m) → S(WTX,REQUEST), R214. -/
  | iToWtxReq (a m : Bit)
  /-- I(a,0) → I(b,0), R211. -/
  | iToILast (a b : Bit)
  /-- I(a,0) → I(b,1), R212. -/
  | iToIMore (a b : Bit)
  /-- R(n,e) → I(b,0), R217. -/
  | rToILast (n : Bit) (e : ErrCode) (b : Bit)
  /-- R(n,e) → I(b,1), R218. -/
  | rToIMore (n : Bit) (e : ErrCode) (b : Bit)
  /-- I(0,1) → R(1,0) and I(1,1) → R(0,0), R220. -/
  | i01ToR10
  | i11ToR00
  /-- I(0,m) → R(0,e) and I(1,m) → R(1,e), R221. -/
  | i0mToR0e (m : Bit) (e : ErrCode)
  | i1mToR1e (m : Bit) (e : ErrCode)
  /-- I(a,1) → R(NOT a, e) with e not 0, R222. -/
  | i01ToR11
  | i01ToR12
  | i01ToR13
  | i11ToR01
  | i11ToR02
  | i11ToR03
  /-- I(a,0) → R(NOT a, e), R223. -/
  | i00ToR1e (e : ErrCode)
  | i10ToR0e (e : ErrCode)
  /-- S(IFS,REQUEST) → S(IFS,RESPONSE), R216. -/
  | ifsReqToIfsResp
  /-- S(RESYNC,REQUEST) → S(RESYNC,RESPONSE), R224. -/
  | resyncReqToResyncResp
  /-- S(RESYNC,REQUEST) → INVALID, R228. -/
  | resyncReqToInvalid
  /-- S(ABORT,REQUEST) → S(ABORT,RESPONSE), R225. -/
  | abortReqToAbortResp
  /-- S(ABORT,RESPONSE) → R(n,0), R226. -/
  | abortRespToR0 (n : Bit)
  /-- I(a,1) → S(ABORT,REQUEST), R227. -/
  | iMoreToAbortReq (a : Bit)
  /-- R(n,e) → S(ABORT,REQUEST), R227. -/
  | rToAbortReq (n : Bit) (e : ErrCode)
  /-- R(n,e) → INVALID, R229. -/
  | rToInvalid (n : Bit) (e : ErrCode)
  /-- I(a,m) → INVALID, R231. -/
  | iToInvalid (a m : Bit)
  /-- S(IFS,REQUEST) or S(WTX,REQUEST) → INVALID, R231; the type is one of the two (WellFormed). -/
  | ifsWtxReqToInvalid (t : SType)
  /-- S(ABORT,REQUEST) → INVALID, R231. -/
  | abortReqToInvalid
  /-- S(t,RESPONSE) → INVALID, R231. -/
  | respToInvalid (t : SType)
  deriving DecidableEq, Repr

end Sys2Proof
end

