-- ==== Sys2Proof/WellFormed.lean ====
section
/-! DEFINITION. Which terms of `Instr` stand for words of the opcode table. The operand types leave one check: the row
S(IFS|WTX,REQUEST) → INVALID (mask 0xFDFF) is about two of the four S-block types. -/

namespace Sys2Proof

/-- The type is IFS or WTX, the two the pattern 0xC1FF mask 0xFDFF admits (R231). -/
def SType.isIfsOrWtx : SType → Bool
  | .ifs | .wtx => true
  | .resync | .abort => false

/-- Every operand has a value its row of the table admits. -/
def Instr.wellFormed : Instr → Bool
  | .ifsWtxReqToInvalid t => t.isIfsOrWtx
  | .i00 | .i01 | .i10 | .i11 | .r00 | .r01 | .r02 | .r03 | .r10 | .r11 | .r12 | .r13
  | .sResyncReq | .sIfsReq | .sAbortReq | .sWtxReq | .sResyncResp | .sIfsResp | .sAbortResp | .sWtxResp
  | .invalid | .anyToIfsReq _ | .iToWtxReq _ _ | .iToILast _ _ | .iToIMore _ _ | .rToILast _ _ _
  | .rToIMore _ _ _ | .i01ToR10 | .i11ToR00 | .i0mToR0e _ _ | .i1mToR1e _ _ | .i01ToR11 | .i01ToR12
  | .i01ToR13 | .i11ToR01 | .i11ToR02 | .i11ToR03 | .i00ToR1e _ | .i10ToR0e _ | .ifsReqToIfsResp
  | .resyncReqToResyncResp | .resyncReqToInvalid | .abortReqToAbortResp | .abortRespToR0 _
  | .iMoreToAbortReq _ | .rToAbortReq _ _ | .rToInvalid _ _ | .iToInvalid _ _ | .abortReqToInvalid
  | .respToInvalid _ => true

end Sys2Proof
end

