-- ==== Sys2Proof/Decode.lean ====
section
/-! DEFINITION. Control bytes and their fields (spec/30_encoding.md R96 to R100), the rows of the opcode table, the
decoder (total on any bytes, rejecting by name) and the encoder. -/

namespace Sys2Proof

/-! ## Fields of a control byte -/

/-- The kind of a control byte: the sentinel, which is `PCB_INVALID` (R10), is tested first, then the top two bits (R96). -/
def kind (sentinel p : Byte) : BlockKind :=
  if p = sentinel then .invalid
  else if p.extractLsb' 7 1 = 0 then .i
  else if p.extractLsb' 6 2 = 0b10 then .r
  else .s

/-- `NS(p) = p[6]` (R98). -/
def nsOf (p : Byte) : Bit := p.extractLsb' 6 1

/-- `M(p) = p[5]` (R98). -/
def mOf (p : Byte) : Bit := p.extractLsb' 5 1

/-- `NR(p) = p[4]` (R99). -/
def nrOf (p : Byte) : Bit := p.extractLsb' 4 1

/-- `ERR(p) = p[1:0]` (R99). -/
def errOf (p : Byte) : ErrCode := p.extractLsb' 0 2

/-- The number of an S-block type, bits 1..0 (R100). -/
def SType.code : SType → BitVec 2
  | .resync => 0
  | .ifs => 1
  | .abort => 2
  | .wtx => 3

/-- The S-block type of a number (R100). -/
def sTypeOfCode (c : BitVec 2) : SType :=
  if c = 0 then .resync else if c = 1 then .ifs else if c = 2 then .abort else .wtx

/-- `STYPE(p) = p[1:0]` (R100). -/
def sTypeOf (p : Byte) : SType := sTypeOfCode (p.extractLsb' 0 2)

/-- The direction bit of an S-block: 0 REQUEST, 1 RESPONSE (R100). -/
def SDir.code : SDir → Bit
  | .request => 0
  | .response => 1

/-- `SDIR(p) = p[5]` (R100). -/
def sDirOf (p : Byte) : SDir := if p.extractLsb' 5 1 = 0 then .request else .response

/-! ## Building a control byte -/

/-- `I(ns, m) = (ns << 6) | (m << 5)` (R98). -/
def iPcb (ns m : Bit) : Byte := (ns.setWidth 8 <<< 6) ||| (m.setWidth 8 <<< 5)

/-- `R(nr, e) = 0x80 | (nr << 4) | e` (R99). -/
def rPcb (nr : Bit) (e : ErrCode) : Byte := 0x80 ||| (nr.setWidth 8 <<< 4) ||| e.setWidth 8

/-- `S(t, d) = 0xC0 | (d << 5) | t` (R100). -/
def sPcb (t : SType) (d : SDir) : Byte := 0xC0 ||| (d.code.setWidth 8 <<< 5) ||| t.code.setWidth 8

/-- The control byte with bit 5, the M flag, set to `m` and every other bit kept (R163). -/
def withM (p : Byte) (m : Bit) : Byte := (p &&& 0xDF) ||| (m.setWidth 8 <<< 5)

/-! ## The rows with an 8-bit word -/

/-- The I-block rows (R98). -/
def iBlockRows : List (Byte × Instr) := [(0x00, .i00), (0x20, .i01), (0x40, .i10), (0x60, .i11)]

/-- The R-block rows (R99). -/
def rBlockRows : List (Byte × Instr) :=
  [(0x80, .r00), (0x81, .r01), (0x82, .r02), (0x83, .r03), (0x90, .r10), (0x91, .r11), (0x92, .r12), (0x93, .r13)]

/-- The S-block rows (R100). -/
def sBlockRows : List (Byte × Instr) :=
  [(0xC0, .sResyncReq), (0xC1, .sIfsReq), (0xC2, .sAbortReq), (0xC3, .sWtxReq),
   (0xE0, .sResyncResp), (0xE1, .sIfsResp), (0xE2, .sAbortResp), (0xE3, .sWtxResp)]

/-- The row of the sentinel (R97). -/
def sentinelRows : List (Byte × Instr) := [(0xFF, .invalid)]

/-- The PCB rows of the opcode table: the 20 members of DEF and the sentinel (R103). -/
def blockRows : List (Byte × Instr) := iBlockRows ++ rBlockRows ++ sBlockRows ++ sentinelRows

/-- The block a control byte stands for; none for the 235 reserved values (R103). -/
def decodeBlock (p : Byte) : Option Instr := (blockRows.find? (fun r => r.1 == p)).map (·.2)

/-- The byte is one of the 20 defined control bytes, `DEF` (R103). -/
def isDefined (p : Byte) : Bool := (decodeBlock p).isSome && p != 0xFF

/-! ## The rows with a 16-bit word -/

/-- The pair key `K = (sent PCB << 8) | received PCB` (R110). -/
def pairKey (sent received : Byte) : BitVec 16 := sent ++ received

/-- A PAIR row of the opcode table: its pattern over the key, and the instruction its open bits give. -/
structure PairRow where
  pattern : BitVec 16
  mask : BitVec 16
  read : Byte → Byte → Instr

/-- The key matches the row: `K & mask = match` (R110, R209). -/
def PairRow.matchesKey (r : PairRow) (k : BitVec 16) : Bool := k &&& r.mask == r.pattern

/-- Rows of 43_rule_table.md section 2 and 3 and 4. -/
def pairRowsData : List PairRow :=
  [ ⟨0x00C1, 0x00FF, fun s _ => .anyToIfsReq s⟩,                                  -- R210
    ⟨0x00C3, 0x9FFF, fun s _ => .iToWtxReq (nsOf s) (mOf s)⟩,                     -- R214
    ⟨0x0000, 0xBFBF, fun s r => .iToILast (nsOf s) (nsOf r)⟩,                     -- R211
    ⟨0x0020, 0xBFBF, fun s r => .iToIMore (nsOf s) (nsOf r)⟩,                     -- R212
    ⟨0x8000, 0xECBF, fun s r => .rToILast (nrOf s) (errOf s) (nsOf r)⟩,           -- R217
    ⟨0x8020, 0xECBF, fun s r => .rToIMore (nrOf s) (errOf s) (nsOf r)⟩ ]          -- R218

/-- Rows of 43_rule_table.md section 5: an I-block answered by an R-block. -/
def pairRowsAck : List PairRow :=
  [ ⟨0x2090, 0xFFFF, fun _ _ => .i01ToR10⟩,                                       -- R220
    ⟨0x6080, 0xFFFF, fun _ _ => .i11ToR00⟩,                                       -- R220
    ⟨0x0080, 0xDFFC, fun s r => .i0mToR0e (mOf s) (errOf r)⟩,                     -- R221
    ⟨0x4090, 0xDFFC, fun s r => .i1mToR1e (mOf s) (errOf r)⟩,                     -- R221
    ⟨0x2091, 0xFFFF, fun _ _ => .i01ToR11⟩,                                       -- R222
    ⟨0x2092, 0xFFFF, fun _ _ => .i01ToR12⟩,                                       -- R222
    ⟨0x2093, 0xFFFF, fun _ _ => .i01ToR13⟩,                                       -- R222
    ⟨0x6081, 0xFFFF, fun _ _ => .i11ToR01⟩,                                       -- R222
    ⟨0x6082, 0xFFFF, fun _ _ => .i11ToR02⟩,                                       -- R222
    ⟨0x6083, 0xFFFF, fun _ _ => .i11ToR03⟩,                                       -- R222
    ⟨0x0090, 0xFFFC, fun _ r => .i00ToR1e (errOf r)⟩,                             -- R223
    ⟨0x4080, 0xFFFC, fun _ r => .i10ToR0e (errOf r)⟩ ]                            -- R223

/-- Rows of 43_rule_table.md sections 6 and 7: supervisory exchanges and invalid receptions. -/
def pairRowsControl : List PairRow :=
  [ ⟨0xC1E1, 0xFFFF, fun _ _ => .ifsReqToIfsResp⟩,                                -- R216
    ⟨0xC0E0, 0xFFFF, fun _ _ => .resyncReqToResyncResp⟩,                          -- R224
    ⟨0xC0FF, 0xFFFF, fun _ _ => .resyncReqToInvalid⟩,                             -- R228
    ⟨0xC2E2, 0xFFFF, fun _ _ => .abortReqToAbortResp⟩,                            -- R225
    ⟨0xE280, 0xFFEF, fun _ r => .abortRespToR0 (nrOf r)⟩,                         -- R226
    ⟨0x20C2, 0xBFFF, fun s _ => .iMoreToAbortReq (nsOf s)⟩,                       -- R227
    ⟨0x80C2, 0xECFF, fun s _ => .rToAbortReq (nrOf s) (errOf s)⟩,                 -- R227
    ⟨0x80FF, 0xECFF, fun s _ => .rToInvalid (nrOf s) (errOf s)⟩,                  -- R229
    ⟨0x00FF, 0x9FFF, fun s _ => .iToInvalid (nsOf s) (mOf s)⟩,                    -- R231
    ⟨0xC1FF, 0xFDFF, fun s _ => .ifsWtxReqToInvalid (sTypeOf s)⟩,                 -- R231
    ⟨0xC2FF, 0xFFFF, fun _ _ => .abortReqToInvalid⟩,                              -- R231
    ⟨0xE0FF, 0xFCFF, fun s _ => .respToInvalid (sTypeOf s)⟩ ]                     -- R231

/-- The PAIR rows of the opcode table; they are pairwise disjoint, so their order does not matter (R209). -/
def pairRows : List PairRow := pairRowsData ++ pairRowsAck ++ pairRowsControl

/-- The row of the rule table a (sent, received) pair matches; none for an unrecognised pair (R209, R233). -/
def decodePair (sent received : Byte) : Option Instr :=
  (pairRows.find? (fun r => r.matchesKey (pairKey sent received))).map (fun r => r.read sent received)

/-! ## The decoder -/

/-- Why bytes are no instruction of the opcode table. -/
inductive DecodeError where
  /-- One of the 235 reserved control bytes (R103). -/
  | reservedControlByte (p : Byte)
  /-- A key no row matches (R209, R233). -/
  | unrecognisedPair (sent received : Byte)
  /-- Neither one byte nor two. -/
  | badLength (n : Nat)
  deriving DecidableEq, Repr

/-- The instruction bytes stand for: one byte is a control byte; two bytes are a key, the received byte first
(it is bits 7..0 of the key, R110). -/
def decodeBytes : List Byte → Except DecodeError Instr
  | [p] => match decodeBlock p with
    | some i => .ok i
    | none => .error (.reservedControlByte p)
  | [received, sent] => match decodePair sent received with
    | some i => .ok i
    | none => .error (.unrecognisedPair sent received)
  | bs => .error (.badLength bs.length)

/-- The bytes of a word of the opcode table, the first byte its bits 7..0. -/
def tableBytes (nbits w : Nat) : List Byte :=
  (List.range (nbits / 8)).map (fun k => BitVec.ofNat 8 (w / 256 ^ k))

/-- What the decoder reads from an instruction whose bits are `w`. -/
def decodeTableWord (nbits w : Nat) : Option Instr :=
  match decodeBytes (tableBytes nbits w) with
  | .ok i => some i
  | .error _ => none

/-! ## The encoder -/

/-- The control byte of a PCB row; none for a PAIR row. -/
def encodeBlock : Instr → Option Byte
  | .i00 => some (iPcb 0 0)
  | .i01 => some (iPcb 0 1)
  | .i10 => some (iPcb 1 0)
  | .i11 => some (iPcb 1 1)
  | .r00 => some (rPcb 0 0)
  | .r01 => some (rPcb 0 1)
  | .r02 => some (rPcb 0 2)
  | .r03 => some (rPcb 0 3)
  | .r10 => some (rPcb 1 0)
  | .r11 => some (rPcb 1 1)
  | .r12 => some (rPcb 1 2)
  | .r13 => some (rPcb 1 3)
  | .sResyncReq => some (sPcb .resync .request)
  | .sIfsReq => some (sPcb .ifs .request)
  | .sAbortReq => some (sPcb .abort .request)
  | .sWtxReq => some (sPcb .wtx .request)
  | .sResyncResp => some (sPcb .resync .response)
  | .sIfsResp => some (sPcb .ifs .response)
  | .sAbortResp => some (sPcb .abort .response)
  | .sWtxResp => some (sPcb .wtx .response)
  | .invalid => some 0xFF
  | .anyToIfsReq _ | .iToWtxReq _ _ | .iToILast _ _ | .iToIMore _ _ | .rToILast _ _ _
  | .rToIMore _ _ _ | .i01ToR10 | .i11ToR00 | .i0mToR0e _ _ | .i1mToR1e _ _ | .i01ToR11 | .i01ToR12
  | .i01ToR13 | .i11ToR01 | .i11ToR02 | .i11ToR03 | .i00ToR1e _ | .i10ToR0e _ | .ifsReqToIfsResp
  | .resyncReqToResyncResp | .resyncReqToInvalid | .abortReqToAbortResp | .abortRespToR0 _
  | .iMoreToAbortReq _ | .rToAbortReq _ _ | .rToInvalid _ _ | .iToInvalid _ _ | .ifsWtxReqToInvalid _
  | .abortReqToInvalid | .respToInvalid _ => none

/-- The (sent, received) bytes of a PAIR row; none for a PCB row. -/
def encodePair : Instr → Option (Byte × Byte)
  | .anyToIfsReq sent => some (sent, sPcb .ifs .request)
  | .iToWtxReq a m => some (iPcb a m, sPcb .wtx .request)
  | .iToILast a b => some (iPcb a 0, iPcb b 0)
  | .iToIMore a b => some (iPcb a 0, iPcb b 1)
  | .rToILast n e b => some (rPcb n e, iPcb b 0)
  | .rToIMore n e b => some (rPcb n e, iPcb b 1)
  | .i01ToR10 => some (iPcb 0 1, rPcb 1 0)
  | .i11ToR00 => some (iPcb 1 1, rPcb 0 0)
  | .i0mToR0e m e => some (iPcb 0 m, rPcb 0 e)
  | .i1mToR1e m e => some (iPcb 1 m, rPcb 1 e)
  | .i01ToR11 => some (iPcb 0 1, rPcb 1 1)
  | .i01ToR12 => some (iPcb 0 1, rPcb 1 2)
  | .i01ToR13 => some (iPcb 0 1, rPcb 1 3)
  | .i11ToR01 => some (iPcb 1 1, rPcb 0 1)
  | .i11ToR02 => some (iPcb 1 1, rPcb 0 2)
  | .i11ToR03 => some (iPcb 1 1, rPcb 0 3)
  | .i00ToR1e e => some (iPcb 0 0, rPcb 1 e)
  | .i10ToR0e e => some (iPcb 1 0, rPcb 0 e)
  | .ifsReqToIfsResp => some (sPcb .ifs .request, sPcb .ifs .response)
  | .resyncReqToResyncResp => some (sPcb .resync .request, sPcb .resync .response)
  | .resyncReqToInvalid => some (sPcb .resync .request, 0xFF)
  | .abortReqToAbortResp => some (sPcb .abort .request, sPcb .abort .response)
  | .abortRespToR0 n => some (sPcb .abort .response, rPcb n 0)
  | .iMoreToAbortReq a => some (iPcb a 1, sPcb .abort .request)
  | .rToAbortReq n e => some (rPcb n e, sPcb .abort .request)
  | .rToInvalid n e => some (rPcb n e, 0xFF)
  | .iToInvalid a m => some (iPcb a m, 0xFF)
  | .ifsWtxReqToInvalid t => some (sPcb t .request, 0xFF)
  | .abortReqToInvalid => some (sPcb .abort .request, 0xFF)
  | .respToInvalid t => some (sPcb t .response, 0xFF)
  | .i00 | .i01 | .i10 | .i11 | .r00 | .r01 | .r02 | .r03 | .r10 | .r11 | .r12 | .r13
  | .sResyncReq | .sIfsReq | .sAbortReq | .sWtxReq | .sResyncResp | .sIfsResp | .sAbortResp | .sWtxResp
  | .invalid => none

/-- The bytes of an instruction, in the order `decodeBytes` reads them. -/
def encode (i : Instr) : List Byte :=
  match encodeBlock i, encodePair i with
  | some p, _ => [p]
  | none, some (sent, received) => [received, sent]
  | none, none => []

/-- The word of an instruction, numbered as the opcode table numbers it: the first byte is bits 7..0. -/
def encodedWord (i : Instr) : Nat := (encode i).foldr (fun b acc => b.toNat + 256 * acc) 0

end Sys2Proof
end

