-- ==== Sys2Proof/Config.lean ====
section
/-! DEFINITION. What is fixed for one engine (spec/00_scope.md R10), the frame layout the fixed constants give
(spec/10_state.md R22), and the free values: constants without a body, of which nothing can be proved. -/

namespace Sys2Proof

/-! ## The parameters (R10) -/

/-- The parameters of R10 that a builder of the engine sets, every literal of the source among them (R5): they stand in State
and no step changes them, so a statement about every state is a statement about every setting. The values here are the spec's
defaults; a setting carries the proof that it lies in the range of R10 (log 4, log 14). -/
structure Config.Params where
  /-- `IFS_DEFAULT`, 1..254, OPEN in the spec (R10, D4; the value here is PRESUMED, log 4). -/
  ifsDefault : Byte := 32
  /-- `RT`, the timeout operand of `T.receive`, OPEN in the spec (D10; the value here is a DESIGN CHOICE, log 4). -/
  rt : Nat := 0
  /-- `INF_MAX`: the largest legal LEN and the largest chunk (R10, R92, R163). -/
  infMax : Nat := 254
  /-- `LEN_INVALID`: the LEN value that is never valid (R10, R92). -/
  lenInvalid : Byte := 0xFF
  /-- `PCB_INVALID`: the sentinel (R10, R97). -/
  pcbInvalid : Byte := 0xFF
  /-- `RETRANSMIT_LIMIT` (R10). -/
  retransmitLimit : Nat := 3
  /-- `ERROR_RESET_LIMIT` (R10). -/
  errorResetLimit : Nat := 6
  /-- `ERROR_RESYNC_LIMIT` (R10, D3). -/
  errorResyncLimit : Nat := 4
  /-- `REEVAL_LIMIT`: re-entries of the rule loop per evaluation (R10, R196). -/
  reevalLimit : Nat := 1
  /-- `SEQ_INIT` (R10, R332; log 15). -/
  seqInit : Bit := 1
  /-- `CURSOR_WIDTH`: bits in each cursor and length operand (R10, D5). -/
  cursorWidth : Nat := 32
  /-- The range of `IFS_DEFAULT` (R10). -/
  ifsDefaultRange : 1 ≤ ifsDefault.toNat ∧ ifsDefault.toNat ≤ 254 := by decide
  /-- DEDUCED from the layout of R22 and from R92: a legal LEN is no LEN_INVALID, and a one-byte response fits (log 14). -/
  infMaxRange : 1 ≤ infMax ∧ infMax < lenInvalid.toNat := by decide
  /-- DEDUCED from R97 and R103: the sentinel is none of the 20 defined control bytes (log 14). -/
  pcbInvalidReserved : isDefined pcbInvalid = false := by decide
  deriving DecidableEq, Repr

/-- A received LEN that is never valid: LEN_INVALID (R142), or more than the largest legal LEN (R10, R92). -/
def Config.Params.lenBad (c : Config.Params) (len : Byte) : Bool := len == c.lenInvalid || decide (c.infMax < len.toNat)

/-- A length or an offset of the host as a `CURSOR_WIDTH`-bit number (R48, R60; log 14). -/
def Config.Params.clip (c : Config.Params) (n : Nat) : Nat := n % 2 ^ c.cursorWidth

/-! ## Frames and what crosses the boundary -/

/-- A frame register, 258 bytes in wire order (R22): `INF[0..LEN-1]` is the information field and `INF[LEN]` the
checksum. -/
structure Frame where
  nad : Byte
  pcb : Byte
  len : Byte
  inf : Vector Byte 255
  deriving DecidableEq, Repr

/-- What a hook leaves in a frame register. Its LEN is 0..254 by its type: the spec's one bound on a hook (R137). -/
structure HookedFrame where
  nad : Byte
  pcb : Byte
  len : Fin 255
  inf : Vector Byte 255
  deriving DecidableEq, Repr, Inhabited

/-- The flag a hook is called with (R137). -/
inductive Direction where
  | transmit
  | receive
  deriving DecidableEq, Repr

/-- The answers of `T.poll` (R72): the number of leading address bytes the poll consumed, or no frame. -/
inductive PollAnswer where
  | zero
  | one
  | error
  deriving DecidableEq, Repr, Inhabited

/-- The answers of `T.reset` (R74). -/
inductive ResetAnswer where
  | ok
  | unsupported
  | error
  deriving DecidableEq, Repr, Inhabited

/-! ## Free values -/

/-- A byte the link never delivered (R75, U4): any value, a new one at each draw (log 6). -/
opaque Config.freeByte : Nat → Byte

/-- `RESULT.COUNT` after a failure (R268, U10): any value (log 7). -/
opaque Config.freeCount : Nat → Nat

/-- The answer of a `T.poll` that the state's list does not give (R72, U14): any answer (log 5). -/
opaque Config.freePoll : Nat → PollAnswer

/-- The answer of a `T.reset` that the state's list does not give (R74, U19): any answer (log 5). -/
opaque Config.freeReset : Nat → ResetAnswer

/-- The hooks: what the hook of a given number makes of a frame (R137, N12, U3; log 8). -/
opaque Config.hook : Nat → Direction → Frame → HookedFrame

end Sys2Proof
end

