-- ==== Sys2Proof/Machine/State.lean ====
section
/-! DEFINITION. The state of the engine as plain data (spec/10_state.md), the reasons a step can stop, and the state
after hardware reset (R54, R330). INVENTORY.md lists every field with its rule and its reset value. -/

namespace Sys2Proof.Machine

/-- A buffer of bytes: (offset, byte) pairs with offsets strictly rising. A byte that is not listed has no value: nothing
has written it (U1; log 9). -/
abbrev Memory := List Host.Cell

/-- The phases of the orchestrator (R30); `PHASE` is the analogue of a program counter (R14). -/
inductive Phase where
  | idle
  | sending
  | receiving
  | evaluating
  | done
  | failed
  deriving DecidableEq, Repr

/-- MODEL's own: where the Evaluating phase stands between two steps, before a pre-check or before a table lookup
(R190; log 1). -/
inductive Stage where
  | precheck
  | lookup
  deriving DecidableEq, Repr

/-- The actions of the rule engine (R191); `cont` is Continue. -/
inductive Action where
  | complete
  | cont
  | retransmit
  | singleShot
  | abort
  | resetSession
  | resetDevice
  | hardFail
  deriving DecidableEq, Repr

/-- `RESULT.KIND` (R49). -/
inductive ResultKind where
  | complete
  | abort
  | hardFail
  | deviceResetFailure
  deriving DecidableEq, Repr

/-- `LAST_ERR` (R47; log 23). -/
inductive LastErr where
  | none
  | invalidFrame
  deriving DecidableEq, Repr

/-- The options of R40 and `HAS_RESET` (R10). `hook` is absent or the number of one of the functions `Config.hook`
(log 8); `bwtBase` is a duration in ticks (log 13). -/
structure Options where
  hostAddr : Byte
  nodeAddr : Byte
  bwtBase : Nat
  hook : Option Nat
  hasReset : Bool
  deriving DecidableEq, Repr

/-- Which option registers the host has written since hardware reset (R340, U2; log 16). -/
structure OptionsWritten where
  hostAddr : Bool
  nodeAddr : Bool
  bwtBase : Bool
  hook : Bool
  hasReset : Bool
  deriving DecidableEq, Repr

/-- What the host can do (R250, R330, R340, R341), one event at a time. DESIGN CHOICE (log 30): R250's references to TXBUF and RXBUF,
whose presentation is in no source (R60, N1), are no operands: `transceive` carries the two lengths and means the machine's one
TXBUF and one RXBUF. -/
inductive HostEvent where
  | hardwareReset
  | writeHostAddr (b : Byte)
  | writeNodeAddr (b : Byte)
  | writeBwtBase (ticks : Nat)
  | writeHook (hook : Option Nat)
  | writeHasReset (b : Bool)
  | writeTx (offset : Nat) (b : Byte)
  | writeRx (offset : Nat) (b : Byte)
  | transceive (txLen rxCap : Nat)
  deriving DecidableEq, Repr

/-- A call of a transport primitive with its operands (R16, R70); recorded when the engine makes it (log 20). -/
inductive TransportCall where
  | transmit (bytes : List Byte)
  | poll (addr : Byte) (timeout : Nat)
  | receive (n : Nat) (timeout : Nat) (close : Bool)
  | reset
  deriving DecidableEq, Repr

/-- The state of the machine. -/
structure State where
  /-- The configuration of R10, fixed for the machine. -/
  cfg : Config.Params
  /-- `PHASE` (R30). -/
  phase : Phase
  /-- MODEL's own: the place inside the Evaluating phase. -/
  stage : Stage
  /-- `SEQ_IF` and `SEQ_CARD` (R32). -/
  seqIf : Bit
  seqCard : Bit
  /-- `SLOT[0]`, `SLOT[1]`, `RXF` (R22). -/
  slot0 : Frame
  slot1 : Frame
  rxf : Frame
  /-- `ACTIVE` (R24) and `TXSEL` (R25). -/
  active : Bit
  txsel : Bit
  /-- `CHAINED` (R33), `RESET_DONE` (R34), `R_ERR` (R35), `PASS` (R36). -/
  chained : Bit
  resetDone : Bool
  rErr : ErrCode
  pass : Bool
  /-- The option registers as the host wrote them, which of them are written, and the options as sampled at command
  start (R40, R251). -/
  hostOpt : Options
  optWritten : OptionsWritten
  opt : Options
  /-- `IFS` (R41), `WAIT_MULT` (R42), `ERRORS` (R43), `RETRANSMITS` (R44). -/
  ifs : Byte
  waitMult : Byte
  errors : Nat
  retransmits : Nat
  /-- The cursors (R45, R46). -/
  txPtr : Nat
  txRem : Nat
  rxPtr : Nat
  rxRem : Nat
  /-- `LAST_ERR` (R47), `TX_LEN0`, `RX_CAP0` (R48). -/
  lastErr : LastErr
  txLen0 : Nat
  rxCap0 : Nat
  /-- `RESULT.KIND`, `RESULT.COUNT` (R49). -/
  resultKind : ResultKind
  resultCount : Nat
  /-- `TXBUF` (R60) and `RXBUF` (R61): one of each, whose contents stay from command to command (DESIGN CHOICE, log 30). -/
  txbuf : Memory
  rxbuf : Memory
  /-- The read window of the transport is open (R52, R73). -/
  window : Bool
  /-- MODEL's own: the host's events to come, one entry a step; `none` is a step without an event. -/
  host : List (Option HostEvent)
  /-- MODEL's own: the answers of `T.poll`, `T.receive` and `T.reset` to come, one entry a call. -/
  polls : List PollAnswer
  receives : List (List Byte)
  resets : List ResetAnswer
  /-- MODEL's own: the number of free values drawn. -/
  draws : Nat
  /-- MODEL's own: the transport calls made, newest first. -/
  calls : List TransportCall
  deriving DecidableEq, Repr

/-- Why the machine stops in mid-step. -/
inductive Fault where
  /-- Raised by `readTx` (through `fill_outbound`): the byte of TXBUF at this offset has never been written (U1, R340). Safe:
  the model stops where the spec's rules promise nothing (log 9). -/
  | txUnwritten (offset : Nat)
  /-- Raised by `readTx`: the offset is at or above TX_LEN0, outside the buffer (R60). Safe; the cursor invariant rules it out
  (log 10). -/
  | txOutOfRange (offset : Nat)
  /-- Raised by `writeRx` (through `drain_inbound`): the offset is at or above RX_CAP0, outside the buffer (R61, R69). Safe; the
  cursor invariant rules it out (log 10). -/
  | rxOutOfRange (offset : Nat)
  /-- Raised where a checksum is to be computed over a frame register whose LEN is 255, which has no place for one (R92,
  R130). Safe; `decode` and `fill_outbound` never leave such a frame (log 11). -/
  | lenInvalid
  deriving DecidableEq, Repr

/-- Events that have no transition. -/
inductive Refusal where
  /-- Raised by `exec` alone, for an instruction without a meaning. Safe. -/
  | notModelled (mnemonic : String)
  /-- Raised by the host event TRANSCEIVE while a command runs (R250, U9). Safe (log 17). -/
  | commandWhileBusy
  /-- Raised by the host event hardware reset while a command runs (R333, U8). Safe (log 17). -/
  | resetWhileBusy
  /-- Raised by a host write of an option register while a command runs (R11). Safe (log 17). -/
  | optionWriteWhileBusy
  /-- Raised by a host write of TXBUF or RXBUF while a command runs (R67, R351). Safe (log 17). -/
  | bufferWriteWhileBusy
  /-- Raised by the host event TRANSCEIVE when an option register is unwritten: U2 says "refuse", R340 that such a command "has no
  defined behaviour". Safe (log 16). -/
  | optionsUnwritten
  deriving DecidableEq, Repr

/-- A frame register at hardware reset: the spec gives it no value, the model names zero bytes (log 3). -/
def zeroFrame : Frame := { nad := 0, pcb := 0, len := 0, inf := Vector.replicate 255 0 }

/-- The option registers at hardware reset: no value in the spec, named here (log 3); no hook is R10's default. -/
def zeroOptions : Options := { hostAddr := 0, nodeAddr := 0, bwtBase := 0, hook := none, hasReset := false }

/-- No option register is written (R340). -/
def nothingWritten : OptionsWritten :=
  { hostAddr := false, nodeAddr := false, bwtBase := false, hook := false, hasReset := false }

/-- The machine right after hardware reset (R54, R330): PHASE is Idle and the sequence bits are SEQ_INIT; every other
register, to which the spec gives no value, holds the value log 3 names; the buffers list nothing; no event and no
transport answer is waiting. -/
def State.reset : State :=
  { cfg := {}
    phase := .idle
    stage := .precheck
    seqIf := 1
    seqCard := 1
    slot0 := zeroFrame
    slot1 := zeroFrame
    rxf := zeroFrame
    active := 0
    txsel := 0
    chained := 0
    resetDone := false
    rErr := 0
    pass := false
    hostOpt := zeroOptions
    optWritten := nothingWritten
    opt := zeroOptions
    ifs := 0
    waitMult := 0
    errors := 0
    retransmits := 0
    txPtr := 0
    txRem := 0
    rxPtr := 0
    rxRem := 0
    lastErr := .none
    txLen0 := 0
    rxCap0 := 0
    resultKind := .complete
    resultCount := 0
    txbuf := []
    rxbuf := []
    window := false
    host := []
    polls := []
    receives := []
    resets := []
    draws := 0
    calls := [] }

end Sys2Proof.Machine
end

