-- ==== Sys2Proof/Machine/Operands.lean ====
section
/-! DEFINITION. The operands of the engine's operations: the frame registers and their fields (spec/10_state.md R22 to
R25), the pair key's two bytes (R110, R190), and the codes of actions and results (R49, R191). -/

namespace Sys2Proof.Machine

/-! ## Fields of a frame register -/

/-- The byte `INF[j]`; a frame register has `INF[0..254]` (R22). -/
def infAt (f : Frame) (j : Nat) : Byte := (f.inf.toList)[j]?.getD 0

/-- The information field `INF[0..LEN-1]` (R22). -/
def infBytes (f : Frame) : List Byte := f.inf.toList.take f.len.toNat

/-- `INF` with the bytes `bs` written from `INF[0]` on; the bytes after them are kept. -/
def putInf (v : Vector Byte 255) (bs : List Byte) : Vector Byte 255 :=
  ⟨⟨(bs ++ v.toList.drop bs.length).take 255⟩, by simp [List.length_append]; omega⟩

/-- `INF[j] <- b`. -/
def setInf (v : Vector Byte 255) (j : Nat) (b : Byte) : Vector Byte 255 :=
  ⟨⟨v.toList.set j b⟩, by simp⟩

/-- The bytes of a frame in wire order, `4 + LEN` of them: NAD, PCB, LEN, `INF[0..LEN-1]`, checksum (R62, R90). -/
def wireBytes (f : Frame) : List Byte := f.nad :: f.pcb :: f.len :: f.inf.toList.take (f.len.toNat + 1)

/-- The frame with the control byte, a LEN of `bs.length` and the information bytes `bs`; every other byte is kept. -/
def withBlock (f : Frame) (pcb : Byte) (bs : List Byte) : Frame :=
  { f with pcb := pcb, len := BitVec.ofNat 8 bs.length, inf := putInf f.inf bs }

/-! ## The slots -/

/-- `SLOT[i]` (R14, R22). -/
def State.slot (s : State) (i : Bit) : Frame := if i = 0 then s.slot0 else s.slot1

/-- `SLOT[i] <- f`. -/
def State.setSlot (s : State) (i : Bit) (f : Frame) : State :=
  { s with slot0 := if i = 0 then f else s.slot0, slot1 := if i = 0 then s.slot1 else f }

/-- The current slot `SLOT[ACTIVE]`, which is the last-sent frame (R24, R262). -/
def State.current (s : State) : Frame := s.slot s.active

/-- The pending slot `SLOT[NOT ACTIVE]` (R24), the rule engine's `next_sent` (R180). -/
def State.pending (s : State) : Frame := s.slot (~~~s.active)

/-- `SLOT[NOT ACTIVE]` takes a control byte, a LEN and the information bytes below LEN. -/
def State.setPending (s : State) (pcb : Byte) (bs : List Byte) : State :=
  s.setSlot (~~~s.active) (withBlock s.pending pcb bs)

/-! ## The two bytes of the pair key -/

/-- The kind of a control byte (R96), the sentinel being the parameter `PCB_INVALID`. -/
def State.kind (s : State) (p : Byte) : BlockKind := Sys2Proof.kind s.cfg.pcbInvalid p

/-- The received byte `rx` of `evaluate`: the sentinel when the pre-check failed, else `RXF.PCB` (R190, R193). -/
def State.rx (s : State) : Byte := if s.rErr ≠ 0 then s.cfg.pcbInvalid else s.rxf.pcb

/-- The byte under which the opcode table knows a received control byte: the sentinel is its 0xFF, whatever `PCB_INVALID` is;
a 0xFF that is not the sentinel is no row of it, and trades places with the sentinel's own value, which is no row either
(R97, R103; log 14). -/
def State.rowByte (s : State) (p : Byte) : Byte :=
  if p = s.cfg.pcbInvalid then 0xFF else if p = 0xFF then s.cfg.pcbInvalid else p

/-- The instruction bytes at the engine's place in the Evaluating phase: the received control byte before the pre-check,
the key's two bytes (received first) before the lookup (log 1). -/
def State.fetch (s : State) : List Byte :=
  match s.stage with
  | .precheck => [s.rowByte s.rxf.pcb]
  | .lookup => [s.rowByte s.rx, s.current.pcb]

/-! ## Codes (D9) -/

/-- The numeric code of `RESULT.KIND` (R49). -/
def resultCode : ResultKind → Nat
  | .complete => 0
  | .abort => 1
  | .hardFail => 2
  | .deviceResetFailure => 3

/-- The numeric code of an action (R191). -/
def actionCode : Action → Nat
  | .complete => 0
  | .cont => 1
  | .retransmit => 2
  | .singleShot => 3
  | .abort => 4
  | .resetSession => 5
  | .resetDevice => 6
  | .hardFail => 7

/-- A command is running: PHASE is Sending, Receiving or Evaluating (R250, R333). -/
def State.busy (s : State) : Bool :=
  match s.phase with
  | .sending | .receiving | .evaluating => true
  | .idle | .done | .failed => false

/-- What the host reads after a command: RESULT is valid in Done and Failed, and COUNT is defined for Complete only
(R49). -/
def hostResult (s : State) : Option (ResultKind × Option Nat) :=
  match s.phase with
  | .done | .failed => some (s.resultKind, if s.resultKind = .complete then some s.resultCount else none)
  | .idle | .sending | .receiving | .evaluating => none

end Sys2Proof.Machine
end

