-- ==== Sys2Proof/Machine/Flags.lean ====
section
/-! DEFINITION. The checksum (spec/40_codec.md R130, R131) and the one-bit conditions and latches of the engine: the
sequence record and the alternation test of the pre-check (42_rule_engine.md R182 to R188), the M flag of a chunk
(41_segmentation.md R164). -/

namespace Sys2Proof.Machine

/-- `lrc(f)`: the XOR of NAD, PCB, LEN and `INF[0..LEN-1]` (R130). -/
def lrc (f : Frame) : Byte := (infBytes f).foldl (· ^^^ ·) (f.nad ^^^ f.pcb ^^^ f.len)

/-- `lrc_ok(f)`: the byte at `INF[LEN]` is the checksum (R131). -/
def lrcOk (f : Frame) : Bool := infAt f f.len.toNat == lrc f

/-- The last-sent frame is an I-block (R184, R194). -/
def State.sentI (s : State) : Bool := s.kind s.current.pcb == .i

/-- Step 3 of the pre-check: after an I-block, CHAINED takes its M flag and SEQ_IF its N(S); after any other block nothing
is recorded (R184). -/
def recordSent (s : State) : State :=
  { s with
    chained := if s.sentI then mOf s.current.pcb else s.chained
    seqIf := if s.sentI then nsOf s.current.pcb else s.seqIf }

/-- Step 4 for an I-block: N(S) must differ from SEQ_CARD, which then takes it (R188). -/
def checkI (ns : Bit) (s : State) : ErrCode × State :=
  if ns = s.seqCard then (2, s) else (0, { s with seqCard := ns })

/-- Step 4 for an R-block: LEN must be 0 (R187). -/
def checkR (s : State) : ErrCode × State := if s.rxf.len = 0 then (0, s) else (2, s)

/-- Step 4 for an S-block other than S(RESYNC,RESPONSE): LEN must be 1 (R186). -/
def checkS (s : State) : ErrCode × State := if s.rxf.len = 1 then (0, s) else (2, s)

/-- Step 4 for S(RESYNC,RESPONSE): LEN must be 0 (R186, D19). -/
def checkResyncResp (s : State) : ErrCode × State := if s.rxf.len = 0 then (0, s) else (2, s)

/-- Steps 2 to 4 of the pre-check, `check` being step 4: a bad checksum is a parity error and records nothing (R183,
R185). -/
def precheckWith (check : State → ErrCode × State) (s : State) : ErrCode × State :=
  if lrcOk s.rxf then check (recordSent s) else (1, s)

/-- `precheck()` as R182 writes it, for every value of `RXF.PCB`: what the engine runs on a control byte that is no row of
the opcode table, and what the meanings of the table's blocks are each a case of. -/
def precheck (s : State) : ErrCode × State :=
  match s.kind s.rxf.pcb with
  | .invalid => (2, s)
  | .s => if s.rxf.pcb = 0xE0 then precheckWith checkResyncResp s else precheckWith checkS s
  | .r => precheckWith checkR s
  | .i => precheckWith (checkI (nsOf s.rxf.pcb)) s

/-- The M flag of a chunk: set when bytes remain after the cursor has advanced (R163, R164). -/
def moreFlag (txRem : Nat) : Bit := if txRem = 0 then 0 else 1

end Sys2Proof.Machine
end

