-- ==== Sys2Proof/Machine/Ops.lean ====
section
/-! DEFINITION. The named operations of the engine: the buffers (spec/20_memory.md), the transport primitives (R70 to R75),
`encode` and `decode` (40_codec.md), `fill_outbound` and `drain_inbound` (41_segmentation.md), the orchestrator's dispatch of
an action (44_orchestrator.md R263 to R270) and the rule engine's error accounting (42_rule_engine.md R193, R194). -/

namespace Sys2Proof.Machine

/-- The outcome of a meaning that can stop on a fault only. -/
def answer : Except Fault State → Host.Outcome State Fault Refusal
  | .ok s => .next s
  | .error f => .fault f

/-! ## The buffers -/

/-- The byte at an offset; none where nothing has been written. -/
def Memory.read : Memory → Nat → Option Byte
  | [], _ => none
  | (k, v) :: m, a => if a = k then some v else Memory.read m a

/-- The buffer with the byte `b` at the offset `a`; the offsets stay strictly rising. -/
def Memory.write : Memory → Nat → Byte → Memory
  | [], a, b => [(a, b)]
  | (k, v) :: m, a, b =>
    if a < k then (a, b) :: (k, v) :: m
    else if a = k then (a, b) :: m
    else (k, v) :: Memory.write m a b

/-- The canonical form: offsets strictly rising. -/
def Memory.wf : Memory → Bool
  | [] => true
  | [_] => true
  | (a, _) :: (b, v) :: m => decide (a < b) && Memory.wf ((b, v) :: m)

/-- `MemRead(TXBUF, a, n)`, lowest offset first (R15, R60): it stops at an offset outside TX_LEN0 and at a byte nothing has
written. -/
def readTx (s : State) (a : Nat) : Nat → Except Fault (List Byte)
  | 0 => .ok []
  | n + 1 =>
    if s.txLen0 ≤ a then .error (.txOutOfRange a)
    else match s.txbuf.read a with
      | none => .error (.txUnwritten a)
      | some b => match readTx s (a + 1) n with
        | .error f => .error f
        | .ok bs => .ok (b :: bs)

/-- The part of `MemWrite(RXBUF, a, n, v)` that rebuilds the buffer: it stops at an offset outside the capacity. -/
def writeRun (cap : Nat) (m : Memory) (a : Nat) : List Byte → Except Fault Memory
  | [] => .ok m
  | b :: bs => if cap ≤ a then .error (.rxOutOfRange a) else writeRun cap (m.write a b) (a + 1) bs

/-- `MemWrite(RXBUF, a, n, v)` (R15, R61). -/
def writeRx (s : State) (a : Nat) (bs : List Byte) : Except Fault State :=
  match writeRun s.rxCap0 s.rxbuf a bs with
  | .error f => .error f
  | .ok m => .ok { s with rxbuf := m }

/-! ## The transport primitives -/

/-- `T.transmit(bytes)` (R71): the frame is handed over and nothing comes back. -/
def transmit (bytes : List Byte) (s : State) : State := { s with calls := .transmit bytes :: s.calls }

/-- `T.poll(addr, timeout)` (R72): the next answer of the list, or a free one. -/
def poll (addr : Byte) (timeout : Nat) (s : State) : PollAnswer × State :=
  match s.polls with
  | a :: rest => (a, { s with calls := .poll addr timeout :: s.calls, polls := rest })
  | [] => (Config.freePoll s.draws, { s with calls := .poll addr timeout :: s.calls, draws := s.draws + 1 })

/-- `n` free bytes, the draws numbered from `d` on (R75). -/
def freeBytes (d n : Nat) : List Byte := (List.range n).map (fun k => Config.freeByte (d + k))

/-- The bytes the link delivers to a `T.receive` of `n` bytes. -/
def delivered (s : State) (n : Nat) : List Byte := (s.receives.headD []).take n

/-- `T.receive(n, timeout, close)` (R73): `n` bytes, of which those the link does not deliver are free (R75); the window is
open after it unless `close`. With `n = 0` it only closes the window. -/
def receive (n : Nat) (close : Bool) (s : State) : List Byte × State :=
  if n = 0 then ([], { s with calls := .receive n s.cfg.rt close :: s.calls, window := !close })
  else
    let given := delivered s n
    let missing := n - given.length
    (given ++ freeBytes s.draws missing,
      { s with
        calls := .receive n s.cfg.rt close :: s.calls
        window := !close
        receives := s.receives.tail
        draws := s.draws + missing })

/-- `T.reset()` (R74): the next answer of the list, or a free one. -/
def resetLink (s : State) : ResetAnswer × State :=
  match s.resets with
  | a :: rest => (a, { s with calls := .reset :: s.calls, resets := rest })
  | [] => (Config.freeReset s.draws, { s with calls := .reset :: s.calls, draws := s.draws + 1 })

/-! ## The frame codec -/

/-- The LEN for which a frame register has no place for the checksum `INF[LEN]`: its last byte is `INF[254]` (R22; log 11). -/
abbrev noRoom : Byte := 0xFF

/-- A frame register with the contents a hook left. -/
def hookedFrame (h : HookedFrame) : Frame :=
  { nad := h.nad, pcb := h.pcb, len := BitVec.ofNat 8 h.len.val, inf := h.inf }

/-- The hook, in place: the identity when absent (R137). -/
def applyHook (hook : Option Nat) (d : Direction) (f : Frame) : Frame :=
  match hook with
  | none => f
  | some h => hookedFrame (Config.hook h d f)

/-- Steps 1 and 2 of `encode`: NAD is stamped, then the checksum is put at `INF[LEN]` (R135). -/
def sealed (nodeAddr : Byte) (f : Frame) : Frame :=
  { f with nad := nodeAddr, inf := setInf f.inf f.len.toNat (lrc { f with nad := nodeAddr }) }

/-- `encode(i)` (R135): NAD, checksum, hook, and the exact byte span to the transport. -/
def encodeSlot (i : Bit) (s : State) : Except Fault State :=
  if (s.slot i).len = noRoom then .error .lenInvalid
  else
    let f := applyHook s.opt.hook .transmit (sealed s.opt.nodeAddr (s.slot i))
    .ok (transmit (wireBytes f) (s.setSlot i f))

/-- Steps 2 to 4 of `decode`, once PCB and LEN are in RXF: an invalid LEN closes the window and fails (R142); else the body is
read, the window closed (R143) and the hook applied (R144). The result is the payload length, none for `Fail`. -/
def decodeBody (s : State) : Option Byte × State :=
  if s.cfg.lenBad s.rxf.len then (none, (receive 0 true s).2)
  else
    let r := receive (s.rxf.len.toNat + 1) true s
    let f := { s.rxf with inf := putInf s.rxf.inf r.1 }
    let g := applyHook s.opt.hook .receive f
    (some g.len, { r.2 with rxf := g })

/-- The header of a received frame: its bytes in wire order from NAD on (R141, R142). -/
def headerFrom (f : Frame) (bs : List Byte) : Frame :=
  { f with nad := bs[0]?.getD 0, pcb := bs[1]?.getD 0, len := bs[2]?.getD 0 }

/-- `decode(timeout)` (R140, R141): poll for HOST_ADDR, read what is left of the header, then the body. -/
def decodeFrame (timeout : Nat) (s : State) : Option Byte × State :=
  match poll s.opt.hostAddr timeout s with
  | (.error, s₁) => (none, s₁)
  | (.one, s₁) =>
    let r := receive 2 false s₁
    decodeBody { r.2 with rxf := headerFrom r.2.rxf (s.opt.hostAddr :: r.1) }
  | (.zero, s₁) =>
    let r := receive 3 false s₁
    decodeBody { r.2 with rxf := headerFrom r.2.rxf r.1 }

/-! ## Segmentation and reassembly -/

/-- `min(IFS, INF_MAX, TX_REM)`, the size of the next chunk (R163). -/
def chunkSize (s : State) : Nat := min s.txRem (min s.ifs.toNat s.cfg.infMax)

/-- The slot with a chunk in it: INF, LEN, and the M flag computed from what remains (R163, R164). -/
def filled (f : Frame) (bs : List Byte) (txRem : Nat) : Frame := withBlock f (withM f.pcb (moreFlag txRem)) bs

/-- `fill_outbound(i)` (R163): the number of bytes copied, or 255 when the slot holds no I-block. -/
def fillOutbound (i : Bit) (s : State) : Except Fault (Byte × State) :=
  if s.kind (s.slot i).pcb = .i then
    match readTx s s.txPtr (chunkSize s) with
    | .error f => .error f
    | .ok bs =>
      let n := chunkSize s
      .ok (BitVec.ofNat 8 (chunkSize s),
        { s.setSlot i (filled (s.slot i) bs (s.txRem - n)) with txPtr := s.txPtr + n, txRem := s.txRem - n })
  else .ok (255, s)

/-- `min(RXF.LEN, RX_REM)`, the bytes of a block that are delivered (R170, R171). -/
def drainSize (s : State) : Nat := min s.rxf.len.toNat s.rxRem

/-- `drain_inbound()` (R170): the payload of the I-block in RXF goes to RXBUF; what does not fit is dropped (R171). -/
def drainInbound (s : State) : Except Fault State :=
  if s.kind s.rxf.pcb = .i then
    match writeRx s s.rxPtr ((infBytes s.rxf).take (drainSize s)) with
    | .error f => .error f
    | .ok t =>
      let n := drainSize s
      .ok { t with rxPtr := s.rxPtr + n, rxRem := s.rxRem - n }
  else .ok s

/-! ## The orchestrator's actions -/

/-- `build_initial()` (R252): the first I-block of a session in the current slot. -/
def buildInitial (s : State) : Except Fault State :=
  match fillOutbound s.active (s.setSlot s.active { s.current with pcb := iPcb (~~~s.seqIf) 0 }) with
  | .error f => .error f
  | .ok (_, t) => .ok { t with txsel := t.active }

/-- ProtocolState at its call-initial snapshot (R48, R251, R270): what command start and ResetSession both set. -/
def restoreSnapshot (s : State) : State :=
  { s with
    ifs := s.cfg.ifsDefault
    waitMult := 1
    errors := 0
    retransmits := 0
    txPtr := 0
    txRem := s.txLen0
    rxPtr := 0
    rxRem := s.rxCap0
    lastErr := .none }

/-- Complete (R263). -/
def actComplete (s : State) : State :=
  { s with phase := .done, resultKind := .complete, resultCount := s.rxCap0 - s.rxRem }

/-- A command ends Failed with a kind; RESULT.COUNT is not defined then, so it is a free value (R268, R269, R264, U10;
log 7). -/
def actFail (k : ResultKind) (s : State) : State :=
  { s with phase := .failed, resultKind := k, resultCount := s.cfg.clip (Config.freeCount s.draws), draws := s.draws + 1 }

/-- Continue (R266): the pending slot becomes current and both counters are cleared. -/
def actContinue (s : State) : State :=
  { s with active := ~~~s.active, txsel := ~~~s.active, retransmits := 0, errors := 0, phase := .sending }

/-- SingleShot (R267): the pending slot is sent once; the last-sent reference stays. -/
def actSingleShot (s : State) : State := { s with txsel := ~~~s.active, phase := .sending }

/-- The pending slot takes the resync request S(RESYNC,REQUEST), LEN 0 (R194, R264). -/
def putResyncRequest (s : State) : State := s.setPending (sPcb .resync .request) []

/-- Retransmit (R264): bounded; past the bound, the resync request, or the end of the command if that was being retried. -/
def actRetransmit (s : State) : State :=
  if s.retransmits < s.cfg.retransmitLimit then
    { s with retransmits := s.retransmits + 1, txsel := s.active, phase := .sending }
  else if s.current.pcb = sPcb .resync .request then actFail .deviceResetFailure s
  else actContinue (putResyncRequest s)

/-- ResetSession (R270): snapshot, sequence bits, initial I-block. -/
def actResetSession (s : State) : Except Fault State :=
  match buildInitial { restoreSnapshot s with seqIf := s.cfg.seqInit, seqCard := s.cfg.seqInit } with
  | .error f => .error f
  | .ok t => .ok { t with phase := .sending }

/-- ResetDevice (R269): the transport reset at most once per command; then ResetSession, or the end of the command. -/
def actResetDevice (s : State) : Except Fault State :=
  if s.resetDone || !s.opt.hasReset then .ok (actFail .deviceResetFailure s)
  else
    match resetLink { s with resetDone := true } with
    | (.ok, t) => actResetSession t
    | (.unsupported, t) => .ok (actFail .deviceResetFailure t)
    | (.error, t) => .ok (actFail .deviceResetFailure t)

/-- What the orchestrator does with an action (R257, R271). -/
def dispatch (a : Action) (s : State) : Except Fault State :=
  match a with
  | .complete => .ok (actComplete s)
  | .cont => .ok (actContinue s)
  | .retransmit => .ok (actRetransmit s)
  | .singleShot => .ok (actSingleShot s)
  | .abort => .ok (actFail .abort s)
  | .resetSession => actResetSession s
  | .resetDevice => actResetDevice s
  | .hardFail => .ok (actFail .hardFail s)

/-! ## Error accounting

The engine has no trap (R300): "state written on entry" is R_ERR, ERRORS and LAST_ERR, and execution goes on in the Sending
phase with the frame the reaction chose. `takeError` is that entry, for every event E1 to E8 (R291). -/

/-- A failed pre-check is counted (R193). -/
def countError (s : State) : State := { s with lastErr := .invalidFrame, errors := s.errors + 1 }

/-- The reaction to a counted error (R194): the device reset first, then the resync escalation of an I-block, else the table
is consulted with the sentinel as the received byte. -/
def escalate (s : State) : Except Fault State :=
  if s.cfg.errorResetLimit ≤ s.errors then dispatch .resetDevice s
  else if s.sentI && decide (s.cfg.errorResyncLimit ≤ s.errors) then dispatch .cont (putResyncRequest s)
  else .ok { s with stage := .lookup }

/-- An error event is taken: counted, then answered (R193, R194). -/
def takeError (s : State) : Except Fault State := escalate (countError s)

/-- One pass of the rule loop from the pre-check's verdict to the lookup (R190): R_ERR is latched (R192); an error is taken;
else the table is consulted. -/
def account (v : ErrCode × State) : Except Fault State :=
  if v.1 = 0 then .ok { v.2 with rErr := 0, stage := .lookup } else takeError { v.2 with rErr := v.1 }

/-- A received block other than the sentinel is judged, `check` being step 4 of its pre-check. -/
def judge (check : State → ErrCode × State) (s : State) : Except Fault State :=
  if s.rxf.len = noRoom then .error .lenInvalid else account (precheckWith check s)

/-- The sentinel is judged: no field of RXF but its PCB is read (R181). -/
def judgeInvalid (s : State) : Except Fault State := account (2, s)

end Sys2Proof.Machine
end

