-- ==== Sys2Proof/Machine/Blocks.lean ====
section
/-! DEFINITION. The meanings of the PCB rows of the opcode table: a block with this control byte has been received, and one pass of the
rule loop judges it (spec/42_rule_engine.md R182 to R190). The kind and N(S) come from the instruction, every other field from
RXF (log 26). -/

namespace Sys2Proof.Machine

/-! ## I-blocks (R98): step 4 is the alternation test of R188 -/

/-- I(0,0) received. -/
def execI00 (s : State) : Host.Outcome State Fault Refusal := answer (judge (checkI 0) s)

/-- I(0,1) received. -/
def execI01 (s : State) : Host.Outcome State Fault Refusal := answer (judge (checkI 0) s)

/-- I(1,0) received. -/
def execI10 (s : State) : Host.Outcome State Fault Refusal := answer (judge (checkI 1) s)

/-- I(1,1) received. -/
def execI11 (s : State) : Host.Outcome State Fault Refusal := answer (judge (checkI 1) s)

/-! ## R-blocks (R99): step 4 is the LEN test of R187 -/

/-- R(0,0) received. -/
def execR00 (s : State) : Host.Outcome State Fault Refusal := answer (judge checkR s)

/-- R(0,1) received. -/
def execR01 (s : State) : Host.Outcome State Fault Refusal := answer (judge checkR s)

/-- R(0,2) received. -/
def execR02 (s : State) : Host.Outcome State Fault Refusal := answer (judge checkR s)

/-- R(0,3) received. -/
def execR03 (s : State) : Host.Outcome State Fault Refusal := answer (judge checkR s)

/-- R(1,0) received. -/
def execR10 (s : State) : Host.Outcome State Fault Refusal := answer (judge checkR s)

/-- R(1,1) received. -/
def execR11 (s : State) : Host.Outcome State Fault Refusal := answer (judge checkR s)

/-- R(1,2) received. -/
def execR12 (s : State) : Host.Outcome State Fault Refusal := answer (judge checkR s)

/-- R(1,3) received. -/
def execR13 (s : State) : Host.Outcome State Fault Refusal := answer (judge checkR s)

/-! ## S-blocks (R100): step 4 is the LEN test of R186 -/

/-- S(RESYNC,REQUEST) received. -/
def execSResyncReq (s : State) : Host.Outcome State Fault Refusal := answer (judge checkS s)

/-- S(IFS,REQUEST) received. -/
def execSIfsReq (s : State) : Host.Outcome State Fault Refusal := answer (judge checkS s)

/-- S(ABORT,REQUEST) received. -/
def execSAbortReq (s : State) : Host.Outcome State Fault Refusal := answer (judge checkS s)

/-- S(WTX,REQUEST) received. -/
def execSWtxReq (s : State) : Host.Outcome State Fault Refusal := answer (judge checkS s)

/-- S(RESYNC,RESPONSE) received. -/
def execSResyncResp (s : State) : Host.Outcome State Fault Refusal := answer (judge checkResyncResp s)

/-- S(IFS,RESPONSE) received. -/
def execSIfsResp (s : State) : Host.Outcome State Fault Refusal := answer (judge checkS s)

/-- S(ABORT,RESPONSE) received. -/
def execSAbortResp (s : State) : Host.Outcome State Fault Refusal := answer (judge checkS s)

/-- S(WTX,RESPONSE) received. -/
def execSWtxResp (s : State) : Host.Outcome State Fault Refusal := answer (judge checkS s)

/-! ## The sentinel (R97, R181) -/

/-- INVALID: no valid frame was received. -/
def execInvalid (s : State) : Host.Outcome State Fault Refusal := answer (judgeInvalid s)

end Sys2Proof.Machine
end

