-- ==== Sys2Proof/Machine/Rows.lean ====
section
/-! DEFINITION. Shared effects of the rows of the rule table (spec/43_rule_table.md): what a row writes, followed by the dispatch of
its action (44_orchestrator.md R257). -/

namespace Sys2Proof.Machine

/-- An echoing response (R210, R214): the pending slot takes the response with the received `INF[0]`, LEN 1. -/
def putEcho (t : SType) (s : State) : State := s.setPending (sPcb t .response) [infAt s.rxf 0]

/-- An acknowledging R-block (R212, R218): `R(NOT b, 0)`, LEN 0, in the pending slot, `b` being the received N(S). -/
def putAckR (b : Bit) (s : State) : State := s.setPending (rPcb (~~~b) 0) []

/-- An error R-block (R223, R231): `R(NOT SEQ_CARD, R_ERR)`, LEN 0, in the pending slot. -/
def putErrorR (s : State) : State := s.setPending (rPcb (~~~s.seqCard) s.rErr) []

/-- An abort request (R227): S(ABORT,REQUEST), LEN 0, in the pending slot. -/
def putAbortRequest (s : State) : State := s.setPending (sPcb .abort .request) []

/-- The last block of the card: it is delivered and the command completes (R211, R217). -/
def deliverLast (s : State) : Except Fault State :=
  match drainInbound s with
  | .error f => .error f
  | .ok t => dispatch .complete t

/-- A block with more to follow: it is delivered and acknowledged (R212, R218). -/
def deliverMore (b : Bit) (s : State) : Except Fault State :=
  match drainInbound s with
  | .error f => .error f
  | .ok t => dispatch .cont (putAckR b t)

/-- The card asks for the chunk `I(nr, m)`: it is filled into the pending slot and sent (R220). -/
def nextChunk (nr : Bit) (s : State) : Except Fault State :=
  match fillOutbound (~~~s.active) (s.setSlot (~~~s.active) { s.pending with pcb := iPcb nr 0 }) with
  | .error f => .error f
  | .ok (_, t) => dispatch .cont t

end Sys2Proof.Machine
end

