-- ==== Sys2Proof/Machine/RowsAck.lean ====
section
/-! DEFINITION. The rows in which the card answers an I-block with an R-block (spec/43_rule_table.md section 5). -/

namespace Sys2Proof.Machine

/-- I(0,1) → R(1,0): the next chunk, Continue (R220). -/
def execI01ToR10 (s : State) : Host.Outcome State Fault Refusal := answer (nextChunk 1 s)

/-- I(1,1) → R(0,0): the next chunk, Continue (R220). -/
def execI11ToR00 (s : State) : Host.Outcome State Fault Refusal := answer (nextChunk 0 s)

/-- I(0,m) → R(0,e): the card asks for the same block, Retransmit (R221). -/
def execI0mToR0e (_m : Bit) (_e : ErrCode) (s : State) : Host.Outcome State Fault Refusal := answer (dispatch .retransmit s)

/-- I(1,m) → R(1,e): the card asks for the same block, Retransmit (R221). -/
def execI1mToR1e (_m : Bit) (_e : ErrCode) (s : State) : Host.Outcome State Fault Refusal := answer (dispatch .retransmit s)

/-- I(0,1) → R(1,1): the right bit with an error code, Retransmit (R222). -/
def execI01ToR11 (s : State) : Host.Outcome State Fault Refusal := answer (dispatch .retransmit s)

/-- I(0,1) → R(1,2): the right bit with an error code, Retransmit (R222). -/
def execI01ToR12 (s : State) : Host.Outcome State Fault Refusal := answer (dispatch .retransmit s)

/-- I(0,1) → R(1,3): the right bit with an error code, Retransmit (R222). -/
def execI01ToR13 (s : State) : Host.Outcome State Fault Refusal := answer (dispatch .retransmit s)

/-- I(1,1) → R(0,1): the right bit with an error code, Retransmit (R222). -/
def execI11ToR01 (s : State) : Host.Outcome State Fault Refusal := answer (dispatch .retransmit s)

/-- I(1,1) → R(0,2): the right bit with an error code, Retransmit (R222). -/
def execI11ToR02 (s : State) : Host.Outcome State Fault Refusal := answer (dispatch .retransmit s)

/-- I(1,1) → R(0,3): the right bit with an error code, Retransmit (R222). -/
def execI11ToR03 (s : State) : Host.Outcome State Fault Refusal := answer (dispatch .retransmit s)

/-- I(0,0) → R(1,e): an unexpected acknowledgement, error R-block, SingleShot (R223). -/
def execI00ToR1e (_e : ErrCode) (s : State) : Host.Outcome State Fault Refusal := answer (dispatch .singleShot (putErrorR s))

/-- I(1,0) → R(0,e): an unexpected acknowledgement, error R-block, SingleShot (R223). -/
def execI10ToR0e (_e : ErrCode) (s : State) : Host.Outcome State Fault Refusal := answer (dispatch .singleShot (putErrorR s))

end Sys2Proof.Machine
end

