-- ==== Sys2Proof/Machine/RowsControl.lean ====
section
/-! DEFINITION. The rows of supervisory exchanges the host started and of invalid receptions (spec/43_rule_table.md sections 6 and 7). -/

namespace Sys2Proof.Machine

/-- S(IFS,REQUEST) → S(IFS,RESPONSE): Complete, nothing else written (R216). -/
def execIfsReqToIfsResp (s : State) : Host.Outcome State Fault Refusal := answer (dispatch .complete s)

/-- S(RESYNC,REQUEST) → S(RESYNC,RESPONSE): ResetSession (R224). -/
def execResyncReqToResyncResp (s : State) : Host.Outcome State Fault Refusal := answer (dispatch .resetSession s)

/-- S(RESYNC,REQUEST) → INVALID: Retransmit (R228). -/
def execResyncReqToInvalid (s : State) : Host.Outcome State Fault Refusal := answer (dispatch .retransmit s)

/-- S(ABORT,REQUEST) → S(ABORT,RESPONSE): Complete, nothing else written (R225). -/
def execAbortReqToAbortResp (s : State) : Host.Outcome State Fault Refusal := answer (dispatch .complete s)

/-- S(ABORT,RESPONSE) → R(n,0): Abort (R226). -/
def execAbortRespToR0 (_n : Bit) (s : State) : Host.Outcome State Fault Refusal := answer (dispatch .abort s)

/-- R(n,e) → INVALID: Retransmit (R229). -/
def execRToInvalid (_n : Bit) (_e : ErrCode) (s : State) : Host.Outcome State Fault Refusal := answer (dispatch .retransmit s)

/-- I(a,m) → INVALID: error R-block, SingleShot (R231). -/
def execIToInvalid (_a _m : Bit) (s : State) : Host.Outcome State Fault Refusal := answer (dispatch .singleShot (putErrorR s))

/-- S(IFS,REQUEST) or S(WTX,REQUEST) → INVALID: error R-block, SingleShot (R231). -/
def execIfsWtxReqToInvalid (_t : SType) (s : State) : Host.Outcome State Fault Refusal := answer (dispatch .singleShot (putErrorR s))

/-- S(ABORT,REQUEST) → INVALID: error R-block, SingleShot (R231). -/
def execAbortReqToInvalid (s : State) : Host.Outcome State Fault Refusal := answer (dispatch .singleShot (putErrorR s))

/-- S(t,RESPONSE) → INVALID: error R-block, SingleShot (R231). -/
def execRespToInvalid (_t : SType) (s : State) : Host.Outcome State Fault Refusal := answer (dispatch .singleShot (putErrorR s))

end Sys2Proof.Machine
end

