-- ==== Sys2Proof/Machine/RowsData.lean ====
section
/-! DEFINITION. The rows in which the card answers with an I-block (spec/43_rule_table.md sections 3 and 4). -/

namespace Sys2Proof.Machine

/-- I(a,0) → I(b,0): deliver, Complete (R211). -/
def execIToILast (_a _b : Bit) (s : State) : Host.Outcome State Fault Refusal := answer (deliverLast s)

/-- I(a,0) → I(b,1): deliver, acknowledge, Continue (R212). -/
def execIToIMore (_a b : Bit) (s : State) : Host.Outcome State Fault Refusal := answer (deliverMore b s)

/-- R(n,e) → I(b,0): deliver, Complete (R217). -/
def execRToILast (_n : Bit) (_e : ErrCode) (_b : Bit) (s : State) : Host.Outcome State Fault Refusal := answer (deliverLast s)

/-- R(n,e) → I(b,1): deliver, acknowledge, Continue (R218). -/
def execRToIMore (_n : Bit) (_e : ErrCode) (b : Bit) (s : State) : Host.Outcome State Fault Refusal := answer (deliverMore b s)

end Sys2Proof.Machine
end

