-- ==== Sys2Proof/Machine/RowsSupervisory.lean ====
section
/-! DEFINITION. The rows for supervisory requests of the card (spec/43_rule_table.md section 2 and R227). -/

namespace Sys2Proof.Machine

/-- any → S(IFS,REQUEST): the size is echoed and becomes IFS, unchecked; SingleShot (R210). -/
def execAnyToIfsReq (_sent : Byte) (s : State) : Host.Outcome State Fault Refusal := answer (dispatch .singleShot { putEcho .ifs s with ifs := infAt s.rxf 0 })

/-- I(a,m) → S(WTX,REQUEST): the multiplier is echoed and becomes WAIT_MULT, unchecked; SingleShot (R214). -/
def execIToWtxReq (_a _m : Bit) (s : State) : Host.Outcome State Fault Refusal := answer (dispatch .singleShot { putEcho .wtx s with waitMult := infAt s.rxf 0 })

/-- I(a,1) → S(ABORT,REQUEST): an abort request is sent; Continue (R227). -/
def execIMoreToAbortReq (_a : Bit) (s : State) : Host.Outcome State Fault Refusal := answer (dispatch .cont (putAbortRequest s))

/-- R(n,e) → S(ABORT,REQUEST): an abort request is sent; Continue (R227). -/
def execRToAbortReq (_n : Bit) (_e : ErrCode) (s : State) : Host.Outcome State Fault Refusal := answer (dispatch .cont (putAbortRequest s))

end Sys2Proof.Machine
end

