-- ==== Sys2Proof/Machine/Dispatch.lean ====
section
/-! DEFINITION. The dispatch of every row of spec/opcode_table.json to its meaning. -/

namespace Sys2Proof.Machine

def exec (i : Instr) (s : State) : Host.Outcome State Fault Refusal :=
  match i with
  | .i00 => Sys2Proof.Machine.execI00 s
  | .i01 => Sys2Proof.Machine.execI01 s
  | .i10 => Sys2Proof.Machine.execI10 s
  | .i11 => Sys2Proof.Machine.execI11 s
  | .r00 => Sys2Proof.Machine.execR00 s
  | .r01 => Sys2Proof.Machine.execR01 s
  | .r02 => Sys2Proof.Machine.execR02 s
  | .r03 => Sys2Proof.Machine.execR03 s
  | .r10 => Sys2Proof.Machine.execR10 s
  | .r11 => Sys2Proof.Machine.execR11 s
  | .r12 => Sys2Proof.Machine.execR12 s
  | .r13 => Sys2Proof.Machine.execR13 s
  | .sResyncReq => Sys2Proof.Machine.execSResyncReq s
  | .sIfsReq => Sys2Proof.Machine.execSIfsReq s
  | .sAbortReq => Sys2Proof.Machine.execSAbortReq s
  | .sWtxReq => Sys2Proof.Machine.execSWtxReq s
  | .sResyncResp => Sys2Proof.Machine.execSResyncResp s
  | .sIfsResp => Sys2Proof.Machine.execSIfsResp s
  | .sAbortResp => Sys2Proof.Machine.execSAbortResp s
  | .sWtxResp => Sys2Proof.Machine.execSWtxResp s
  | .invalid => Sys2Proof.Machine.execInvalid s
  | .anyToIfsReq sent => Sys2Proof.Machine.execAnyToIfsReq sent s
  | .iToWtxReq a m => Sys2Proof.Machine.execIToWtxReq a m s
  | .iToILast a b => Sys2Proof.Machine.execIToILast a b s
  | .iToIMore a b => Sys2Proof.Machine.execIToIMore a b s
  | .rToILast n e b => Sys2Proof.Machine.execRToILast n e b s
  | .rToIMore n e b => Sys2Proof.Machine.execRToIMore n e b s
  | .i01ToR10 => Sys2Proof.Machine.execI01ToR10 s
  | .i11ToR00 => Sys2Proof.Machine.execI11ToR00 s
  | .i0mToR0e m e => Sys2Proof.Machine.execI0mToR0e m e s
  | .i1mToR1e m e => Sys2Proof.Machine.execI1mToR1e m e s
  | .i01ToR11 => Sys2Proof.Machine.execI01ToR11 s
  | .i01ToR12 => Sys2Proof.Machine.execI01ToR12 s
  | .i01ToR13 => Sys2Proof.Machine.execI01ToR13 s
  | .i11ToR01 => Sys2Proof.Machine.execI11ToR01 s
  | .i11ToR02 => Sys2Proof.Machine.execI11ToR02 s
  | .i11ToR03 => Sys2Proof.Machine.execI11ToR03 s
  | .i00ToR1e e => Sys2Proof.Machine.execI00ToR1e e s
  | .i10ToR0e e => Sys2Proof.Machine.execI10ToR0e e s
  | .ifsReqToIfsResp => Sys2Proof.Machine.execIfsReqToIfsResp s
  | .resyncReqToResyncResp => Sys2Proof.Machine.execResyncReqToResyncResp s
  | .resyncReqToInvalid => Sys2Proof.Machine.execResyncReqToInvalid s
  | .abortReqToAbortResp => Sys2Proof.Machine.execAbortReqToAbortResp s
  | .abortRespToR0 n => Sys2Proof.Machine.execAbortRespToR0 n s
  | .iMoreToAbortReq a => Sys2Proof.Machine.execIMoreToAbortReq a s
  | .rToAbortReq n e => Sys2Proof.Machine.execRToAbortReq n e s
  | .rToInvalid n e => Sys2Proof.Machine.execRToInvalid n e s
  | .iToInvalid a m => Sys2Proof.Machine.execIToInvalid a m s
  | .ifsWtxReqToInvalid t => Sys2Proof.Machine.execIfsWtxReqToInvalid t s
  | .abortReqToInvalid => Sys2Proof.Machine.execAbortReqToInvalid s
  | .respToInvalid t => Sys2Proof.Machine.execRespToInvalid t s

end Sys2Proof.Machine
end

