-- ==== Sys2Proof/Machine/Phases.lean ====
section
/-! DEFINITION. The phases of a command that are no row of the opcode table (spec/44_orchestrator.md R254 to R256), what
the rule loop does with bytes that are no row (42_rule_engine.md R196, R198; 30_encoding.md R105), and the host's events
(R250, R330, R340). -/

namespace Sys2Proof.Machine

/-- Sending (R254): one frame is encoded and transmitted; TXSEL goes back to ACTIVE. -/
def sendPhase (s : State) : Except Fault State :=
  match encodeSlot s.txsel s with
  | .error f => .error f
  | .ok t => .ok { t with txsel := t.active, phase := .receiving }

/-- The receive deadline `BWT_BASE * WAIT_MULT` (R255). -/
def deadline (s : State) : Nat := s.opt.bwtBase * s.waitMult.toNat

/-- The sentinel is put in RXF when `decode` failed (R256). -/
def substituteSentinel (r : Option Byte × State) : State :=
  match r.1 with
  | some _ => r.2
  | none => { r.2 with rxf := { r.2.rxf with pcb := r.2.cfg.pcbInvalid } }

/-- Receiving (R255, R256): the multiplier is consumed before the reception; a failed one leaves the sentinel; `evaluate`
begins with PASS 0 (R190). -/
def receivePhase (s : State) : State :=
  let r := substituteSentinel (decodeFrame (deadline s) { s with waitMult := 1 })
  { r with phase := .evaluating, stage := .precheck, pass := false }

/-- A received control byte that is no row of the opcode table is put through the pre-check by its kind (R105). -/
def judgeReserved (s : State) : Except Fault State :=
  if s.rxf.len = noRoom then .error .lenInvalid else account (precheck s)

/-- A key no row matches: HardFail when the received byte is already the sentinel or no re-entry is left (R198), else the sentinel
is forced and the loop runs again (R196). PASS tells the number of re-entries so far: after one the received byte is the
sentinel, so there is never another, whatever `REEVAL_LIMIT` is. -/
def noMatch (s : State) : Except Fault State :=
  if s.rx = s.cfg.pcbInvalid ∨ s.cfg.reevalLimit ≤ s.pass.toNat then dispatch .hardFail s
  else .ok { s with rxf := { s.rxf with pcb := s.cfg.pcbInvalid }, pass := true, stage := .precheck }

/-- The Evaluating phase on bytes that decode to no instruction. -/
def unrecognised (s : State) : Except Fault State :=
  match s.stage with
  | .precheck => judgeReserved s
  | .lookup => noMatch s

/-! ## The host's events -/

/-- The step's host event: the head of the list, and the state without it (log 18). -/
def State.nextEvent (s : State) : Option HostEvent := s.host.head?.join

/-- The state with the step's entry of the host's list taken off. -/
def State.takeEvent (s : State) : State := { s with host := s.host.tail }

/-- Hardware reset (R330): PHASE, SEQ_IF and SEQ_CARD as the spec says; every other register, which then holds no value,
takes the value log 3 names. The buffers, the configuration and the model's own fields are no registers and stay (log 19). -/
def hardwareReset (s : State) : State :=
  { State.reset with
    cfg := s.cfg
    seqIf := s.cfg.seqInit
    seqCard := s.cfg.seqInit
    txbuf := s.txbuf
    rxbuf := s.rxbuf
    window := s.window
    host := s.host
    polls := s.polls
    receives := s.receives
    resets := s.resets
    draws := s.draws
    calls := s.calls }

/-- All five option registers are written (R340). -/
def optionsReady (w : OptionsWritten) : Bool := w.hostAddr && w.nodeAddr && w.bwtBase && w.hook && w.hasReset

/-- The registers as R251 sets them at command start, before `build_initial`. DESIGN CHOICE (log 29): the registers to which R54's
command-start column gives no value (the pending slot, RXF, CHAINED, R_ERR, PASS, RESULT) keep the value they held. DESIGN CHOICE
(log 30): TXBUF and RXBUF keep their contents, so bytes written for an earlier command count as written. -/
def commandSetup (txLen rxCap : Nat) (s : State) : State :=
  { restoreSnapshot { s with txLen0 := s.cfg.clip txLen, rxCap0 := s.cfg.clip rxCap } with
    opt := s.hostOpt
    resetDone := false
    active := 0 }

/-- Command start (R251). -/
def commandStart (txLen rxCap : Nat) (s : State) : Except Fault State :=
  match buildInitial (commandSetup txLen rxCap s) with
  | .error f => .error f
  | .ok t => .ok { t with phase := .sending }

/-- A host write of an option register: refused while a command runs (R11; log 17). -/
def writeOption (f : State → State) (s : State) : Host.Outcome State Fault Refusal :=
  if s.busy then .refused .optionWriteWhileBusy else .next (f s)

/-- A host write of a buffer: refused while a command runs (R67; log 17). -/
def writeBuffer (f : State → State) (s : State) : Host.Outcome State Fault Refusal :=
  if s.busy then .refused .bufferWriteWhileBusy else .next (f s)

/-- TRANSCEIVE (R250): refused while a command runs (U9), and when an option register is unwritten: U2 says "refuse", for R340
gives such a command no defined behaviour. -/
def transceive (txLen rxCap : Nat) (s : State) : Host.Outcome State Fault Refusal :=
  if s.busy then .refused .commandWhileBusy
  else if optionsReady s.optWritten then answer (commandStart txLen rxCap s)
  else .refused .optionsUnwritten

/-- What an event of the host does. -/
def hostStep (e : HostEvent) (s : State) : Host.Outcome State Fault Refusal :=
  match e with
  | .hardwareReset => if s.busy then .refused .resetWhileBusy else .next (hardwareReset s)
  | .writeHostAddr b => writeOption (fun s => { s with
      hostOpt := { s.hostOpt with hostAddr := b }, optWritten := { s.optWritten with hostAddr := true } }) s
  | .writeNodeAddr b => writeOption (fun s => { s with
      hostOpt := { s.hostOpt with nodeAddr := b }, optWritten := { s.optWritten with nodeAddr := true } }) s
  | .writeBwtBase n => writeOption (fun s => { s with
      hostOpt := { s.hostOpt with bwtBase := n }, optWritten := { s.optWritten with bwtBase := true } }) s
  | .writeHook h => writeOption (fun s => { s with
      hostOpt := { s.hostOpt with hook := h }, optWritten := { s.optWritten with hook := true } }) s
  | .writeHasReset b => writeOption (fun s => { s with
      hostOpt := { s.hostOpt with hasReset := b }, optWritten := { s.optWritten with hasReset := true } }) s
  | .writeTx a b => writeBuffer (fun s => { s with txbuf := s.txbuf.write (s.cfg.clip a) b }) s
  | .writeRx a b => writeBuffer (fun s => { s with rxbuf := s.rxbuf.write (s.cfg.clip a) b }) s
  | .transceive txLen rxCap => transceive txLen rxCap s

end Sys2Proof.Machine
end

