-- ==== Sys2Proof/Machine/Step.lean ====
section
/-! DEFINITION. One step of the engine: a host event if the step has one; else the phase PHASE names, and in the Evaluating
phase the instruction at its place in the rule loop (spec/44_orchestrator.md R253; 42_rule_engine.md R190; log 1, log 18). -/

namespace Sys2Proof.Machine

/-- The Evaluating phase: the fetched bytes decode to an instruction, which is run, or to none, which the rule loop handles. -/
def evalStep (s : State) : Host.Outcome State Fault Refusal :=
  match decodeBytes s.fetch with
  | .ok i => exec i s
  | .error _ => answer (unrecognised s)

/-- The engine's own step. Outside a command it waits (R330, R250). -/
def engineStep (s : State) : Host.Outcome State Fault Refusal :=
  match s.phase with
  | .idle | .done | .failed => .next s
  | .sending => answer (sendPhase s)
  | .receiving => .next (receivePhase s)
  | .evaluating => evalStep s

/-- One step. -/
def step (s : State) : Host.Outcome State Fault Refusal :=
  match s.nextEvent with
  | some e => hostStep e s.takeEvent
  | none => engineStep s.takeEvent

/-- The state in which the next step has no host event, stands in the Evaluating phase, and fetches the given bytes: one
byte is the received control byte; two bytes are the received and the last-sent byte of the key, with the verdict R_ERR the
pre-check gives such a received byte (log 2). -/
def State.withFetchBytes (s : State) (bs : List Byte) : State :=
  match bs with
  | [received, sent] =>
    { s.setSlot s.active { s.current with pcb := sent } with
      host := none :: s.host
      phase := .evaluating
      stage := .lookup
      rErr := if received = 0xFF then 2 else 0
      rxf := { s.rxf with pcb := s.rowByte received } }
  | _ =>
    { s with
      host := none :: s.host
      phase := .evaluating
      stage := .precheck
      rxf := { s.rxf with pcb := s.rowByte (bs.headD 0) } }

/-- The state whose next step runs the instruction with the bits `w` (log 2). -/
def State.withFetchWord (s : State) (nbits w : Nat) : State := s.withFetchBytes (tableBytes nbits w)

end Sys2Proof.Machine
end

