-- ==== Sys2Proof/Safety.lean ====
section
/-! DEFINITION. The invariants of the engine: what every step keeps, in the terms the statements use. -/

namespace Sys2Proof.Safety

open Sys2Proof.Machine

/-- What holds in every state the engine can reach from reset, and what every step keeps. -/
structure EngineInv (s : State) : Prop where
  /-- The device-reset limit is a positive number; R10 gives 6. -/
  limitPositive : 0 < s.cfg.errorResetLimit
  /-- The buffers are in their canonical form. -/
  txWf : s.txbuf.wf = true
  rxWf : s.rxbuf.wf = true
  /-- `TX_PTR + TX_REM = TX_LEN0` (R45). -/
  txCursor : s.txPtr + s.txRem = s.txLen0
  /-- `RX_PTR + RX_REM = RX_CAP0` (R46). -/
  rxCursor : s.rxPtr + s.rxRem = s.rxCap0
  /-- The two length operands and RESULT.COUNT are `CURSOR_WIDTH`-bit numbers, and so by the two sums are the cursors (R45 to
  R49). -/
  txFits : s.txLen0 < 2 ^ s.cfg.cursorWidth
  rxFits : s.rxCap0 < 2 ^ s.cfg.cursorWidth
  countFits : s.resultCount < 2 ^ s.cfg.cursorWidth
  /-- No slot has LEN 255 (R92). -/
  slot0Len : s.slot0.len ≠ 0xFF
  slot1Len : s.slot1.len ≠ 0xFF
  /-- A received frame with LEN 255 is never judged: the sentinel stands in its place (R142, R256). -/
  rxfLen : s.phase = .evaluating → s.rxf.len = 0xFF → s.rxf.pcb = s.cfg.pcbInvalid
  /-- R_ERR is never 3 (R35). -/
  rErrLegal : s.rErr ≠ 3
  /-- `ERRORS` stays in 0..ERROR_RESET_LIMIT, below the limit while a command runs (R43, R194). -/
  errorsBound : s.errors ≤ s.cfg.errorResetLimit
  errorsBusy : s.busy = true → s.errors < s.cfg.errorResetLimit
  /-- `RETRANSMITS` stays in 0..RETRANSMIT_LIMIT (R44). -/
  retransmitsBound : s.retransmits ≤ s.cfg.retransmitLimit
  /-- The read window is closed between two steps (R52, R73). -/
  windowClosed : s.window = false
  /-- The second pass of the rule loop judges the sentinel (R196). -/
  secondPass : s.phase = .evaluating → s.pass = true → s.rxf.pcb = s.cfg.pcbInvalid

/-- The eight values the last-sent control byte takes during a command (R234). -/
def lastSentBytes : List Byte := [0x00, 0x20, 0x40, 0x60, 0x80, 0x90, 0xC0, 0xC2]

/-- While a command runs and no hook is present, the last-sent control byte is one of the eight (R234). -/
def LastSentInv (s : State) : Prop :=
  s.busy = true → s.opt.hook = none → s.current.pcb ∈ lastSentBytes

/-- Every byte of the send buffer of the command is written (R340). -/
def TxReady (s : State) : Prop := ∀ a, a < s.txLen0 → (s.txbuf.read a).isSome = true

end Sys2Proof.Safety
end

