-- ==== Sys2Proof/Certificates/Slice0/Obligations.lean ====
section
/-! DEFINITION. The statements about the engine. Each docstring names the rule of spec/ it comes from. The frame of a
statement is written `t = { s with f := t.f, … }`: every field not named is as in `s`. -/

open Sys2Proof Sys2Proof.Machine Sys2Proof.Safety

namespace Sys2Proof.Claims

/-! ## Words the statements use -/

/-- The PCB row of `I(ns, m)`. -/
def iBlock (ns m : Bit) : Instr :=
  if ns = 0 then (if m = 0 then .i00 else .i01) else (if m = 0 then .i10 else .i11)

/-- The PCB row of `R(nr, e)`. -/
def rBlock (nr : Bit) (e : ErrCode) : Instr :=
  if nr = 0 then (if e = 0 then .r00 else if e = 1 then .r01 else if e = 2 then .r02 else .r03)
  else (if e = 0 then .r10 else if e = 1 then .r11 else if e = 2 then .r12 else .r13)

/-- The PCB row of `S(t, d)`. -/
def sBlock : SType → SDir → Instr
  | .resync, .request => .sResyncReq
  | .ifs, .request => .sIfsReq
  | .abort, .request => .sAbortReq
  | .wtx, .request => .sWtxReq
  | .resync, .response => .sResyncResp
  | .ifs, .response => .sIfsResp
  | .abort, .response => .sAbortResp
  | .wtx, .response => .sWtxResp

/-- The LEN an S-block must carry: 0 for S(RESYNC,RESPONSE), 1 for every other (R186). -/
def sBlockLen : SType → SDir → Byte
  | .resync, .response => 0
  | .resync, .request => 1
  | .ifs, _ => 1
  | .abort, _ => 1
  | .wtx, _ => 1

/-- What the pre-check records about the last-sent frame once the checksum is good (R184). -/
def sentRecorded (s : State) : State :=
  { s with
    chained := if s.kind s.current.pcb = .i then mOf s.current.pcb else s.chained
    seqIf := if s.kind s.current.pcb = .i then nsOf s.current.pcb else s.seqIf }

/-- One more counted error reaches neither escalation of R194. -/
def NoEscalation (s : State) : Prop :=
  s.errors + 1 < s.cfg.errorResetLimit ∧ (s.kind s.current.pcb ≠ .i ∨ s.errors + 1 < s.cfg.errorResyncLimit)

/-- One more counted error escalates to the resync request: the last-sent frame is an I-block (R194 (b)). -/
def ResyncEscalation (s : State) : Prop :=
  s.errors + 1 < s.cfg.errorResetLimit ∧ s.kind s.current.pcb = .i ∧ s.cfg.errorResyncLimit ≤ s.errors + 1

/-- One more counted error exhausts the error budget (R194 (a)). -/
def ResetEscalation (s : State) : Prop := s.cfg.errorResetLimit ≤ s.errors + 1

/-- The shape of the received block `i` is wrong: the LEN of an S-block or an R-block (R186, R187), or a repeated N(S) (R188). -/
def WrongShape (i : Instr) (s : State) : Prop :=
  (∃ t d, i = sBlock t d ∧ s.rxf.len ≠ sBlockLen t d) ∨ (∃ nr e, i = rBlock nr e ∧ s.rxf.len ≠ 0) ∨
  (∃ ns m, i = iBlock ns m ∧ ns = s.seqCard)

/-- The pre-check refuses the received block `i` with the code `c`, and leaves the registers as in `u`: the sentinel (R181); a wrong
checksum (R183); a block with a good checksum and a wrong shape, the last-sent frame being recorded first (R184 to R188). -/
def RefusedReception (i : Instr) (c : ErrCode) (s u : State) : Prop :=
  (i = .invalid ∧ c = 2 ∧ u = s) ∨
  ((encodeBlock i).isSome = true ∧ i ≠ .invalid ∧ s.rxf.len ≠ 0xFF ∧ lrcOk s.rxf = false ∧ c = 1 ∧ u = s) ∨
  (s.rxf.len ≠ 0xFF ∧ lrcOk s.rxf = true ∧ WrongShape i s ∧ c = 2 ∧ u = sentRecorded s)

/-- The size of the first chunk of a session: `min(IFS_DEFAULT, INF_MAX, TX_LEN0)` (R163, R252). -/
def firstChunk (c : Config.Params) (txLen : Nat) : Nat := min (min c.ifsDefault.toNat c.infMax) txLen

/-- The initial I-block of a session stands in the current slot of `t`, filled from offset 0 of TXBUF, and the cursors have
advanced over it (R252, R163). -/
def InitialBlock (seqIf : Bit) (t : State) : Prop :=
  t.current.pcb = iPcb (~~~seqIf) (if firstChunk t.cfg t.txLen0 < t.txLen0 then 1 else 0) ∧
  t.current.len.toNat = firstChunk t.cfg t.txLen0 ∧
  (∀ k, k < firstChunk t.cfg t.txLen0 → t.txbuf.read k = some (infAt t.current k)) ∧
  t.txPtr = firstChunk t.cfg t.txLen0 ∧
  t.txRem = t.txLen0 - firstChunk t.cfg t.txLen0

/-- The other registers of ProtocolState at their call-initial values (R251, R270). -/
def SnapshotRestored (t : State) : Prop :=
  t.ifs = t.cfg.ifsDefault ∧ t.waitMult = 1 ∧ t.errors = 0 ∧ t.retransmits = 0 ∧ t.rxPtr = 0 ∧ t.rxRem = t.rxCap0 ∧
  t.lastErr = .none ∧ t.txsel = t.active ∧ t.phase = .sending

/-- The first chunk of the send buffer is written. -/
def FirstChunkWritten (c : Config.Params) (txLen : Nat) (txbuf : Memory) : Prop :=
  ∀ k, k < firstChunk c txLen → (txbuf.read k).isSome = true

/-- Of the `n` bytes of a send buffer from offset `a` on, the byte `k` is the first that nothing has written. -/
def FirstUnwritten (txbuf : Memory) (a n k : Nat) : Prop :=
  k < n ∧ (∀ j, j < k → (txbuf.read (a + j)).isSome = true) ∧ txbuf.read (a + k) = none

/-- From `s` to `t` a new session starts: the snapshot is restored, both sequence bits are SEQ_INIT, the initial I-block is
rebuilt in the current slot; the pending slot and every register R270 does not write are kept. -/
def SessionRestarted (s t : State) : Prop :=
  SnapshotRestored t ∧ InitialBlock s.cfg.seqInit t ∧ t.pending = s.pending ∧
  t = { s with
    ifs := t.ifs, waitMult := t.waitMult, errors := t.errors, retransmits := t.retransmits, txPtr := t.txPtr,
    txRem := t.txRem, rxPtr := t.rxPtr, rxRem := t.rxRem, lastErr := t.lastErr, seqIf := s.cfg.seqInit,
    seqCard := s.cfg.seqInit, slot0 := t.slot0, slot1 := t.slot1, txsel := t.txsel, phase := t.phase }

/-- From `s` to `t` the action Continue was carried out after the pending slot took the block `p` with LEN 0: it is the
current slot now, the old current slot is pending, both counters are 0 (R266). -/
def ContinuedWith (p : Byte) (s t : State) : Prop :=
  t.current.pcb = p ∧ t.current.len = 0 ∧ t.pending = s.current ∧ t.active = ~~~s.active ∧ t.txsel = ~~~s.active ∧
  t.errors = 0 ∧ t.retransmits = 0 ∧ t.phase = .sending

/-- From `s` to `t` the action SingleShot was carried out after the pending slot took the block `p`: it is selected for the next
transmission and the last-sent frame is untouched (R267). -/
def SingleShotWith (p len : Byte) (s t : State) : Prop :=
  t.pending.pcb = p ∧ t.pending.len = len ∧ t.current = s.current ∧ t.txsel = ~~~s.active ∧ t.phase = .sending

/-- From `s` to `t` the command ended Failed with a kind (R268, R269, R264). RESULT.COUNT is a free value, so nothing is said of
it but that it was drawn. -/
def FailedWith (k : ResultKind) (s t : State) : Prop :=
  t = { s with phase := .failed, resultKind := k, resultCount := t.resultCount, draws := s.draws + 1 }

/-- The payload of the block in RXF has been delivered: the bytes that fit, from `RX_PTR` on, and nothing else in RXBUF has
changed; the cursors have moved (R170, R171). -/
def Delivered (s t : State) : Prop :=
  (∀ a, t.rxbuf.read a =
    if s.rxPtr ≤ a ∧ a < s.rxPtr + min s.rxf.len.toNat s.rxRem
    then some (infAt s.rxf (a - s.rxPtr)) else s.rxbuf.read a) ∧
  t.rxPtr = s.rxPtr + min s.rxf.len.toNat s.rxRem ∧
  t.rxRem = s.rxRem - min s.rxf.len.toNat s.rxRem

/-- The rows in which an R-block of the card asks for the I-block again (R221, R222). -/
def askedAgainRow : Instr → Bool
  | .i0mToR0e _ _ | .i1mToR1e _ _ | .i01ToR11 | .i01ToR12 | .i01ToR13 | .i11ToR01 | .i11ToR02 | .i11ToR03 => true
  | _ => false

/-- The rows in which a resync request or an R-block draws no valid answer (R228, R229). -/
def unansweredRow : Instr → Bool
  | .resyncReqToInvalid | .rToInvalid _ _ => true
  | _ => false

/-- The rows that send an error R-block once (R223, R231). -/
def errorRRow : Instr → Bool
  | .i00ToR1e _ | .i10ToR0e _ | .iToInvalid _ _ | .ifsWtxReqToInvalid _ | .abortReqToInvalid | .respToInvalid _ => true
  | _ => false

/-- The rows that answer a card's abort request (R227). -/
def abortRequestRow : Instr → Bool
  | .iMoreToAbortReq _ | .rToAbortReq _ _ => true
  | _ => false

/-- The rows for the last block of the card (R211, R217). -/
def lastBlockRow : Instr → Bool
  | .iToILast _ _ | .rToILast _ _ _ => true
  | _ => false

/-- The rows for a block of the card with more to follow, with the received N(S) (R212, R218). -/
def moreBlockRow : Instr → Option Bit
  | .iToIMore _ b | .rToIMore _ _ b => some b
  | _ => none

/-- The rows that fill the next chunk, with the N(S) of its block (R220). -/
def nextChunkRow : Instr → Option Bit
  | .i01ToR10 => some 1
  | .i11ToR00 => some 0
  | _ => none

/-- The next chunk's size: `min(IFS, INF_MAX, TX_REM)` (R163). -/
def nextSize (s : State) : Nat := min (min s.ifs.toNat s.cfg.infMax) s.txRem

/-- The XOR of the bytes `bs` with `c` (R94). -/
def xorFold (c : Byte) (bs : List Byte) : Byte := bs.foldl (· ^^^ ·) c

/-- The frames a state has transmitted, among its transport calls. -/
def framesSent (cs : List TransportCall) : Nat :=
  (cs.filter (fun c => match c with | .transmit _ => true | _ => false)).length

/-- The calls of `T.reset` among a state's transport calls. -/
def resetCalls (cs : List TransportCall) : Nat :=
  (cs.filter (fun c => match c with | .reset => true | _ => false)).length

/-- Filling slot 0 again and again until nothing remains: the chunks, in order (R166). -/
def sendChunks : Nat → State → Except Fault (List (List Byte))
  | 0, _ => .ok []
  | k + 1, s =>
    match fillOutbound 0 s with
    | .error f => .error f
    | .ok (_, t) =>
      if t.txRem = 0 then .ok [infBytes (t.slot 0)]
      else match sendChunks k t with
        | .error f => .error f
        | .ok cs => .ok (infBytes (t.slot 0) :: cs)

/-- `n` steps, stopping at the first fault or refusal. -/
def runSteps : Nat → State → Host.Outcome State Fault Refusal
  | 0, s => .next s
  | n + 1, s =>
    match step s with
    | .next t => runSteps n t
    | .fault f => .fault f
    | .refused r => .refused r

end Sys2Proof.Claims

open Sys2Proof.Claims

/-! ## Encoding -/

/-- Words written out from the bit layouts of R98 to R100 and from the patterns of 43_rule_table.md decode to their rows: a
sanity check of a few of them (the positions are the spec's decision D11, log 12). -/
def Obligations.SampleWordsDecode : Prop :=
  decodeBytes [0b01100000] = .ok .i11 ∧ decodeBytes [0b10010010] = .ok .r12 ∧ decodeBytes [0b11100011] = .ok .sWtxResp ∧
  decodeBytes [0b11111111] = .ok .invalid ∧ decodeBytes [0x04] = .error (.reservedControlByte 0x04) ∧
  decodeBytes [0xC1, 0x01] = .ok (.anyToIfsReq 0x01) ∧ decodeBytes [0x20, 0x40] = .ok (.iToIMore 1 0) ∧
  decodeBytes [0x92, 0x20] = .ok .i01ToR12 ∧ decodeBytes [0xFF, 0xE2] = .ok (.respToInvalid .abort) ∧
  decodeBytes [0xC3, 0x90] = .error (.unrecognisedPair 0x90 0xC3)

/-- Decode of encode is the identity on every well-formed instruction, whatever its operands (R98 to R100, R110, R209). -/
def Obligations.DecodeEncodeRoundTrip : Prop :=
  ∀ i : Instr, i.wellFormed = true → decodeBytes (encode i) = .ok i

/-- Encode of decode is the identity on every word that decodes, and what decodes is well-formed: the decoder drops no bit of a
word and admits no reserved one (R103, R209). -/
def Obligations.EncodeDecodeRoundTrip : Prop :=
  ∀ (bs : List Byte) (i : Instr), decodeBytes bs = .ok i → encode i = bs ∧ i.wellFormed = true

/-- No key of the rule table matches two rows, so the order of testing does not matter (R209; the patterns are the spec's
decision D13). -/
def Obligations.RuleRowsAreDisjoint : Prop :=
  ∀ k : BitVec 16, (pairRows.filter (fun r => r.matchesKey k)).length ≤ 1

/-- Every defined last-sent byte has a row for an invalid reception, and no other byte has one (R198, R232; the spec's decision
D20). -/
def Obligations.InvalidReceptionRowsCoverDefinedBytes : Prop :=
  ∀ p : Byte, (decodePair p 0xFF).isSome = isDefined p

/-! ## The step -/

/-- When the bytes at the engine's place in the rule loop decode to an instruction, the step runs exactly it: the received
control byte before the pre-check, the key of the last-sent and the received byte before the lookup (R190, R110); the sentinel is
the opcode table's 0xFF (R97). All the step adds is taking its entry off the host's list. -/
def Obligations.StepRunsDecodedInstruction : Prop :=
  ∀ (s : State) (i : Instr), s.nextEvent = none → s.phase = .evaluating →
    (s.stage = .precheck ∧ decodeBytes [s.rowByte s.rxf.pcb] = .ok i ∨
      s.stage = .lookup ∧ decodeBytes [if s.rErr ≠ 0 then 0xFF else s.rowByte s.rxf.pcb, s.current.pcb] = .ok i) →
    step s = exec i { s with host := s.host.tail }

/-- How PHASE advances without a host event (R31): Sending goes to Receiving, Receiving to Evaluating; an evaluation stays
Evaluating, goes back to Sending, or ends Done or Failed; outside a command the engine waits, unchanged. -/
def Obligations.PhaseAdvancesAsTheCycle : Prop :=
  ∀ s t : State, s.nextEvent = none → step s = .next t →
    (s.phase = .sending → t.phase = .receiving) ∧
    (s.phase = .receiving → t.phase = .evaluating) ∧
    (s.phase = .evaluating →
      t.phase = .evaluating ∨ t.phase = .sending ∨ t.phase = .done ∨ t.phase = .failed) ∧
    (s.phase = .idle ∨ s.phase = .done ∨ s.phase = .failed → t = { s with host := s.host.tail })

/-! ## Received blocks -/

/-- A checksum-valid I-block (R184, R188): with N(S) different from SEQ_CARD it is accepted, the last-sent I-block is recorded,
SEQ_CARD takes N(S) and R_ERR is 0; with N(S) equal to SEQ_CARD it is error 2, SEQ_CARD is kept, SEQ_IF is recorded all the same
(R185), and, short of an escalation, ERRORS goes up by one and the table is consulted. -/
def Obligations.IBlockAlternates : Prop :=
  ∀ (s : State) (ns m : Bit), s.rxf.len ≠ 0xFF → lrcOk s.rxf = true →
    (ns ≠ s.seqCard →
      exec (iBlock ns m) s = .next { sentRecorded s with seqCard := ns, rErr := 0, stage := .lookup }) ∧
    (ns = s.seqCard → NoEscalation s →
      exec (iBlock ns m) s = .next { sentRecorded s with
        rErr := 2, lastErr := .invalidFrame, errors := s.errors + 1, stage := .lookup })

/-- A checksum-valid R-block is accepted iff LEN is 0; otherwise it is error 2 (R187). -/
def Obligations.RBlockNeedsLengthZero : Prop :=
  ∀ (s : State) (nr : Bit) (e : ErrCode), s.rxf.len ≠ 0xFF → lrcOk s.rxf = true →
    (s.rxf.len = 0 → exec (rBlock nr e) s = .next { sentRecorded s with rErr := 0, stage := .lookup }) ∧
    (s.rxf.len ≠ 0 → NoEscalation s →
      exec (rBlock nr e) s = .next { sentRecorded s with
        rErr := 2, lastErr := .invalidFrame, errors := s.errors + 1, stage := .lookup })

/-- A checksum-valid S-block is accepted iff it has its LEN: 0 for S(RESYNC,RESPONSE), 1 for every other; otherwise it is error 2
(R186; that the parenthesis is a requirement is the spec's decision D19). -/
def Obligations.SBlockNeedsItsLength : Prop :=
  ∀ (s : State) (t : SType) (d : SDir), s.rxf.len ≠ 0xFF → lrcOk s.rxf = true →
    (s.rxf.len = sBlockLen t d → exec (sBlock t d) s = .next { sentRecorded s with rErr := 0, stage := .lookup }) ∧
    (s.rxf.len ≠ sBlockLen t d → NoEscalation s →
      exec (sBlock t d) s = .next { sentRecorded s with
        rErr := 2, lastErr := .invalidFrame, errors := s.errors + 1, stage := .lookup })

/-- The pre-check's steps in their order, for every control byte, reserved ones included: the sentinel is 2 and nothing is read or
written (R181); a wrong checksum is 1 and nothing is written (R183); a good one records M and N(S) of a last-sent I-block
(R184); an R-kind block needs LEN 0 (R187); an I-kind block needs N(S) different from SEQ_CARD, which then takes it
(R188). -/
def Obligations.PrecheckFollowsItsSteps : Prop :=
  ∀ s : State,
    (s.rxf.pcb = s.cfg.pcbInvalid → precheck s = (2, s)) ∧
    (s.rxf.pcb ≠ s.cfg.pcbInvalid → lrcOk s.rxf = false → precheck s = (1, s)) ∧
    (s.rxf.pcb ≠ s.cfg.pcbInvalid → lrcOk s.rxf = true →
      (precheck s).2 = { sentRecorded s with seqCard := (precheck s).2.seqCard } ∧
      (s.kind s.rxf.pcb ≠ .i → (precheck s).2.seqCard = s.seqCard)) ∧
    (s.kind s.rxf.pcb = .r → lrcOk s.rxf = true → (precheck s).1 = if s.rxf.len = 0 then 0 else 2) ∧
    (s.kind s.rxf.pcb = .i → lrcOk s.rxf = true →
      precheck s = if nsOf s.rxf.pcb = s.seqCard then (2, sentRecorded s)
        else (0, { sentRecorded s with seqCard := nsOf s.rxf.pcb }))

/-- A reception the pre-check refuses, short of an escalation: R_ERR holds the code, ERRORS goes up by one, LAST_ERR is InvalidFrame
and the table is consulted (R192, R193; the escalations left out are the spec's decision D3); nothing else changes but what the
pre-check recorded. The refusals are the sentinel, a wrong checksum, a wrong LEN and a repeated N(S) (R181 to R188; the LEN of
S(RESYNC,RESPONSE) is the spec's decision D19). -/
def Obligations.FaultyReceptionIsCounted : Prop :=
  ∀ (s u : State) (i : Instr) (c : ErrCode), RefusedReception i c s u → NoEscalation s →
    exec i s = .next { u with rErr := c, lastErr := .invalidFrame, errors := s.errors + 1, stage := .lookup }

/-- The refused reception whose count reaches ERROR_RESYNC_LIMIT with an I-block last-sent puts the resync request in the pending
slot, LEN 0, and continues with it (R194 (b), the spec's decision D3; R266; the refusals name D19 as above). -/
def Obligations.ErrorsOnIBlockEscalateToResync : Prop :=
  ∀ (s u : State) (i : Instr) (c : ErrCode), RefusedReception i c s u → ResyncEscalation s →
    ∃ t, exec i s = .next t ∧ ContinuedWith 0xC0 s t ∧
      t = { u with
        rErr := c, lastErr := .invalidFrame, errors := t.errors, retransmits := t.retransmits, active := t.active,
        txsel := t.txsel, slot0 := t.slot0, slot1 := t.slot1, phase := t.phase }

/-- The refused reception whose count reaches ERROR_RESET_LIMIT with the reset spent or not offered ends the command with
DeviceResetFailure and makes no transport call (R194 (a), the spec's decision D3; R269; the refusals name D19 as above). -/
def Obligations.ExhaustedBudgetWithoutResetFails : Prop :=
  ∀ (s u : State) (i : Instr) (c : ErrCode), RefusedReception i c s u → ResetEscalation s →
    (s.resetDone = true ∨ s.opt.hasReset = false) →
    ∃ t, exec i s = .next t ∧
      FailedWith .deviceResetFailure { u with rErr := c, lastErr := .invalidFrame, errors := s.errors + 1 } t

/-- The refused reception whose count reaches ERROR_RESET_LIMIT with a reset available calls `T.reset` once: an answer other than
ok ends the command with DeviceResetFailure; ok starts a new session (R194 (a), the spec's decision D3; R269, R270; the refusals
name D19 as above). -/
def Obligations.ExhaustedBudgetResetsTheDevice : Prop :=
  ∀ (s u : State) (i : Instr) (c : ErrCode) (r : ResetAnswer) (rest : List ResetAnswer),
    RefusedReception i c s u → ResetEscalation s → s.resetDone = false → s.opt.hasReset = true → s.resets = r :: rest →
    (r ≠ .ok → ∃ t, exec i s = .next t ∧
      FailedWith .deviceResetFailure
        { u with
          rErr := c, lastErr := .invalidFrame, errors := s.errors + 1, resetDone := true, resets := rest,
          calls := .reset :: s.calls } t) ∧
    (r = .ok → FirstChunkWritten s.cfg s.txLen0 s.txbuf → ∃ t, exec i s = .next t ∧
      SessionRestarted { u with rErr := c, resetDone := true, resets := rest, calls := .reset :: s.calls } t)

/-- The meaning of every block of the table is the pre-check of R182 on its control byte, followed by the accounting: the
instruction and the byte in RXF never disagree. -/
def Obligations.BlockMeaningIsThePrecheck : Prop :=
  ∀ (s : State) (i : Instr), decodeBytes [s.rowByte s.rxf.pcb] = .ok i → s.rxf.len ≠ 0xFF →
    exec i s = answer (account (precheck s))

/-- A control byte that is no row is judged by its kind, as a defined one is (R105; the LEN of S-blocks as the spec's decision D19
reads it). A wrong checksum is error 1. With a good one: an I-kind byte passes iff its N(S) differs from SEQ_CARD, which then takes
it; an R-kind byte passes iff LEN is 0; an S-kind byte passes iff LEN is 1; otherwise it is error 2. Short of an escalation an
error is counted and the table consulted (R193). -/
def Obligations.ReservedBlockIsJudgedByKind : Prop :=
  ∀ s : State, s.nextEvent = none → s.phase = .evaluating → s.stage = .precheck →
    decodeBlock (s.rowByte s.rxf.pcb) = none → s.rxf.len ≠ 0xFF →
    (lrcOk s.rxf = false → NoEscalation s →
      step s = .next { s with
        rErr := 1, lastErr := .invalidFrame, errors := s.errors + 1, stage := .lookup, host := s.host.tail }) ∧
    (lrcOk s.rxf = true →
      (s.kind s.rxf.pcb = .i → nsOf s.rxf.pcb ≠ s.seqCard →
        step s = .next { sentRecorded s with
          seqCard := nsOf s.rxf.pcb, rErr := 0, stage := .lookup, host := s.host.tail }) ∧
      (s.kind s.rxf.pcb = .r ∧ s.rxf.len = 0 ∨ s.kind s.rxf.pcb = .s ∧ s.rxf.len = 1 →
        step s = .next { sentRecorded s with rErr := 0, stage := .lookup, host := s.host.tail }) ∧
      (s.kind s.rxf.pcb = .i ∧ nsOf s.rxf.pcb = s.seqCard ∨ s.kind s.rxf.pcb = .r ∧ s.rxf.len ≠ 0 ∨
          s.kind s.rxf.pcb = .s ∧ s.rxf.len ≠ 1 → NoEscalation s →
        step s = .next { sentRecorded s with
          rErr := 2, lastErr := .invalidFrame, errors := s.errors + 1, stage := .lookup, host := s.host.tail }))

/-! ## Rows of the rule table -/

/-- any → S(IFS,REQUEST), whatever the sent byte (R210): the response echoes the proposed size with LEN 1 and is sent once, IFS
takes the size unchecked; no sequence bit, cursor or counter changes. -/
def Obligations.IfsRequestIsEchoed : Prop :=
  ∀ (s : State) (sent : Byte), decodeBytes [0xC1, sent] = .ok (.anyToIfsReq sent) ∧ ∃ t, exec (.anyToIfsReq sent) s = .next t ∧
    SingleShotWith 0xE1 1 s t ∧ infAt t.pending 0 = infAt s.rxf 0 ∧ t.ifs = infAt s.rxf 0 ∧
    t = { s with slot0 := t.slot0, slot1 := t.slot1, ifs := t.ifs, txsel := t.txsel, phase := t.phase }

/-- I(a,m) → S(WTX,REQUEST) (R214; any m is the spec's decision D21): the response echoes the multiplier with LEN 1 and is sent
once, WAIT_MULT takes it unchecked; no sequence bit, cursor or counter changes. -/
def Obligations.WtxRequestIsEchoed : Prop :=
  ∀ (s : State) (a m : Bit), ∃ t, exec (.iToWtxReq a m) s = .next t ∧
    SingleShotWith 0xE3 1 s t ∧ infAt t.pending 0 = infAt s.rxf 0 ∧ t.waitMult = infAt s.rxf 0 ∧
    t = { s with slot0 := t.slot0, slot1 := t.slot1, waitMult := t.waitMult, txsel := t.txsel, phase := t.phase }

/-- I(a,1) or R(n,e) → S(ABORT,REQUEST): an abort request with LEN 0 becomes the last-sent frame (R227; the spec's decisions D25 and
D12). -/
def Obligations.AbortRequestIsAnsweredByAbortRequest : Prop :=
  ∀ (s : State) (i : Instr), abortRequestRow i = true → ∃ t, exec i s = .next t ∧ ContinuedWith 0xC2 s t ∧
    t = { s with
      slot0 := t.slot0, slot1 := t.slot1, active := t.active, txsel := t.txsel, errors := t.errors,
      retransmits := t.retransmits, phase := t.phase }

/-- I(a,0) or R(n,e) → I(b,0) (R211, R217): the payload is delivered as far as room allows and the command completes with the
number of bytes delivered. The premise on the cursors is the invariant of R46. -/
def Obligations.LastBlockIsDeliveredAndCompletes : Prop :=
  (∀ a b : Bit, decodeBytes [iPcb b 0, iPcb a 0] = .ok (.iToILast a b)) ∧
  (∀ (n : Bit) (e : ErrCode) (b : Bit), decodeBytes [iPcb b 0, rPcb n e] = .ok (.rToILast n e b)) ∧
  ∀ (s : State) (i : Instr), lastBlockRow i = true → s.kind s.rxf.pcb = .i →
    s.rxPtr + s.rxRem = s.rxCap0 →
    ∃ t, exec i s = .next t ∧ Delivered s t ∧ t.phase = .done ∧ t.resultKind = .complete ∧
      t.resultCount = s.rxCap0 - t.rxRem ∧ t.resultCount = t.rxPtr ∧
      t = { s with
        rxbuf := t.rxbuf, rxPtr := t.rxPtr, rxRem := t.rxRem, phase := t.phase, resultKind := t.resultKind,
        resultCount := t.resultCount }

/-- I(a,0) or R(n,e) → I(b,1) (R212, R218): the payload is delivered and R(NOT b, 0) with LEN 0 becomes the last-sent frame (the
N(R) is the spec's decision D22). -/
def Obligations.MoreBlockIsDeliveredAndAcknowledged : Prop :=
  ∀ (s : State) (i : Instr) (b : Bit), moreBlockRow i = some b → s.kind s.rxf.pcb = .i →
    s.rxPtr + s.rxRem = s.rxCap0 →
    ∃ t, exec i s = .next t ∧ Delivered s t ∧ ContinuedWith (rPcb (~~~b) 0) s t ∧
      t = { s with
        rxbuf := t.rxbuf, rxPtr := t.rxPtr, rxRem := t.rxRem, slot0 := t.slot0, slot1 := t.slot1, active := t.active,
        txsel := t.txsel, errors := t.errors, retransmits := t.retransmits, phase := t.phase }

/-- I(a,1) → R(NOT a, 0) (R220, R163, R164; the pair is the spec's decision D23): the next chunk of TXBUF is filled into the pending
slot as I(NOT a, M) with M telling whether bytes remain, the cursor advances over it, and it becomes the last-sent frame. The
premises are the cursor invariant of R45 and that the bytes of the chunk are written. -/
def Obligations.NextChunkIsFilledAndSent : Prop :=
  ∀ (s : State) (i : Instr) (ns : Bit), nextChunkRow i = some ns →
    s.txPtr + s.txRem = s.txLen0 →
    (∀ k, k < nextSize s → (s.txbuf.read (s.txPtr + k)).isSome = true) →
    ∃ t, exec i s = .next t ∧
      t.current.pcb = iPcb ns (if nextSize s < s.txRem then 1 else 0) ∧
      t.current.len.toNat = nextSize s ∧
      (∀ k, k < nextSize s → s.txbuf.read (s.txPtr + k) = some (infAt t.current k)) ∧
      t.txPtr = s.txPtr + nextSize s ∧ t.txRem = s.txRem - nextSize s ∧
      t.pending = s.current ∧ t.active = ~~~s.active ∧ t.txsel = ~~~s.active ∧ t.errors = 0 ∧ t.retransmits = 0 ∧
      t.phase = .sending ∧
      t = { s with
        slot0 := t.slot0, slot1 := t.slot1, txPtr := t.txPtr, txRem := t.txRem, active := t.active, txsel := t.txsel,
        errors := t.errors, retransmits := t.retransmits, phase := t.phase }

/-- An R-block that asks for the I-block again (R221, R222, the spec's decision D23), below the bound: the current slot is sent
again as it is, RETRANSMITS goes up by one, and nothing else changes, ERRORS and the cursors included (R264). -/
def Obligations.RetransmitResendsTheCurrentSlot : Prop :=
  ∀ (s : State) (i : Instr), askedAgainRow i = true → s.retransmits < s.cfg.retransmitLimit →
    exec i s = .next { s with retransmits := s.retransmits + 1, txsel := s.active, phase := .sending }

/-- A resync request (R228) or an R-block (R229) that draws no valid answer, below the bound: the current slot is sent again as it
is, RETRANSMITS goes up by one, and nothing else changes. -/
def Obligations.UnansweredBlocksAreRetransmitted : Prop :=
  decodeBytes [0xFF, 0xC0] = .ok .resyncReqToInvalid ∧
  (∀ (n : Bit) (e : ErrCode), decodeBytes [0xFF, rPcb n e] = .ok (.rToInvalid n e)) ∧
  ∀ (s : State) (i : Instr), unansweredRow i = true → s.retransmits < s.cfg.retransmitLimit →
    exec i s = .next { s with retransmits := s.retransmits + 1, txsel := s.active, phase := .sending }

/-- The rows of both kinds at the bound (R264): a frame other than the resync request is replaced by the resync request; the resync
request itself ends the command with DeviceResetFailure and no transport call (the reading is the spec's decision D27). -/
def Obligations.RetransmitBoundEscalates : Prop :=
  ∀ (s : State) (i : Instr), askedAgainRow i = true ∨ unansweredRow i = true → s.cfg.retransmitLimit ≤ s.retransmits →
    (s.current.pcb ≠ 0xC0 → ∃ t, exec i s = .next t ∧ ContinuedWith 0xC0 s t ∧
      t = { s with
        slot0 := t.slot0, slot1 := t.slot1, active := t.active, txsel := t.txsel, errors := t.errors,
        retransmits := t.retransmits, phase := t.phase }) ∧
    (s.current.pcb = 0xC0 → ∃ t, exec i s = .next t ∧ FailedWith .deviceResetFailure s t)

/-- The rows answered by an error R-block (R223, whose pairs are the spec's decision D23; R231, whose sent bytes are D20; the N(R)
is D26): R(NOT SEQ_CARD, R_ERR) with LEN 0 is sent once and the last-sent frame stays; no counter changes. -/
def Obligations.ErrorRBlockIsSentOnce : Prop :=
  ∀ (s : State) (i : Instr), errorRRow i = true → ∃ t, exec i s = .next t ∧
    SingleShotWith (rPcb (~~~s.seqCard) s.rErr) 0 s t ∧
    t = { s with slot0 := t.slot0, slot1 := t.slot1, txsel := t.txsel, phase := t.phase }

/-- S(ABORT,REQUEST) → S(ABORT,RESPONSE) (R225): the command completes with what had been delivered before; nothing else is
written. -/
def Obligations.AbortResponseCompletes : Prop :=
  decodeBytes [0xE2, 0xC2] = .ok .abortReqToAbortResp ∧
  ∀ s : State, exec .abortReqToAbortResp s =
    .next { s with phase := .done, resultKind := .complete, resultCount := s.rxCap0 - s.rxRem }

/-- S(IFS,REQUEST) → S(IFS,RESPONSE) (R216): the command completes, and IFS is not written (the spec's decision D24). -/
def Obligations.IfsResponseCompletes : Prop :=
  decodeBytes [0xE1, 0xC1] = .ok .ifsReqToIfsResp ∧
  ∀ s : State, exec .ifsReqToIfsResp s =
    .next { s with phase := .done, resultKind := .complete, resultCount := s.rxCap0 - s.rxRem }

/-- S(ABORT,RESPONSE) → R(n,0): the command ends Failed with the kind Abort (R226, R268; the pair is the spec's decision D25). -/
def Obligations.AbortResponseThenAckAborts : Prop :=
  ∀ (s : State) (n : Bit), ∃ t, exec (.abortRespToR0 n) s = .next t ∧ FailedWith .abort s t

/-- S(RESYNC,REQUEST) → S(RESYNC,RESPONSE): a new session starts (R224, R270; SEQ_INIT is the spec's decision D2). -/
def Obligations.ResyncResponseRestartsTheSession : Prop :=
  ∀ s : State, FirstChunkWritten s.cfg s.txLen0 s.txbuf →
    ∃ t, exec .resyncReqToResyncResp s = .next t ∧ SessionRestarted s t

/-- Where the model stops, each place its own reading of the spec. A LEN of 255 (R92, log 11): a defined or a reserved received
block, and the slot Sending selects. A delivery that leaves the buffer's capacity, at its start or in its middle: the first
offset outside is named (R69, log 10). A chunk with a byte of TXBUF nothing has written: the first such byte of the chunk is
named (R340, U1, log 9), for the next chunk and for the initial I-block of a session, after a resync response, after a device
reset that follows any refused block (a defined one's meaning, and a step of every received block), and after TRANSCEIVE. A
chunk that leaves TXBUF: the first offset outside is named (R60, log 10). -/
def Obligations.WhereAMeaningStops : Prop :=
  (∀ (s : State) (i : Instr), (encodeBlock i).isSome = true → i ≠ .invalid → s.rxf.len = 0xFF →
    exec i s = .fault .lenInvalid) ∧
  (∀ s : State, s.nextEvent = none → s.phase = .evaluating → s.stage = .precheck →
    decodeBlock (s.rowByte s.rxf.pcb) = none → s.rxf.len = 0xFF → step s = .fault .lenInvalid) ∧
  (∀ s : State, s.nextEvent = none → s.phase = .sending → (s.slot s.txsel).len = 0xFF → step s = .fault .lenInvalid) ∧
  (∀ (s : State) (i : Instr), lastBlockRow i = true ∨ (moreBlockRow i).isSome = true → s.kind s.rxf.pcb = .i →
    0 < min s.rxf.len.toNat s.rxRem → s.rxCap0 < s.rxPtr + min s.rxf.len.toNat s.rxRem →
    exec i s = .fault (.rxOutOfRange (max s.rxPtr s.rxCap0))) ∧
  (∀ (s : State) (i : Instr) (k : Nat), (nextChunkRow i).isSome = true → FirstUnwritten s.txbuf s.txPtr (nextSize s) k →
    s.txPtr + k < s.txLen0 → exec i s = .fault (.txUnwritten (s.txPtr + k))) ∧
  (∀ (s : State) (i : Instr), (nextChunkRow i).isSome = true → 0 < nextSize s → s.txLen0 < s.txPtr + nextSize s →
    (∀ a, s.txPtr ≤ a → a < s.txLen0 → (s.txbuf.read a).isSome = true) →
    exec i s = .fault (.txOutOfRange (max s.txPtr s.txLen0))) ∧
  (∀ (s : State) (k : Nat), FirstUnwritten s.txbuf 0 (firstChunk s.cfg s.txLen0) k →
    exec .resyncReqToResyncResp s = .fault (.txUnwritten k)) ∧
  (∀ (s u : State) (i : Instr) (c : ErrCode) (rest : List ResetAnswer) (k : Nat), RefusedReception i c s u →
    ResetEscalation s → s.resetDone = false → s.opt.hasReset = true → s.resets = .ok :: rest →
    FirstUnwritten s.txbuf 0 (firstChunk s.cfg s.txLen0) k → exec i s = .fault (.txUnwritten k)) ∧
  (∀ (s : State) (rest : List ResetAnswer) (k : Nat), s.nextEvent = none → s.phase = .evaluating → s.stage = .precheck →
    (s.rxf.len ≠ 0xFF ∨ s.rxf.pcb = s.cfg.pcbInvalid) → (precheck s.takeEvent).1 ≠ 0 →
    ResetEscalation s → s.resetDone = false → s.opt.hasReset = true → s.resets = .ok :: rest →
    FirstUnwritten s.txbuf 0 (firstChunk s.cfg s.txLen0) k → step s = .fault (.txUnwritten k)) ∧
  (∀ (s : State) (txLen rxCap k : Nat), s.nextEvent = some (.transceive txLen rxCap) → s.busy = false →
    s.optWritten = { hostAddr := true, nodeAddr := true, bwtBase := true, hook := true, hasReset := true } →
    FirstUnwritten s.txbuf 0 (firstChunk s.cfg (s.cfg.clip txLen)) k → step s = .fault (.txUnwritten k))

/-- A pair no row matches (R196, R198): while a re-entry is left and the received byte is not the sentinel, RXF.PCB is forced to the
sentinel and the loop runs again; otherwise the command ends in HardFail (the domain of the rows is the spec's decision D20). -/
def Obligations.UnrecognisedPairIsForcedThenHardFails : Prop :=
  ∀ s : State, s.nextEvent = none → s.phase = .evaluating → s.stage = .lookup →
    decodePair s.current.pcb (if s.rErr ≠ 0 then 0xFF else s.rowByte s.rxf.pcb) = none →
    (s.rErr = 0 → s.rxf.pcb ≠ s.cfg.pcbInvalid → s.pass.toNat < s.cfg.reevalLimit →
      step s = .next { s with
        rxf := { s.rxf with pcb := s.cfg.pcbInvalid }, pass := true, stage := .precheck, host := s.host.tail }) ∧
    (s.rErr ≠ 0 ∨ s.rxf.pcb = s.cfg.pcbInvalid ∨ s.cfg.reevalLimit ≤ s.pass.toNat →
      ∃ t, step s = .next t ∧ FailedWith .hardFail { s with host := s.host.tail } t)

/-- One error at most per evaluation (R197): a table lookup never raises ERRORS, and it runs the loop again only while a re-entry is
left and when the pre-check had passed; what the loop then judges is the sentinel (R196). -/
def Obligations.LookupNeverCountsAnError : Prop :=
  ∀ s t : State, s.nextEvent = none → s.phase = .evaluating → s.stage = .lookup → step s = .next t →
    t.errors ≤ s.errors ∧
    (t.phase = .evaluating →
      s.rErr = 0 ∧ s.rxf.pcb ≠ s.cfg.pcbInvalid ∧ s.pass.toNat < s.cfg.reevalLimit ∧ t.pass = true ∧ t.stage = .precheck ∧
        t.rxf.pcb = s.cfg.pcbInvalid ∧ t.errors = s.errors)

/-! ## Sending and receiving -/

/-- Sending, with a hook or without one (R254): `encode(TXSEL)` runs, then TXSEL goes back to ACTIVE and PHASE to Receiving; exactly
one frame is transmitted. -/
def Obligations.SendingIsOneTransmission : Prop :=
  ∀ s : State, s.nextEvent = none → s.phase = .sending → (s.slot s.txsel).len ≠ 0xFF →
    ∃ (t u : State) (bytes : List Byte), encodeSlot s.txsel s = .ok u ∧ step s = .next t ∧
      t = { u with txsel := s.active, phase := .receiving, host := s.host.tail } ∧ t.calls = .transmit bytes :: s.calls

/-- Sending without a hook (R254, R135): NAD is stamped with NODE_ADDR, the XOR of header and payload is put at INF[LEN], exactly
these 4 + LEN bytes are handed to the transport, TXSEL goes back to ACTIVE and PHASE to Receiving; the other slot and every other
register are untouched. -/
def Obligations.SendingTransmitsTheSelectedFrame : Prop :=
  ∀ s : State, s.nextEvent = none → s.phase = .sending → s.opt.hook = none → (s.slot s.txsel).len ≠ 0xFF →
    ∃ t, step s = .next t ∧
      t.calls = .transmit (s.opt.nodeAddr :: (s.slot s.txsel).pcb :: (s.slot s.txsel).len :: (infBytes (s.slot s.txsel) ++
        [xorFold (s.opt.nodeAddr ^^^ (s.slot s.txsel).pcb ^^^ (s.slot s.txsel).len) (infBytes (s.slot s.txsel))])) :: s.calls ∧
      (t.slot s.txsel).pcb = (s.slot s.txsel).pcb ∧ (t.slot s.txsel).len = (s.slot s.txsel).len ∧
      (t.slot s.txsel).nad = s.opt.nodeAddr ∧
      infAt (t.slot s.txsel) (s.slot s.txsel).len.toNat =
        xorFold (s.opt.nodeAddr ^^^ (s.slot s.txsel).pcb ^^^ (s.slot s.txsel).len) (infBytes (s.slot s.txsel)) ∧
      (∀ j, j ≠ (s.slot s.txsel).len.toNat → infAt (t.slot s.txsel) j = infAt (s.slot s.txsel) j) ∧
      t.slot (~~~s.txsel) = s.slot (~~~s.txsel) ∧ t.txsel = s.active ∧ t.phase = .receiving ∧
      t = { s with
        slot0 := t.slot0, slot1 := t.slot1, txsel := t.txsel, phase := t.phase, calls := t.calls, host := s.host.tail }

/-- The checksum test is that the XOR of all 4 + LEN bytes of the frame is zero (R131). -/
def Obligations.ChecksumTestIsXorZero : Prop :=
  ∀ f : Frame, f.len ≠ 0xFF → (lrcOk f = true ↔ xorFold 0 (wireBytes f) = 0)

/-- Every frame the engine transmits without a hook has XOR zero over all its bytes (R131, R132 (a)). -/
def Obligations.TransmittedFrameXorsToZero : Prop :=
  ∀ (s t : State) (i : Bit), s.opt.hook = none → encodeSlot i s = .ok t →
    ∃ bytes, t.calls = .transmit bytes :: s.calls ∧ bytes.length = 4 + (s.slot i).len.toNat ∧ xorFold 0 bytes = 0

/-- Without a hook a retransmission of an unchanged slot is byte-identical (R83, R135). -/
def Obligations.RetransmissionIsByteIdentical : Prop :=
  ∀ (s t u : State) (i : Bit), s.opt.hook = none → encodeSlot i s = .ok t → encodeSlot i t = .ok u →
    u.calls.head? = t.calls.head? ∧ u.slot i = t.slot i

/-- Changing one byte of a valid frame other than LEN is detected (R132 (b)): the node address, the control byte, a payload byte
or the checksum byte, by any non-zero difference. -/
def Obligations.OneDamagedByteIsDetected : Prop :=
  ∀ (f : Frame) (d : Byte), f.len ≠ 0xFF → lrcOk f = true → d ≠ 0 →
    lrcOk { f with nad := f.nad ^^^ d } = false ∧ lrcOk { f with pcb := f.pcb ^^^ d } = false ∧
    ∀ j, j ≤ f.len.toNat → lrcOk { f with inf := setInf f.inf j (infAt f j ^^^ d) } = false

/-- Whatever the transport answers, Receiving reaches Evaluating (R31, R255): the poll is given the deadline BWT_BASE * WAIT_MULT,
the multiplier is 1 afterwards, the read window is closed, and no slot, cursor, counter or sequence bit is touched (R140). -/
def Obligations.ReceivingConsumesTheMultiplier : Prop :=
  ∀ s : State, s.nextEvent = none → s.phase = .receiving → s.window = false →
    ∃ t, step s = .next t ∧ t.phase = .evaluating ∧ t.stage = .precheck ∧ t.pass = false ∧ t.waitMult = 1 ∧
      (∃ cs, t.calls = cs ++ .poll s.opt.hostAddr (s.opt.bwtBase * s.waitMult.toNat) :: s.calls) ∧
      t = { s with
        rxf := t.rxf, phase := t.phase, stage := t.stage, pass := t.pass, waitMult := t.waitMult, polls := t.polls,
        receives := t.receives, draws := t.draws, calls := t.calls, host := s.host.tail }

/-- A poll answered by error (R141, R256): RXF keeps every byte but its PCB, which is the sentinel, and no read window is opened. -/
def Obligations.SilenceBecomesTheSentinel : Prop :=
  ∀ (s : State) (ps : List PollAnswer), s.nextEvent = none → s.phase = .receiving → s.polls = .error :: ps →
    step s = .next { s with
      rxf := { s.rxf with pcb := s.cfg.pcbInvalid }, phase := .evaluating, stage := .precheck, pass := false, waitMult := 1, polls := ps,
      calls := .poll s.opt.hostAddr (s.opt.bwtBase * s.waitMult.toNat) :: s.calls, host := s.host.tail }

/-- A frame that arrives (R140 to R143, no hook): after a poll result 1 the NAD is HOST_ADDR and two header bytes are read, after
0 all three; then LEN + 1 bytes in one closing call; the header, the payload and the checksum stand in RXF and the bytes beyond
them are kept. -/
def Obligations.ArrivingFrameIsReceived : Prop :=
  ∀ (s : State) (one : Bool) (nad pcb len : Byte) (body : List Byte) (ps : List PollAnswer) (rs : List (List Byte)),
    s.nextEvent = none → s.phase = .receiving → s.opt.hook = none → s.cfg.lenBad len = false → body.length = len.toNat + 1 →
    s.polls = (if one then .one else .zero) :: ps →
    s.receives = (if one then [pcb, len] else [nad, pcb, len]) :: body :: rs →
    ∃ t, step s = .next t ∧
      t.rxf.nad = (if one then s.opt.hostAddr else nad) ∧ t.rxf.pcb = pcb ∧ t.rxf.len = len ∧
      infBytes t.rxf = body.take len.toNat ∧ body[len.toNat]? = some (infAt t.rxf len.toNat) ∧
      (∀ j, len.toNat < j → infAt t.rxf j = infAt s.rxf j) ∧
      t.phase = .evaluating ∧ t.stage = .precheck ∧ t.pass = false ∧
      t = { s with
        rxf := t.rxf, phase := t.phase, stage := t.stage, pass := t.pass, waitMult := 1, polls := ps, receives := rs,
        window := false, host := s.host.tail,
        calls := .receive (len.toNat + 1) s.cfg.rt true :: .receive (if one then 2 else 3) s.cfg.rt false ::
          .poll s.opt.hostAddr (s.opt.bwtBase * s.waitMult.toNat) :: s.calls }

/-- A header with an invalid LEN (R142, R256): LEN_INVALID, or more than INF_MAX, which is the same LEN 255 at the spec's values
(log 14). The window is closed with a call of 0 bytes, no body is read, INF is untouched, and the sentinel
stands in RXF. -/
def Obligations.LengthInvalidBecomesTheSentinel : Prop :=
  ∀ (s : State) (one : Bool) (nad pcb len : Byte) (ps : List PollAnswer) (rs : List (List Byte)),
    s.nextEvent = none → s.phase = .receiving → s.cfg.lenBad len = true →
    s.polls = (if one then .one else .zero) :: ps →
    s.receives = (if one then [pcb, len] else [nad, pcb, len]) :: rs →
    ∃ t, step s = .next t ∧ t.rxf.pcb = s.cfg.pcbInvalid ∧ t.rxf.inf = s.rxf.inf ∧ t.phase = .evaluating ∧ t.stage = .precheck ∧
      t.pass = false ∧
      t = { s with
        rxf := t.rxf, phase := t.phase, stage := t.stage, pass := t.pass, waitMult := 1, polls := ps, receives := rs,
        window := false, host := s.host.tail,
        calls := .receive 0 s.cfg.rt true :: .receive (if one then 2 else 3) s.cfg.rt false ::
          .poll s.opt.hostAddr (s.opt.bwtBase * s.waitMult.toNat) :: s.calls }

/-- A hook runs in place (R135, R137, R144; the spec's decision D15, and the hook itself is uninterpreted, log 8): before a
transmission on the sealed slot, whose bytes go out as the hook left them; after a reception on the whole frame, before the
pre-check, the NAD being HOST_ADDR after a poll result 1 and the received byte after 0 (R141). Its LEN is at most 254. Nothing but
what encode, decode and the hook write is changed. -/
def Obligations.HookRunsInPlace : Prop :=
  (∀ (s : State) (h : Nat), s.nextEvent = none → s.phase = .sending → s.opt.hook = some h →
    (s.slot s.txsel).len ≠ 0xFF → ∃ t, step s = .next t ∧
      t.slot s.txsel = hookedFrame (Config.hook h .transmit (sealed s.opt.nodeAddr (s.slot s.txsel))) ∧
      (t.slot s.txsel).len ≠ 0xFF ∧ t.calls = .transmit (wireBytes (t.slot s.txsel)) :: s.calls ∧
      t.slot (~~~s.txsel) = s.slot (~~~s.txsel) ∧
      t = { s with
        slot0 := t.slot0, slot1 := t.slot1, txsel := s.active, phase := .receiving, calls := t.calls, host := s.host.tail }) ∧
  (∀ (s : State) (h : Nat) (one : Bool) (nad pcb len : Byte) (body : List Byte) (ps : List PollAnswer) (rs : List (List Byte)),
    s.nextEvent = none → s.phase = .receiving → s.opt.hook = some h → s.cfg.lenBad len = false → body.length = len.toNat + 1 →
    s.polls = (if one then .one else .zero) :: ps →
    s.receives = (if one then [pcb, len] else [nad, pcb, len]) :: body :: rs →
    ∃ t, step s = .next t ∧
      t.rxf = hookedFrame (Config.hook h .receive
        { nad := if one then s.opt.hostAddr else nad, pcb := pcb, len := len, inf := putInf s.rxf.inf body }) ∧
      t.rxf.len ≠ 0xFF ∧ t.phase = .evaluating ∧ t.stage = .precheck ∧ t.pass = false ∧
      t = { s with
        rxf := t.rxf, phase := t.phase, stage := t.stage, pass := t.pass, waitMult := 1, polls := ps, receives := rs,
        window := false, host := s.host.tail,
        calls := .receive (len.toNat + 1) s.cfg.rt true :: .receive (if one then 2 else 3) s.cfg.rt false ::
          .poll s.opt.hostAddr (s.opt.bwtBase * s.waitMult.toNat) :: s.calls })

/-! ## The host -/

/-- TRANSCEIVE outside a command with every option written (R251, R252): the options are sampled, the two lengths are latched as
CURSOR_WIDTH-bit numbers (log 14), the per-command
registers take their initial values, slot 0 is current and holds I(NOT SEQ_IF, M) filled from offset 0; the sequence bits are not
touched and no transport call is made. That the registers without a call-initial value are kept is the model's choice (log 29). The
premise on TXBUF is R340's; that it is the machine's one TXBUF is the model's choice too (log 30). -/
def Obligations.TransceiveStartsACommand : Prop :=
  ∀ (s : State) (txLen rxCap : Nat), s.nextEvent = some (.transceive txLen rxCap) → s.busy = false →
    s.optWritten = { hostAddr := true, nodeAddr := true, bwtBase := true, hook := true, hasReset := true } →
    FirstChunkWritten s.cfg (s.cfg.clip txLen) s.txbuf →
    ∃ t, step s = .next t ∧ t.txLen0 = s.cfg.clip txLen ∧ t.rxCap0 = s.cfg.clip rxCap ∧ t.opt = s.hostOpt ∧ t.active = 0 ∧
      t.resetDone = false ∧
      SnapshotRestored t ∧ InitialBlock s.seqIf t ∧ t.slot 1 = s.slot 1 ∧
      t = { s with
        txLen0 := t.txLen0, rxCap0 := t.rxCap0, opt := t.opt, active := t.active, resetDone := t.resetDone, ifs := t.ifs,
        waitMult := t.waitMult, errors := t.errors, retransmits := t.retransmits, txPtr := t.txPtr, txRem := t.txRem,
        rxPtr := t.rxPtr, rxRem := t.rxRem, lastErr := t.lastErr, slot0 := t.slot0, txsel := t.txsel, phase := t.phase,
        host := s.host.tail }

/-- While a command runs every event of the host is refused under its own name: TRANSCEIVE (R250, U9), hardware reset (R333, U8, the
spec's decision D29), option writes (R11) and buffer writes (R67); a TRANSCEIVE with an option unwritten is refused too (R340,
U2). -/
def Obligations.HostEventsRefusedOutOfPlace : Prop :=
  (∀ (s : State) (a b : Nat), s.busy = true → s.nextEvent = some (.transceive a b) →
    step s = .refused .commandWhileBusy) ∧
  (∀ s : State, s.busy = true → s.nextEvent = some .hardwareReset → step s = .refused .resetWhileBusy) ∧
  (∀ (s : State) (e : HostEvent), s.busy = true → s.nextEvent = some e →
    (match e with
      | .writeHostAddr _ | .writeNodeAddr _ | .writeBwtBase _ | .writeHook _ | .writeHasReset _ => True
      | _ => False) → step s = .refused .optionWriteWhileBusy) ∧
  (∀ (s : State) (e : HostEvent), s.busy = true → s.nextEvent = some e →
    (match e with
      | .writeTx _ _ | .writeRx _ _ => True
      | _ => False) → step s = .refused .bufferWriteWhileBusy) ∧
  (∀ (s : State) (a b : Nat), s.busy = false → s.nextEvent = some (.transceive a b) →
    s.optWritten ≠ { hostAddr := true, nodeAddr := true, bwtBase := true, hook := true, hasReset := true } →
    step s = .refused .optionsUnwritten)

/-- Hardware reset outside a command (R330; SEQ_INIT is the spec's decision D2): PHASE is Idle, both sequence bits are SEQ_INIT,
every option register counts as unwritten (R340), and no transport call is made; the buffers are not touched. -/
def Obligations.HardwareResetReinitialises : Prop :=
  ∀ s : State, s.nextEvent = some .hardwareReset → s.busy = false →
    ∃ t, step s = .next t ∧ t.phase = .idle ∧ t.seqIf = s.cfg.seqInit ∧ t.seqCard = s.cfg.seqInit ∧
      t.optWritten = { hostAddr := false, nodeAddr := false, bwtBase := false, hook := false, hasReset := false } ∧
      t.calls = s.calls ∧ t.txbuf = s.txbuf ∧ t.rxbuf = s.rxbuf ∧ t.cfg = s.cfg

/-- The state after reset (R54, R330): PHASE is Idle and the sequence bits are SEQ_INIT, which is 1 (the spec's decision D2). -/
def Obligations.ResetStateIsIdle : Prop :=
  State.reset.phase = .idle ∧ State.reset.seqIf = State.reset.cfg.seqInit ∧ State.reset.seqCard = State.reset.cfg.seqInit ∧
  State.reset.cfg.seqInit = 1

/-- Outside a command the host's write of one buffer byte changes that byte and no other, in either buffer, and one option
register and its mark change by an option write (R340, R341). -/
def Obligations.HostWritesOnePlace : Prop :=
  (∀ (s : State) (a : Nat) (b : Byte), s.busy = false → s.nextEvent = some (.writeTx a b) →
    ∃ t, step s = .next t ∧ (∀ c, t.txbuf.read c = if c = s.cfg.clip a then some b else s.txbuf.read c) ∧
      t = { s with txbuf := t.txbuf, host := s.host.tail }) ∧
  (∀ (s : State) (a : Nat) (b : Byte), s.busy = false → s.nextEvent = some (.writeRx a b) →
    ∃ t, step s = .next t ∧ (∀ c, t.rxbuf.read c = if c = s.cfg.clip a then some b else s.rxbuf.read c) ∧
      t = { s with rxbuf := t.rxbuf, host := s.host.tail }) ∧
  (∀ (s : State) (b : Byte), s.busy = false → s.nextEvent = some (.writeHostAddr b) →
    step s = .next { s with
      hostOpt := { s.hostOpt with hostAddr := b }, optWritten := { s.optWritten with hostAddr := true }, host := s.host.tail }) ∧
  (∀ (s : State) (b : Byte), s.busy = false → s.nextEvent = some (.writeNodeAddr b) →
    step s = .next { s with
      hostOpt := { s.hostOpt with nodeAddr := b }, optWritten := { s.optWritten with nodeAddr := true }, host := s.host.tail }) ∧
  (∀ (s : State) (n : Nat), s.busy = false → s.nextEvent = some (.writeBwtBase n) →
    step s = .next { s with
      hostOpt := { s.hostOpt with bwtBase := n }, optWritten := { s.optWritten with bwtBase := true }, host := s.host.tail }) ∧
  (∀ (s : State) (h : Option Nat), s.busy = false → s.nextEvent = some (.writeHook h) →
    step s = .next { s with
      hostOpt := { s.hostOpt with hook := h }, optWritten := { s.optWritten with hook := true }, host := s.host.tail }) ∧
  (∀ (s : State) (b : Bool), s.busy = false → s.nextEvent = some (.writeHasReset b) →
    step s = .next { s with
      hostOpt := { s.hostOpt with hasReset := b }, optWritten := { s.optWritten with hasReset := true }, host := s.host.tail })

/-! ## Rules about the whole machine -/

/-- The invariant of the engine holds after reset (R54). -/
def Obligations.ResetMeetsTheEngineInvariant : Prop := EngineInv State.reset

/-- Every step keeps the invariant of the engine, host events included: the buffers stay canonical, the cursors keep their sums
(R45, R46) and their CURSOR_WIDTH bits (R48, log 14), no slot has LEN 255 (R92), R_ERR is never 3 (R35), ERRORS and RETRANSMITS stay
in range (R43, R44), the read window is closed (R73), the second pass judges the sentinel (R196). -/
def Obligations.StepKeepsTheEngineInvariant : Prop :=
  ∀ s t : State, EngineInv s → step s = .next t → EngineInv t

/-- Every step keeps the last-sent control byte among the eight values of R234 while a command runs without a hook; so, where the
rule loop is re-entered at all (REEVAL_LIMIT is 1, R10), a failure such a command ends in is DeviceResetFailure, never HardFail or
Abort (R198, R268: the spec infers both from its decisions D20 and D25). -/
def Obligations.LastSentByteStaysLegal : Prop :=
  (∀ s t : State, LastSentInv s → step s = .next t → LastSentInv t) ∧
  (∀ s t : State, EngineInv s → LastSentInv s → s.opt.hook = none → 1 ≤ s.cfg.reevalLimit → s.busy = true →
    step s = .next t → t.phase = .failed → t.resultKind = .deviceResetFailure)

/-- The engine never stops in a command whose send buffer is written: from every state of the invariant, a step without a host
event has a next state, whatever was received (R195). -/
def Obligations.EngineStepAlwaysCompletes : Prop :=
  ∀ s : State, EngineInv s → s.nextEvent = none → TxReady s → ∃ t, step s = .next t

/-- What the engine itself never writes (R21, R40, R69, R11): the configuration, the options as written and as sampled, the two
latched lengths, TXBUF, and every byte of RXBUF at or beyond RX_CAP0. -/
def Obligations.EngineNeverWritesTheHostsState : Prop :=
  ∀ s t : State, s.nextEvent = none → step s = .next t →
    t.cfg = s.cfg ∧ t.hostOpt = s.hostOpt ∧ t.optWritten = s.optWritten ∧ t.opt = s.opt ∧ t.txLen0 = s.txLen0 ∧
    t.rxCap0 = s.rxCap0 ∧ t.txbuf = s.txbuf ∧ ∀ a, s.rxCap0 ≤ a → t.rxbuf.read a = s.rxbuf.read a

/-- Who writes the sequence bits (R32): without a host event SEQ_IF and SEQ_CARD change only in a pre-check of a checksum-valid
reception, to the N(S) of the last-sent and of the received I-block, or with a session reset, to SEQ_INIT: then the snapshot is
restored and the initial I-block is rebuilt (R270). -/
def Obligations.SequenceBitsHaveTwoWriters : Prop :=
  ∀ s t : State, s.nextEvent = none → step s = .next t →
    (t.seqIf ≠ s.seqIf → s.phase = .evaluating ∧
      (t.seqIf = s.cfg.seqInit ∧ SnapshotRestored t ∧ InitialBlock s.cfg.seqInit t ∨
        s.stage = .precheck ∧ lrcOk s.rxf = true ∧ s.kind s.current.pcb = .i ∧ t.seqIf = nsOf s.current.pcb)) ∧
    (t.seqCard ≠ s.seqCard → s.phase = .evaluating ∧
      (t.seqCard = s.cfg.seqInit ∧ SnapshotRestored t ∧ InitialBlock s.cfg.seqInit t ∨
        s.stage = .precheck ∧ lrcOk s.rxf = true ∧ s.kind s.rxf.pcb = .i ∧ t.seqCard = nsOf s.rxf.pcb))

/-- RESET_DONE (R34): a step without a host event calls `T.reset` at most once, only when the flag is 0, and sets it then; no step
of the command clears it; a command start does. -/
def Obligations.DeviceResetAtMostOnce : Prop :=
  (∀ s t : State, s.nextEvent = none → step s = .next t →
    (resetCalls t.calls = resetCalls s.calls ∧ t.resetDone = s.resetDone) ∨
    (resetCalls t.calls = resetCalls s.calls + 1 ∧ s.resetDone = false ∧ t.resetDone = true ∧ s.opt.hasReset = true)) ∧
  (∀ (s t : State) (a b : Nat), s.nextEvent = some (.transceive a b) → step s = .next t → t.resetDone = false)

/-- The M flag of a chunk is computed (R164): whatever bit 5 the caller wrote, it is set exactly when bytes remain after the cursor
has advanced, and the other bits of the control byte are kept. -/
def Obligations.MoreFlagIsComputed : Prop :=
  ∀ (i : Bit) (s t : State) (n : Byte), s.kind (s.slot i).pcb = .i → fillOutbound i s = .ok (n, t) →
    (mOf (t.slot i).pcb = 1 ↔ t.txRem ≠ 0) ∧ (t.slot i).pcb &&& 0xDF = (s.slot i).pcb &&& 0xDF

/-- Chunks (R166, R165): filling until nothing remains cuts the message of N bytes into consecutive chunks that together are the
message, every byte once (the cap of a chunk is the spec's decision D16): ceil(N / min(IFS, INF_MAX)) of them for N > 0, and one
empty chunk for N = 0. The slot holds an I-block, whichever M flag it is given. -/
def Obligations.ChunksAreTheMessage : Prop :=
  ∀ (s : State) (msg : List Byte), (∀ m, s.kind (withM s.slot0.pcb m) = .i) → s.ifs ≠ 0 → s.txPtr = 0 →
    s.txRem = s.txLen0 → s.txLen0 = msg.length → (∀ k, k < msg.length → s.txbuf.read k = msg[k]?) →
    ∃ cs, sendChunks (msg.length + 1) s = .ok cs ∧ cs.flatten = msg ∧
      cs.length = max 1 ((msg.length + min s.ifs.toNat s.cfg.infMax - 1) / min s.ifs.toNat s.cfg.infMax)

/-- Termination under silence (R272, the spec's inference): from the start of a command whose every poll fails, exactly 8 frames are
transmitted, T.reset is never called, and the command ends Failed with DeviceResetFailure, for every message and every
capacity. -/
def Obligations.SilentCardEndsTheCommand : Prop :=
  ∀ (s : State) (ps : List PollAnswer), s.host = [] → s.phase = .sending →
    s.kind s.current.pcb = .i → isDefined s.current.pcb = true → s.errors = 0 → s.retransmits = 0 → s.opt.hook = none →
    s.cfg.errorResetLimit = 6 → s.cfg.errorResyncLimit = 4 → s.cfg.retransmitLimit = 3 →
    s.slot0.len ≠ 0xFF → s.slot1.len ≠ 0xFF → s.polls = List.replicate 8 .error ++ ps →
    ∃ t, runSteps 31 s = .next t ∧ t.phase = .failed ∧ t.resultKind = .deviceResetFailure ∧
      framesSent t.calls = framesSent s.calls + 8 ∧
      (∃ cs, t.calls = cs ++ s.calls ∧ TransportCall.reset ∉ cs) ∧ t.seqIf = s.seqIf ∧ t.seqCard = s.seqCard
end

