-- ==== Sys2Proof/Laws/State.lean ====
section
/-! SUPPORT. For each update of State, what it leaves in each field: one lemma per field, true by rfl. -/

namespace Sys2Proof.Laws

open Sys2Proof.Machine

variable (s : State)

/-! ## setSlot -/

@[simp] theorem setSlot_cfg (i : Bit) (f : Frame) : (s.setSlot i f).cfg = s.cfg := rfl
@[simp] theorem setSlot_phase (i : Bit) (f : Frame) : (s.setSlot i f).phase = s.phase := rfl
@[simp] theorem setSlot_stage (i : Bit) (f : Frame) : (s.setSlot i f).stage = s.stage := rfl
@[simp] theorem setSlot_seqIf (i : Bit) (f : Frame) : (s.setSlot i f).seqIf = s.seqIf := rfl
@[simp] theorem setSlot_seqCard (i : Bit) (f : Frame) : (s.setSlot i f).seqCard = s.seqCard := rfl
@[simp] theorem setSlot_slot0 (i : Bit) (f : Frame) : (s.setSlot i f).slot0 = if i = 0 then f else s.slot0 := rfl
@[simp] theorem setSlot_slot1 (i : Bit) (f : Frame) : (s.setSlot i f).slot1 = if i = 0 then s.slot1 else f := rfl
@[simp] theorem setSlot_rxf (i : Bit) (f : Frame) : (s.setSlot i f).rxf = s.rxf := rfl
@[simp] theorem setSlot_active (i : Bit) (f : Frame) : (s.setSlot i f).active = s.active := rfl
@[simp] theorem setSlot_txsel (i : Bit) (f : Frame) : (s.setSlot i f).txsel = s.txsel := rfl
@[simp] theorem setSlot_chained (i : Bit) (f : Frame) : (s.setSlot i f).chained = s.chained := rfl
@[simp] theorem setSlot_resetDone (i : Bit) (f : Frame) : (s.setSlot i f).resetDone = s.resetDone := rfl
@[simp] theorem setSlot_rErr (i : Bit) (f : Frame) : (s.setSlot i f).rErr = s.rErr := rfl
@[simp] theorem setSlot_pass (i : Bit) (f : Frame) : (s.setSlot i f).pass = s.pass := rfl
@[simp] theorem setSlot_hostOpt (i : Bit) (f : Frame) : (s.setSlot i f).hostOpt = s.hostOpt := rfl
@[simp] theorem setSlot_optWritten (i : Bit) (f : Frame) : (s.setSlot i f).optWritten = s.optWritten := rfl
@[simp] theorem setSlot_opt (i : Bit) (f : Frame) : (s.setSlot i f).opt = s.opt := rfl
@[simp] theorem setSlot_ifs (i : Bit) (f : Frame) : (s.setSlot i f).ifs = s.ifs := rfl
@[simp] theorem setSlot_waitMult (i : Bit) (f : Frame) : (s.setSlot i f).waitMult = s.waitMult := rfl
@[simp] theorem setSlot_errors (i : Bit) (f : Frame) : (s.setSlot i f).errors = s.errors := rfl
@[simp] theorem setSlot_retransmits (i : Bit) (f : Frame) : (s.setSlot i f).retransmits = s.retransmits := rfl
@[simp] theorem setSlot_txPtr (i : Bit) (f : Frame) : (s.setSlot i f).txPtr = s.txPtr := rfl
@[simp] theorem setSlot_txRem (i : Bit) (f : Frame) : (s.setSlot i f).txRem = s.txRem := rfl
@[simp] theorem setSlot_rxPtr (i : Bit) (f : Frame) : (s.setSlot i f).rxPtr = s.rxPtr := rfl
@[simp] theorem setSlot_rxRem (i : Bit) (f : Frame) : (s.setSlot i f).rxRem = s.rxRem := rfl
@[simp] theorem setSlot_lastErr (i : Bit) (f : Frame) : (s.setSlot i f).lastErr = s.lastErr := rfl
@[simp] theorem setSlot_txLen0 (i : Bit) (f : Frame) : (s.setSlot i f).txLen0 = s.txLen0 := rfl
@[simp] theorem setSlot_rxCap0 (i : Bit) (f : Frame) : (s.setSlot i f).rxCap0 = s.rxCap0 := rfl
@[simp] theorem setSlot_resultKind (i : Bit) (f : Frame) : (s.setSlot i f).resultKind = s.resultKind := rfl
@[simp] theorem setSlot_resultCount (i : Bit) (f : Frame) : (s.setSlot i f).resultCount = s.resultCount := rfl
@[simp] theorem setSlot_txbuf (i : Bit) (f : Frame) : (s.setSlot i f).txbuf = s.txbuf := rfl
@[simp] theorem setSlot_rxbuf (i : Bit) (f : Frame) : (s.setSlot i f).rxbuf = s.rxbuf := rfl
@[simp] theorem setSlot_window (i : Bit) (f : Frame) : (s.setSlot i f).window = s.window := rfl
@[simp] theorem setSlot_host (i : Bit) (f : Frame) : (s.setSlot i f).host = s.host := rfl
@[simp] theorem setSlot_polls (i : Bit) (f : Frame) : (s.setSlot i f).polls = s.polls := rfl
@[simp] theorem setSlot_receives (i : Bit) (f : Frame) : (s.setSlot i f).receives = s.receives := rfl
@[simp] theorem setSlot_resets (i : Bit) (f : Frame) : (s.setSlot i f).resets = s.resets := rfl
@[simp] theorem setSlot_draws (i : Bit) (f : Frame) : (s.setSlot i f).draws = s.draws := rfl
@[simp] theorem setSlot_calls (i : Bit) (f : Frame) : (s.setSlot i f).calls = s.calls := rfl

/-! ## setPending -/

@[simp] theorem setPending_cfg (p : Byte) (bs : List Byte) : (s.setPending p bs).cfg = s.cfg := rfl
@[simp] theorem setPending_phase (p : Byte) (bs : List Byte) : (s.setPending p bs).phase = s.phase := rfl
@[simp] theorem setPending_stage (p : Byte) (bs : List Byte) : (s.setPending p bs).stage = s.stage := rfl
@[simp] theorem setPending_seqIf (p : Byte) (bs : List Byte) : (s.setPending p bs).seqIf = s.seqIf := rfl
@[simp] theorem setPending_seqCard (p : Byte) (bs : List Byte) : (s.setPending p bs).seqCard = s.seqCard := rfl
@[simp] theorem setPending_slot0 (p : Byte) (bs : List Byte) : (s.setPending p bs).slot0 = if ~~~s.active = 0 then withBlock s.pending p bs else s.slot0 := rfl
@[simp] theorem setPending_slot1 (p : Byte) (bs : List Byte) : (s.setPending p bs).slot1 = if ~~~s.active = 0 then s.slot1 else withBlock s.pending p bs := rfl
@[simp] theorem setPending_rxf (p : Byte) (bs : List Byte) : (s.setPending p bs).rxf = s.rxf := rfl
@[simp] theorem setPending_active (p : Byte) (bs : List Byte) : (s.setPending p bs).active = s.active := rfl
@[simp] theorem setPending_txsel (p : Byte) (bs : List Byte) : (s.setPending p bs).txsel = s.txsel := rfl
@[simp] theorem setPending_chained (p : Byte) (bs : List Byte) : (s.setPending p bs).chained = s.chained := rfl
@[simp] theorem setPending_resetDone (p : Byte) (bs : List Byte) : (s.setPending p bs).resetDone = s.resetDone := rfl
@[simp] theorem setPending_rErr (p : Byte) (bs : List Byte) : (s.setPending p bs).rErr = s.rErr := rfl
@[simp] theorem setPending_pass (p : Byte) (bs : List Byte) : (s.setPending p bs).pass = s.pass := rfl
@[simp] theorem setPending_hostOpt (p : Byte) (bs : List Byte) : (s.setPending p bs).hostOpt = s.hostOpt := rfl
@[simp] theorem setPending_optWritten (p : Byte) (bs : List Byte) : (s.setPending p bs).optWritten = s.optWritten := rfl
@[simp] theorem setPending_opt (p : Byte) (bs : List Byte) : (s.setPending p bs).opt = s.opt := rfl
@[simp] theorem setPending_ifs (p : Byte) (bs : List Byte) : (s.setPending p bs).ifs = s.ifs := rfl
@[simp] theorem setPending_waitMult (p : Byte) (bs : List Byte) : (s.setPending p bs).waitMult = s.waitMult := rfl
@[simp] theorem setPending_errors (p : Byte) (bs : List Byte) : (s.setPending p bs).errors = s.errors := rfl
@[simp] theorem setPending_retransmits (p : Byte) (bs : List Byte) : (s.setPending p bs).retransmits = s.retransmits := rfl
@[simp] theorem setPending_txPtr (p : Byte) (bs : List Byte) : (s.setPending p bs).txPtr = s.txPtr := rfl
@[simp] theorem setPending_txRem (p : Byte) (bs : List Byte) : (s.setPending p bs).txRem = s.txRem := rfl
@[simp] theorem setPending_rxPtr (p : Byte) (bs : List Byte) : (s.setPending p bs).rxPtr = s.rxPtr := rfl
@[simp] theorem setPending_rxRem (p : Byte) (bs : List Byte) : (s.setPending p bs).rxRem = s.rxRem := rfl
@[simp] theorem setPending_lastErr (p : Byte) (bs : List Byte) : (s.setPending p bs).lastErr = s.lastErr := rfl
@[simp] theorem setPending_txLen0 (p : Byte) (bs : List Byte) : (s.setPending p bs).txLen0 = s.txLen0 := rfl
@[simp] theorem setPending_rxCap0 (p : Byte) (bs : List Byte) : (s.setPending p bs).rxCap0 = s.rxCap0 := rfl
@[simp] theorem setPending_resultKind (p : Byte) (bs : List Byte) : (s.setPending p bs).resultKind = s.resultKind := rfl
@[simp] theorem setPending_resultCount (p : Byte) (bs : List Byte) : (s.setPending p bs).resultCount = s.resultCount := rfl
@[simp] theorem setPending_txbuf (p : Byte) (bs : List Byte) : (s.setPending p bs).txbuf = s.txbuf := rfl
@[simp] theorem setPending_rxbuf (p : Byte) (bs : List Byte) : (s.setPending p bs).rxbuf = s.rxbuf := rfl
@[simp] theorem setPending_window (p : Byte) (bs : List Byte) : (s.setPending p bs).window = s.window := rfl
@[simp] theorem setPending_host (p : Byte) (bs : List Byte) : (s.setPending p bs).host = s.host := rfl
@[simp] theorem setPending_polls (p : Byte) (bs : List Byte) : (s.setPending p bs).polls = s.polls := rfl
@[simp] theorem setPending_receives (p : Byte) (bs : List Byte) : (s.setPending p bs).receives = s.receives := rfl
@[simp] theorem setPending_resets (p : Byte) (bs : List Byte) : (s.setPending p bs).resets = s.resets := rfl
@[simp] theorem setPending_draws (p : Byte) (bs : List Byte) : (s.setPending p bs).draws = s.draws := rfl
@[simp] theorem setPending_calls (p : Byte) (bs : List Byte) : (s.setPending p bs).calls = s.calls := rfl

/-! ## recordSent -/

@[simp] theorem recordSent_cfg : (recordSent s).cfg = s.cfg := rfl
@[simp] theorem recordSent_phase : (recordSent s).phase = s.phase := rfl
@[simp] theorem recordSent_stage : (recordSent s).stage = s.stage := rfl
@[simp] theorem recordSent_seqIf : (recordSent s).seqIf = if s.sentI then nsOf s.current.pcb else s.seqIf := rfl
@[simp] theorem recordSent_seqCard : (recordSent s).seqCard = s.seqCard := rfl
@[simp] theorem recordSent_slot0 : (recordSent s).slot0 = s.slot0 := rfl
@[simp] theorem recordSent_slot1 : (recordSent s).slot1 = s.slot1 := rfl
@[simp] theorem recordSent_rxf : (recordSent s).rxf = s.rxf := rfl
@[simp] theorem recordSent_active : (recordSent s).active = s.active := rfl
@[simp] theorem recordSent_txsel : (recordSent s).txsel = s.txsel := rfl
@[simp] theorem recordSent_chained : (recordSent s).chained = if s.sentI then mOf s.current.pcb else s.chained := rfl
@[simp] theorem recordSent_resetDone : (recordSent s).resetDone = s.resetDone := rfl
@[simp] theorem recordSent_rErr : (recordSent s).rErr = s.rErr := rfl
@[simp] theorem recordSent_pass : (recordSent s).pass = s.pass := rfl
@[simp] theorem recordSent_hostOpt : (recordSent s).hostOpt = s.hostOpt := rfl
@[simp] theorem recordSent_optWritten : (recordSent s).optWritten = s.optWritten := rfl
@[simp] theorem recordSent_opt : (recordSent s).opt = s.opt := rfl
@[simp] theorem recordSent_ifs : (recordSent s).ifs = s.ifs := rfl
@[simp] theorem recordSent_waitMult : (recordSent s).waitMult = s.waitMult := rfl
@[simp] theorem recordSent_errors : (recordSent s).errors = s.errors := rfl
@[simp] theorem recordSent_retransmits : (recordSent s).retransmits = s.retransmits := rfl
@[simp] theorem recordSent_txPtr : (recordSent s).txPtr = s.txPtr := rfl
@[simp] theorem recordSent_txRem : (recordSent s).txRem = s.txRem := rfl
@[simp] theorem recordSent_rxPtr : (recordSent s).rxPtr = s.rxPtr := rfl
@[simp] theorem recordSent_rxRem : (recordSent s).rxRem = s.rxRem := rfl
@[simp] theorem recordSent_lastErr : (recordSent s).lastErr = s.lastErr := rfl
@[simp] theorem recordSent_txLen0 : (recordSent s).txLen0 = s.txLen0 := rfl
@[simp] theorem recordSent_rxCap0 : (recordSent s).rxCap0 = s.rxCap0 := rfl
@[simp] theorem recordSent_resultKind : (recordSent s).resultKind = s.resultKind := rfl
@[simp] theorem recordSent_resultCount : (recordSent s).resultCount = s.resultCount := rfl
@[simp] theorem recordSent_txbuf : (recordSent s).txbuf = s.txbuf := rfl
@[simp] theorem recordSent_rxbuf : (recordSent s).rxbuf = s.rxbuf := rfl
@[simp] theorem recordSent_window : (recordSent s).window = s.window := rfl
@[simp] theorem recordSent_host : (recordSent s).host = s.host := rfl
@[simp] theorem recordSent_polls : (recordSent s).polls = s.polls := rfl
@[simp] theorem recordSent_receives : (recordSent s).receives = s.receives := rfl
@[simp] theorem recordSent_resets : (recordSent s).resets = s.resets := rfl
@[simp] theorem recordSent_draws : (recordSent s).draws = s.draws := rfl
@[simp] theorem recordSent_calls : (recordSent s).calls = s.calls := rfl

/-! ## restoreSnapshot -/

@[simp] theorem restoreSnapshot_cfg : (restoreSnapshot s).cfg = s.cfg := rfl
@[simp] theorem restoreSnapshot_phase : (restoreSnapshot s).phase = s.phase := rfl
@[simp] theorem restoreSnapshot_stage : (restoreSnapshot s).stage = s.stage := rfl
@[simp] theorem restoreSnapshot_seqIf : (restoreSnapshot s).seqIf = s.seqIf := rfl
@[simp] theorem restoreSnapshot_seqCard : (restoreSnapshot s).seqCard = s.seqCard := rfl
@[simp] theorem restoreSnapshot_slot0 : (restoreSnapshot s).slot0 = s.slot0 := rfl
@[simp] theorem restoreSnapshot_slot1 : (restoreSnapshot s).slot1 = s.slot1 := rfl
@[simp] theorem restoreSnapshot_rxf : (restoreSnapshot s).rxf = s.rxf := rfl
@[simp] theorem restoreSnapshot_active : (restoreSnapshot s).active = s.active := rfl
@[simp] theorem restoreSnapshot_txsel : (restoreSnapshot s).txsel = s.txsel := rfl
@[simp] theorem restoreSnapshot_chained : (restoreSnapshot s).chained = s.chained := rfl
@[simp] theorem restoreSnapshot_resetDone : (restoreSnapshot s).resetDone = s.resetDone := rfl
@[simp] theorem restoreSnapshot_rErr : (restoreSnapshot s).rErr = s.rErr := rfl
@[simp] theorem restoreSnapshot_pass : (restoreSnapshot s).pass = s.pass := rfl
@[simp] theorem restoreSnapshot_hostOpt : (restoreSnapshot s).hostOpt = s.hostOpt := rfl
@[simp] theorem restoreSnapshot_optWritten : (restoreSnapshot s).optWritten = s.optWritten := rfl
@[simp] theorem restoreSnapshot_opt : (restoreSnapshot s).opt = s.opt := rfl
@[simp] theorem restoreSnapshot_ifs : (restoreSnapshot s).ifs = s.cfg.ifsDefault := rfl
@[simp] theorem restoreSnapshot_waitMult : (restoreSnapshot s).waitMult = 1 := rfl
@[simp] theorem restoreSnapshot_errors : (restoreSnapshot s).errors = 0 := rfl
@[simp] theorem restoreSnapshot_retransmits : (restoreSnapshot s).retransmits = 0 := rfl
@[simp] theorem restoreSnapshot_txPtr : (restoreSnapshot s).txPtr = 0 := rfl
@[simp] theorem restoreSnapshot_txRem : (restoreSnapshot s).txRem = s.txLen0 := rfl
@[simp] theorem restoreSnapshot_rxPtr : (restoreSnapshot s).rxPtr = 0 := rfl
@[simp] theorem restoreSnapshot_rxRem : (restoreSnapshot s).rxRem = s.rxCap0 := rfl
@[simp] theorem restoreSnapshot_lastErr : (restoreSnapshot s).lastErr = .none := rfl
@[simp] theorem restoreSnapshot_txLen0 : (restoreSnapshot s).txLen0 = s.txLen0 := rfl
@[simp] theorem restoreSnapshot_rxCap0 : (restoreSnapshot s).rxCap0 = s.rxCap0 := rfl
@[simp] theorem restoreSnapshot_resultKind : (restoreSnapshot s).resultKind = s.resultKind := rfl
@[simp] theorem restoreSnapshot_resultCount : (restoreSnapshot s).resultCount = s.resultCount := rfl
@[simp] theorem restoreSnapshot_txbuf : (restoreSnapshot s).txbuf = s.txbuf := rfl
@[simp] theorem restoreSnapshot_rxbuf : (restoreSnapshot s).rxbuf = s.rxbuf := rfl
@[simp] theorem restoreSnapshot_window : (restoreSnapshot s).window = s.window := rfl
@[simp] theorem restoreSnapshot_host : (restoreSnapshot s).host = s.host := rfl
@[simp] theorem restoreSnapshot_polls : (restoreSnapshot s).polls = s.polls := rfl
@[simp] theorem restoreSnapshot_receives : (restoreSnapshot s).receives = s.receives := rfl
@[simp] theorem restoreSnapshot_resets : (restoreSnapshot s).resets = s.resets := rfl
@[simp] theorem restoreSnapshot_draws : (restoreSnapshot s).draws = s.draws := rfl
@[simp] theorem restoreSnapshot_calls : (restoreSnapshot s).calls = s.calls := rfl

/-! ## countError -/

@[simp] theorem countError_cfg : (countError s).cfg = s.cfg := rfl
@[simp] theorem countError_phase : (countError s).phase = s.phase := rfl
@[simp] theorem countError_stage : (countError s).stage = s.stage := rfl
@[simp] theorem countError_seqIf : (countError s).seqIf = s.seqIf := rfl
@[simp] theorem countError_seqCard : (countError s).seqCard = s.seqCard := rfl
@[simp] theorem countError_slot0 : (countError s).slot0 = s.slot0 := rfl
@[simp] theorem countError_slot1 : (countError s).slot1 = s.slot1 := rfl
@[simp] theorem countError_rxf : (countError s).rxf = s.rxf := rfl
@[simp] theorem countError_active : (countError s).active = s.active := rfl
@[simp] theorem countError_txsel : (countError s).txsel = s.txsel := rfl
@[simp] theorem countError_chained : (countError s).chained = s.chained := rfl
@[simp] theorem countError_resetDone : (countError s).resetDone = s.resetDone := rfl
@[simp] theorem countError_rErr : (countError s).rErr = s.rErr := rfl
@[simp] theorem countError_pass : (countError s).pass = s.pass := rfl
@[simp] theorem countError_hostOpt : (countError s).hostOpt = s.hostOpt := rfl
@[simp] theorem countError_optWritten : (countError s).optWritten = s.optWritten := rfl
@[simp] theorem countError_opt : (countError s).opt = s.opt := rfl
@[simp] theorem countError_ifs : (countError s).ifs = s.ifs := rfl
@[simp] theorem countError_waitMult : (countError s).waitMult = s.waitMult := rfl
@[simp] theorem countError_errors : (countError s).errors = s.errors + 1 := rfl
@[simp] theorem countError_retransmits : (countError s).retransmits = s.retransmits := rfl
@[simp] theorem countError_txPtr : (countError s).txPtr = s.txPtr := rfl
@[simp] theorem countError_txRem : (countError s).txRem = s.txRem := rfl
@[simp] theorem countError_rxPtr : (countError s).rxPtr = s.rxPtr := rfl
@[simp] theorem countError_rxRem : (countError s).rxRem = s.rxRem := rfl
@[simp] theorem countError_lastErr : (countError s).lastErr = .invalidFrame := rfl
@[simp] theorem countError_txLen0 : (countError s).txLen0 = s.txLen0 := rfl
@[simp] theorem countError_rxCap0 : (countError s).rxCap0 = s.rxCap0 := rfl
@[simp] theorem countError_resultKind : (countError s).resultKind = s.resultKind := rfl
@[simp] theorem countError_resultCount : (countError s).resultCount = s.resultCount := rfl
@[simp] theorem countError_txbuf : (countError s).txbuf = s.txbuf := rfl
@[simp] theorem countError_rxbuf : (countError s).rxbuf = s.rxbuf := rfl
@[simp] theorem countError_window : (countError s).window = s.window := rfl
@[simp] theorem countError_host : (countError s).host = s.host := rfl
@[simp] theorem countError_polls : (countError s).polls = s.polls := rfl
@[simp] theorem countError_receives : (countError s).receives = s.receives := rfl
@[simp] theorem countError_resets : (countError s).resets = s.resets := rfl
@[simp] theorem countError_draws : (countError s).draws = s.draws := rfl
@[simp] theorem countError_calls : (countError s).calls = s.calls := rfl

/-! ## actComplete -/

@[simp] theorem actComplete_cfg : (actComplete s).cfg = s.cfg := rfl
@[simp] theorem actComplete_phase : (actComplete s).phase = .done := rfl
@[simp] theorem actComplete_stage : (actComplete s).stage = s.stage := rfl
@[simp] theorem actComplete_seqIf : (actComplete s).seqIf = s.seqIf := rfl
@[simp] theorem actComplete_seqCard : (actComplete s).seqCard = s.seqCard := rfl
@[simp] theorem actComplete_slot0 : (actComplete s).slot0 = s.slot0 := rfl
@[simp] theorem actComplete_slot1 : (actComplete s).slot1 = s.slot1 := rfl
@[simp] theorem actComplete_rxf : (actComplete s).rxf = s.rxf := rfl
@[simp] theorem actComplete_active : (actComplete s).active = s.active := rfl
@[simp] theorem actComplete_txsel : (actComplete s).txsel = s.txsel := rfl
@[simp] theorem actComplete_chained : (actComplete s).chained = s.chained := rfl
@[simp] theorem actComplete_resetDone : (actComplete s).resetDone = s.resetDone := rfl
@[simp] theorem actComplete_rErr : (actComplete s).rErr = s.rErr := rfl
@[simp] theorem actComplete_pass : (actComplete s).pass = s.pass := rfl
@[simp] theorem actComplete_hostOpt : (actComplete s).hostOpt = s.hostOpt := rfl
@[simp] theorem actComplete_optWritten : (actComplete s).optWritten = s.optWritten := rfl
@[simp] theorem actComplete_opt : (actComplete s).opt = s.opt := rfl
@[simp] theorem actComplete_ifs : (actComplete s).ifs = s.ifs := rfl
@[simp] theorem actComplete_waitMult : (actComplete s).waitMult = s.waitMult := rfl
@[simp] theorem actComplete_errors : (actComplete s).errors = s.errors := rfl
@[simp] theorem actComplete_retransmits : (actComplete s).retransmits = s.retransmits := rfl
@[simp] theorem actComplete_txPtr : (actComplete s).txPtr = s.txPtr := rfl
@[simp] theorem actComplete_txRem : (actComplete s).txRem = s.txRem := rfl
@[simp] theorem actComplete_rxPtr : (actComplete s).rxPtr = s.rxPtr := rfl
@[simp] theorem actComplete_rxRem : (actComplete s).rxRem = s.rxRem := rfl
@[simp] theorem actComplete_lastErr : (actComplete s).lastErr = s.lastErr := rfl
@[simp] theorem actComplete_txLen0 : (actComplete s).txLen0 = s.txLen0 := rfl
@[simp] theorem actComplete_rxCap0 : (actComplete s).rxCap0 = s.rxCap0 := rfl
@[simp] theorem actComplete_resultKind : (actComplete s).resultKind = .complete := rfl
@[simp] theorem actComplete_resultCount : (actComplete s).resultCount = s.rxCap0 - s.rxRem := rfl
@[simp] theorem actComplete_txbuf : (actComplete s).txbuf = s.txbuf := rfl
@[simp] theorem actComplete_rxbuf : (actComplete s).rxbuf = s.rxbuf := rfl
@[simp] theorem actComplete_window : (actComplete s).window = s.window := rfl
@[simp] theorem actComplete_host : (actComplete s).host = s.host := rfl
@[simp] theorem actComplete_polls : (actComplete s).polls = s.polls := rfl
@[simp] theorem actComplete_receives : (actComplete s).receives = s.receives := rfl
@[simp] theorem actComplete_resets : (actComplete s).resets = s.resets := rfl
@[simp] theorem actComplete_draws : (actComplete s).draws = s.draws := rfl
@[simp] theorem actComplete_calls : (actComplete s).calls = s.calls := rfl

/-! ## actFail -/

@[simp] theorem actFail_cfg (k : ResultKind) : (actFail k s).cfg = s.cfg := rfl
@[simp] theorem actFail_phase (k : ResultKind) : (actFail k s).phase = .failed := rfl
@[simp] theorem actFail_stage (k : ResultKind) : (actFail k s).stage = s.stage := rfl
@[simp] theorem actFail_seqIf (k : ResultKind) : (actFail k s).seqIf = s.seqIf := rfl
@[simp] theorem actFail_seqCard (k : ResultKind) : (actFail k s).seqCard = s.seqCard := rfl
@[simp] theorem actFail_slot0 (k : ResultKind) : (actFail k s).slot0 = s.slot0 := rfl
@[simp] theorem actFail_slot1 (k : ResultKind) : (actFail k s).slot1 = s.slot1 := rfl
@[simp] theorem actFail_rxf (k : ResultKind) : (actFail k s).rxf = s.rxf := rfl
@[simp] theorem actFail_active (k : ResultKind) : (actFail k s).active = s.active := rfl
@[simp] theorem actFail_txsel (k : ResultKind) : (actFail k s).txsel = s.txsel := rfl
@[simp] theorem actFail_chained (k : ResultKind) : (actFail k s).chained = s.chained := rfl
@[simp] theorem actFail_resetDone (k : ResultKind) : (actFail k s).resetDone = s.resetDone := rfl
@[simp] theorem actFail_rErr (k : ResultKind) : (actFail k s).rErr = s.rErr := rfl
@[simp] theorem actFail_pass (k : ResultKind) : (actFail k s).pass = s.pass := rfl
@[simp] theorem actFail_hostOpt (k : ResultKind) : (actFail k s).hostOpt = s.hostOpt := rfl
@[simp] theorem actFail_optWritten (k : ResultKind) : (actFail k s).optWritten = s.optWritten := rfl
@[simp] theorem actFail_opt (k : ResultKind) : (actFail k s).opt = s.opt := rfl
@[simp] theorem actFail_ifs (k : ResultKind) : (actFail k s).ifs = s.ifs := rfl
@[simp] theorem actFail_waitMult (k : ResultKind) : (actFail k s).waitMult = s.waitMult := rfl
@[simp] theorem actFail_errors (k : ResultKind) : (actFail k s).errors = s.errors := rfl
@[simp] theorem actFail_retransmits (k : ResultKind) : (actFail k s).retransmits = s.retransmits := rfl
@[simp] theorem actFail_txPtr (k : ResultKind) : (actFail k s).txPtr = s.txPtr := rfl
@[simp] theorem actFail_txRem (k : ResultKind) : (actFail k s).txRem = s.txRem := rfl
@[simp] theorem actFail_rxPtr (k : ResultKind) : (actFail k s).rxPtr = s.rxPtr := rfl
@[simp] theorem actFail_rxRem (k : ResultKind) : (actFail k s).rxRem = s.rxRem := rfl
@[simp] theorem actFail_lastErr (k : ResultKind) : (actFail k s).lastErr = s.lastErr := rfl
@[simp] theorem actFail_txLen0 (k : ResultKind) : (actFail k s).txLen0 = s.txLen0 := rfl
@[simp] theorem actFail_rxCap0 (k : ResultKind) : (actFail k s).rxCap0 = s.rxCap0 := rfl
@[simp] theorem actFail_resultKind (k : ResultKind) : (actFail k s).resultKind = k := rfl
@[simp] theorem actFail_resultCount (k : ResultKind) : (actFail k s).resultCount = s.cfg.clip (Config.freeCount s.draws) := rfl
@[simp] theorem actFail_txbuf (k : ResultKind) : (actFail k s).txbuf = s.txbuf := rfl
@[simp] theorem actFail_rxbuf (k : ResultKind) : (actFail k s).rxbuf = s.rxbuf := rfl
@[simp] theorem actFail_window (k : ResultKind) : (actFail k s).window = s.window := rfl
@[simp] theorem actFail_host (k : ResultKind) : (actFail k s).host = s.host := rfl
@[simp] theorem actFail_polls (k : ResultKind) : (actFail k s).polls = s.polls := rfl
@[simp] theorem actFail_receives (k : ResultKind) : (actFail k s).receives = s.receives := rfl
@[simp] theorem actFail_resets (k : ResultKind) : (actFail k s).resets = s.resets := rfl
@[simp] theorem actFail_draws (k : ResultKind) : (actFail k s).draws = s.draws + 1 := rfl
@[simp] theorem actFail_calls (k : ResultKind) : (actFail k s).calls = s.calls := rfl

/-! ## actContinue -/

@[simp] theorem actContinue_cfg : (actContinue s).cfg = s.cfg := rfl
@[simp] theorem actContinue_phase : (actContinue s).phase = .sending := rfl
@[simp] theorem actContinue_stage : (actContinue s).stage = s.stage := rfl
@[simp] theorem actContinue_seqIf : (actContinue s).seqIf = s.seqIf := rfl
@[simp] theorem actContinue_seqCard : (actContinue s).seqCard = s.seqCard := rfl
@[simp] theorem actContinue_slot0 : (actContinue s).slot0 = s.slot0 := rfl
@[simp] theorem actContinue_slot1 : (actContinue s).slot1 = s.slot1 := rfl
@[simp] theorem actContinue_rxf : (actContinue s).rxf = s.rxf := rfl
@[simp] theorem actContinue_active : (actContinue s).active = ~~~s.active := rfl
@[simp] theorem actContinue_txsel : (actContinue s).txsel = ~~~s.active := rfl
@[simp] theorem actContinue_chained : (actContinue s).chained = s.chained := rfl
@[simp] theorem actContinue_resetDone : (actContinue s).resetDone = s.resetDone := rfl
@[simp] theorem actContinue_rErr : (actContinue s).rErr = s.rErr := rfl
@[simp] theorem actContinue_pass : (actContinue s).pass = s.pass := rfl
@[simp] theorem actContinue_hostOpt : (actContinue s).hostOpt = s.hostOpt := rfl
@[simp] theorem actContinue_optWritten : (actContinue s).optWritten = s.optWritten := rfl
@[simp] theorem actContinue_opt : (actContinue s).opt = s.opt := rfl
@[simp] theorem actContinue_ifs : (actContinue s).ifs = s.ifs := rfl
@[simp] theorem actContinue_waitMult : (actContinue s).waitMult = s.waitMult := rfl
@[simp] theorem actContinue_errors : (actContinue s).errors = 0 := rfl
@[simp] theorem actContinue_retransmits : (actContinue s).retransmits = 0 := rfl
@[simp] theorem actContinue_txPtr : (actContinue s).txPtr = s.txPtr := rfl
@[simp] theorem actContinue_txRem : (actContinue s).txRem = s.txRem := rfl
@[simp] theorem actContinue_rxPtr : (actContinue s).rxPtr = s.rxPtr := rfl
@[simp] theorem actContinue_rxRem : (actContinue s).rxRem = s.rxRem := rfl
@[simp] theorem actContinue_lastErr : (actContinue s).lastErr = s.lastErr := rfl
@[simp] theorem actContinue_txLen0 : (actContinue s).txLen0 = s.txLen0 := rfl
@[simp] theorem actContinue_rxCap0 : (actContinue s).rxCap0 = s.rxCap0 := rfl
@[simp] theorem actContinue_resultKind : (actContinue s).resultKind = s.resultKind := rfl
@[simp] theorem actContinue_resultCount : (actContinue s).resultCount = s.resultCount := rfl
@[simp] theorem actContinue_txbuf : (actContinue s).txbuf = s.txbuf := rfl
@[simp] theorem actContinue_rxbuf : (actContinue s).rxbuf = s.rxbuf := rfl
@[simp] theorem actContinue_window : (actContinue s).window = s.window := rfl
@[simp] theorem actContinue_host : (actContinue s).host = s.host := rfl
@[simp] theorem actContinue_polls : (actContinue s).polls = s.polls := rfl
@[simp] theorem actContinue_receives : (actContinue s).receives = s.receives := rfl
@[simp] theorem actContinue_resets : (actContinue s).resets = s.resets := rfl
@[simp] theorem actContinue_draws : (actContinue s).draws = s.draws := rfl
@[simp] theorem actContinue_calls : (actContinue s).calls = s.calls := rfl

/-! ## actSingleShot -/

@[simp] theorem actSingleShot_cfg : (actSingleShot s).cfg = s.cfg := rfl
@[simp] theorem actSingleShot_phase : (actSingleShot s).phase = .sending := rfl
@[simp] theorem actSingleShot_stage : (actSingleShot s).stage = s.stage := rfl
@[simp] theorem actSingleShot_seqIf : (actSingleShot s).seqIf = s.seqIf := rfl
@[simp] theorem actSingleShot_seqCard : (actSingleShot s).seqCard = s.seqCard := rfl
@[simp] theorem actSingleShot_slot0 : (actSingleShot s).slot0 = s.slot0 := rfl
@[simp] theorem actSingleShot_slot1 : (actSingleShot s).slot1 = s.slot1 := rfl
@[simp] theorem actSingleShot_rxf : (actSingleShot s).rxf = s.rxf := rfl
@[simp] theorem actSingleShot_active : (actSingleShot s).active = s.active := rfl
@[simp] theorem actSingleShot_txsel : (actSingleShot s).txsel = ~~~s.active := rfl
@[simp] theorem actSingleShot_chained : (actSingleShot s).chained = s.chained := rfl
@[simp] theorem actSingleShot_resetDone : (actSingleShot s).resetDone = s.resetDone := rfl
@[simp] theorem actSingleShot_rErr : (actSingleShot s).rErr = s.rErr := rfl
@[simp] theorem actSingleShot_pass : (actSingleShot s).pass = s.pass := rfl
@[simp] theorem actSingleShot_hostOpt : (actSingleShot s).hostOpt = s.hostOpt := rfl
@[simp] theorem actSingleShot_optWritten : (actSingleShot s).optWritten = s.optWritten := rfl
@[simp] theorem actSingleShot_opt : (actSingleShot s).opt = s.opt := rfl
@[simp] theorem actSingleShot_ifs : (actSingleShot s).ifs = s.ifs := rfl
@[simp] theorem actSingleShot_waitMult : (actSingleShot s).waitMult = s.waitMult := rfl
@[simp] theorem actSingleShot_errors : (actSingleShot s).errors = s.errors := rfl
@[simp] theorem actSingleShot_retransmits : (actSingleShot s).retransmits = s.retransmits := rfl
@[simp] theorem actSingleShot_txPtr : (actSingleShot s).txPtr = s.txPtr := rfl
@[simp] theorem actSingleShot_txRem : (actSingleShot s).txRem = s.txRem := rfl
@[simp] theorem actSingleShot_rxPtr : (actSingleShot s).rxPtr = s.rxPtr := rfl
@[simp] theorem actSingleShot_rxRem : (actSingleShot s).rxRem = s.rxRem := rfl
@[simp] theorem actSingleShot_lastErr : (actSingleShot s).lastErr = s.lastErr := rfl
@[simp] theorem actSingleShot_txLen0 : (actSingleShot s).txLen0 = s.txLen0 := rfl
@[simp] theorem actSingleShot_rxCap0 : (actSingleShot s).rxCap0 = s.rxCap0 := rfl
@[simp] theorem actSingleShot_resultKind : (actSingleShot s).resultKind = s.resultKind := rfl
@[simp] theorem actSingleShot_resultCount : (actSingleShot s).resultCount = s.resultCount := rfl
@[simp] theorem actSingleShot_txbuf : (actSingleShot s).txbuf = s.txbuf := rfl
@[simp] theorem actSingleShot_rxbuf : (actSingleShot s).rxbuf = s.rxbuf := rfl
@[simp] theorem actSingleShot_window : (actSingleShot s).window = s.window := rfl
@[simp] theorem actSingleShot_host : (actSingleShot s).host = s.host := rfl
@[simp] theorem actSingleShot_polls : (actSingleShot s).polls = s.polls := rfl
@[simp] theorem actSingleShot_receives : (actSingleShot s).receives = s.receives := rfl
@[simp] theorem actSingleShot_resets : (actSingleShot s).resets = s.resets := rfl
@[simp] theorem actSingleShot_draws : (actSingleShot s).draws = s.draws := rfl
@[simp] theorem actSingleShot_calls : (actSingleShot s).calls = s.calls := rfl

/-! ## takeEvent -/

@[simp] theorem takeEvent_cfg : (s.takeEvent).cfg = s.cfg := rfl
@[simp] theorem takeEvent_phase : (s.takeEvent).phase = s.phase := rfl
@[simp] theorem takeEvent_stage : (s.takeEvent).stage = s.stage := rfl
@[simp] theorem takeEvent_seqIf : (s.takeEvent).seqIf = s.seqIf := rfl
@[simp] theorem takeEvent_seqCard : (s.takeEvent).seqCard = s.seqCard := rfl
@[simp] theorem takeEvent_slot0 : (s.takeEvent).slot0 = s.slot0 := rfl
@[simp] theorem takeEvent_slot1 : (s.takeEvent).slot1 = s.slot1 := rfl
@[simp] theorem takeEvent_rxf : (s.takeEvent).rxf = s.rxf := rfl
@[simp] theorem takeEvent_active : (s.takeEvent).active = s.active := rfl
@[simp] theorem takeEvent_txsel : (s.takeEvent).txsel = s.txsel := rfl
@[simp] theorem takeEvent_chained : (s.takeEvent).chained = s.chained := rfl
@[simp] theorem takeEvent_resetDone : (s.takeEvent).resetDone = s.resetDone := rfl
@[simp] theorem takeEvent_rErr : (s.takeEvent).rErr = s.rErr := rfl
@[simp] theorem takeEvent_pass : (s.takeEvent).pass = s.pass := rfl
@[simp] theorem takeEvent_hostOpt : (s.takeEvent).hostOpt = s.hostOpt := rfl
@[simp] theorem takeEvent_optWritten : (s.takeEvent).optWritten = s.optWritten := rfl
@[simp] theorem takeEvent_opt : (s.takeEvent).opt = s.opt := rfl
@[simp] theorem takeEvent_ifs : (s.takeEvent).ifs = s.ifs := rfl
@[simp] theorem takeEvent_waitMult : (s.takeEvent).waitMult = s.waitMult := rfl
@[simp] theorem takeEvent_errors : (s.takeEvent).errors = s.errors := rfl
@[simp] theorem takeEvent_retransmits : (s.takeEvent).retransmits = s.retransmits := rfl
@[simp] theorem takeEvent_txPtr : (s.takeEvent).txPtr = s.txPtr := rfl
@[simp] theorem takeEvent_txRem : (s.takeEvent).txRem = s.txRem := rfl
@[simp] theorem takeEvent_rxPtr : (s.takeEvent).rxPtr = s.rxPtr := rfl
@[simp] theorem takeEvent_rxRem : (s.takeEvent).rxRem = s.rxRem := rfl
@[simp] theorem takeEvent_lastErr : (s.takeEvent).lastErr = s.lastErr := rfl
@[simp] theorem takeEvent_txLen0 : (s.takeEvent).txLen0 = s.txLen0 := rfl
@[simp] theorem takeEvent_rxCap0 : (s.takeEvent).rxCap0 = s.rxCap0 := rfl
@[simp] theorem takeEvent_resultKind : (s.takeEvent).resultKind = s.resultKind := rfl
@[simp] theorem takeEvent_resultCount : (s.takeEvent).resultCount = s.resultCount := rfl
@[simp] theorem takeEvent_txbuf : (s.takeEvent).txbuf = s.txbuf := rfl
@[simp] theorem takeEvent_rxbuf : (s.takeEvent).rxbuf = s.rxbuf := rfl
@[simp] theorem takeEvent_window : (s.takeEvent).window = s.window := rfl
@[simp] theorem takeEvent_host : (s.takeEvent).host = s.host.tail := rfl
@[simp] theorem takeEvent_polls : (s.takeEvent).polls = s.polls := rfl
@[simp] theorem takeEvent_receives : (s.takeEvent).receives = s.receives := rfl
@[simp] theorem takeEvent_resets : (s.takeEvent).resets = s.resets := rfl
@[simp] theorem takeEvent_draws : (s.takeEvent).draws = s.draws := rfl
@[simp] theorem takeEvent_calls : (s.takeEvent).calls = s.calls := rfl

end Sys2Proof.Laws
end

