-- ==== Sys2Proof/Laws/Frames.lean ====
section
/-! SUPPORT. Frame registers and slots: what a write leaves in each byte, which slot is which, and the checksum. -/

namespace Sys2Proof.Laws

open Sys2Proof.Machine

/-! ## One bit -/

theorem bit_cases (i : Bit) : i = 0 ∨ i = 1 := by revert i; decide

@[simp] theorem bit_not_not (i : Bit) : ~~~(~~~i) = i := by revert i; decide

@[simp] theorem bit_not_ne (i : Bit) : (~~~i = i) ↔ False := by revert i; decide

@[simp] theorem bit_ne_not (i : Bit) : (i = ~~~i) ↔ False := by revert i; decide

theorem bit_ne_iff {i j : Bit} : i ≠ j ↔ i = ~~~j := by revert i j; decide

/-! ## Lengths of the host -/

theorem clip_lt (c : Config.Params) (n : Nat) : c.clip n < 2 ^ c.cursorWidth := Nat.mod_lt _ (Nat.two_pow_pos _)

/-- A number that fits is latched as it is. -/
theorem clip_of_lt {c : Config.Params} {n : Nat} (h : n < 2 ^ c.cursorWidth) : c.clip n = n := Nat.mod_eq_of_lt h

/-! ## Slots -/

@[simp] theorem slot_setSlot_same (s : State) (i : Bit) (f : Frame) : (s.setSlot i f).slot i = f := by
  rcases bit_cases i with rfl | rfl <;> simp [State.slot]

@[simp] theorem slot_setSlot_not (s : State) (i : Bit) (f : Frame) : (s.setSlot i f).slot (~~~i) = s.slot (~~~i) := by
  rcases bit_cases i with rfl | rfl <;> simp [State.slot]

@[simp] theorem slot_setSlot_of_not (s : State) (i : Bit) (f : Frame) : (s.setSlot (~~~i) f).slot i = s.slot i := by
  rcases bit_cases i with rfl | rfl <;> simp [State.slot]

@[simp] theorem current_setSlot_active (s : State) (f : Frame) : (s.setSlot s.active f).current = f := by
  simp [State.current]

@[simp] theorem pending_setSlot_active (s : State) (f : Frame) : (s.setSlot s.active f).pending = s.pending := by
  simp [State.pending]

@[simp] theorem current_setSlot_not (s : State) (f : Frame) : (s.setSlot (~~~s.active) f).current = s.current := by
  simp [State.current]

@[simp] theorem pending_setSlot_not (s : State) (f : Frame) : (s.setSlot (~~~s.active) f).pending = f := by
  simp [State.pending]

@[simp] theorem current_setPending (s : State) (p : Byte) (bs : List Byte) : (s.setPending p bs).current = s.current := by
  simp [State.setPending]

@[simp] theorem pending_setPending (s : State) (p : Byte) (bs : List Byte) :
    (s.setPending p bs).pending = withBlock s.pending p bs := by
  simp [State.setPending]

/-- Both slots satisfy what the written frame and the old slots do. -/
theorem setSlot_forall {P : Frame → Prop} {s : State} {i : Bit} {f : Frame} (hf : P f) (h0 : P s.slot0) (h1 : P s.slot1) :
    P (s.setSlot i f).slot0 ∧ P (s.setSlot i f).slot1 := by
  rcases bit_cases i with rfl | rfl <;> simp [hf, h0, h1]

theorem slot_forall {P : Frame → Prop} {s : State} (h0 : P s.slot0) (h1 : P s.slot1) (i : Bit) : P (s.slot i) := by
  rcases bit_cases i with rfl | rfl <;> simp [State.slot, h0, h1]

/-! ## INF -/

theorem putInf_toList (v : Vector Byte 255) (bs : List Byte) :
    (putInf v bs).toList = (bs ++ v.toList.drop bs.length).take 255 := rfl

theorem setInf_toList (v : Vector Byte 255) (j : Nat) (b : Byte) : (setInf v j b).toList = v.toList.set j b := rfl

/-- A byte below the written run is the run's. -/
theorem putInf_getElem (v : Vector Byte 255) {bs : List Byte} {j : Nat} (h : j < bs.length) (h255 : bs.length ≤ 255) :
    (putInf v bs).toList[j]? = bs[j]? := by
  rw [putInf_toList, List.getElem?_take, if_pos (by omega), List.getElem?_append_left h]

/-- The information field of a built block is the bytes it was built from. -/
theorem infBytes_withBlock (f : Frame) (p : Byte) {bs : List Byte} (h : bs.length ≤ 255) :
    infBytes (withBlock f p bs) = bs := by
  have h256 : bs.length % 256 = bs.length := Nat.mod_eq_of_lt (by omega)
  simp only [infBytes, withBlock, putInf_toList, BitVec.toNat_ofNat, Nat.reducePow, h256, List.take_take]
  rw [Nat.min_eq_left h, List.take_append_of_le_length (le_refl _), List.take_length]

@[simp] theorem withBlock_pcb (f : Frame) (p : Byte) (bs : List Byte) : (withBlock f p bs).pcb = p := rfl
@[simp] theorem withBlock_nad (f : Frame) (p : Byte) (bs : List Byte) : (withBlock f p bs).nad = f.nad := rfl
@[simp] theorem withBlock_len (f : Frame) (p : Byte) (bs : List Byte) :
    (withBlock f p bs).len = BitVec.ofNat 8 bs.length := rfl

theorem infAt_setInf_same (f : Frame) {j : Nat} (b : Byte) (h : j < 255) :
    infAt { f with inf := setInf f.inf j b } j = b := by
  simp [infAt, setInf_toList, h]

theorem inf_length (f : Frame) : f.inf.toList.length = 255 := by simp

theorem infBytes_length (f : Frame) (h : f.len ≠ 0xFF) : (infBytes f).length = f.len.toNat := by
  have : f.len.toNat ≠ 255 := fun hc => h (by apply BitVec.eq_of_toNat_eq; simpa using hc)
  have := f.len.isLt
  simp only [infBytes, List.length_take, inf_length]; omega

/-- A LEN other than 255 leaves room for the checksum. -/
theorem len_lt {f : Frame} (h : f.len ≠ 0xFF) : f.len.toNat < 255 := by
  have hne : f.len.toNat ≠ 255 := fun hc => h (by apply BitVec.eq_of_toNat_eq; simpa using hc)
  have := f.len.isLt
  omega

/-! ## Control bytes and the sentinel -/

/-- Two bytes, one defined and one not, differ. -/
theorem ne_of_isDefined {p q : Byte} (hp : isDefined p = true) (hq : isDefined q = false) : p ≠ q := by
  rintro rfl; rw [hp] at hq; cases hq

theorem isDefined_iPcb (ns m : Bit) : isDefined (iPcb ns m) = true := by revert ns m; decide

theorem isDefined_rPcb (nr : Bit) (e : ErrCode) : isDefined (rPcb nr e) = true := by revert nr e; decide

theorem isDefined_sPcb (t : SType) (d : SDir) : isDefined (sPcb t d) = true := by cases t <;> cases d <;> decide

/-- The kind of a byte other than the sentinel is read from its top two bits, whatever the sentinel is (R96). -/
theorem kind_of_ne {q p : Byte} (hq : p ≠ q) (h : p ≠ 0xFF) : kind q p = kind 0xFF p := by
  unfold kind; rw [if_neg hq, if_neg h]

/-- The kind of a defined byte does not depend on the sentinel. -/
theorem kind_of_isDefined (c : Config.Params) {p : Byte} (h : isDefined p = true) : kind c.pcbInvalid p = kind 0xFF p :=
  kind_of_ne (ne_of_isDefined h c.pcbInvalidReserved) (by rintro rfl; revert h; decide)

@[simp] theorem kind_iPcb (c : Config.Params) (ns m : Bit) : kind c.pcbInvalid (iPcb ns m) = .i := by
  rw [kind_of_isDefined c (isDefined_iPcb ns m)]; revert ns m; decide

theorem kind_sentinel (s : State) : s.kind s.cfg.pcbInvalid = .invalid := by simp [State.kind, kind]

theorem kind_eq_invalid {s : State} {p : Byte} : s.kind p = .invalid ↔ p = s.cfg.pcbInvalid := by
  unfold State.kind kind
  split
  · simp [*]
  · split
    · simp [*]
    · split <;> simp [*]

/-! ## The byte under which the opcode table knows a received byte -/

@[simp] theorem rowByte_sentinel (s : State) : s.rowByte s.cfg.pcbInvalid = 0xFF := by simp [State.rowByte]

/-- Only the sentinel is the table's 0xFF (R97). -/
theorem rowByte_eq_ff {s : State} {p : Byte} : s.rowByte p = 0xFF ↔ p = s.cfg.pcbInvalid := by
  unfold State.rowByte
  split
  · simp [*]
  · split
    · subst_vars; simp_all [eq_comm]
    · exact iff_of_false ‹_› ‹_›

/-- A byte of the table other than 0xFF names itself only. -/
theorem eq_of_rowByte {s : State} {p q : Byte} (h : s.rowByte p = q) (hq : isDefined q = true) : p = q := by
  unfold State.rowByte at h
  split at h
  · subst h; exact absurd hq (by decide)
  · split at h
    · exact absurd h.symm (ne_of_isDefined hq s.cfg.pcbInvalidReserved)
    · exact h

/-- `rowByte` is its own inverse. -/
@[simp] theorem rowByte_rowByte (s : State) (p : Byte) : s.rowByte (s.rowByte p) = p := by
  unfold State.rowByte
  by_cases h1 : p = s.cfg.pcbInvalid
  · by_cases h2 : 0xFF = s.cfg.pcbInvalid <;> simp [h1, h2]
  · by_cases h2 : p = 0xFF
    · simp [h2]
    · rw [if_neg h1, if_neg h2, if_neg h1, if_neg h2]

/-- At the spec's value of PCB_INVALID the table's bytes are the received bytes (R10). -/
theorem rowByte_default {s : State} (h : s.cfg.pcbInvalid = 0xFF) (p : Byte) : s.rowByte p = p := by
  unfold State.rowByte; rw [h]; split <;> simp [*]

/-! ## The checksum -/

theorem foldl_xor_assoc (bs : List Byte) (a b : Byte) :
    bs.foldl (· ^^^ ·) (a ^^^ b) = a ^^^ bs.foldl (· ^^^ ·) b := by
  induction bs generalizing b with
  | nil => rfl
  | cons c bs ih => simp only [List.foldl_cons]; rw [BitVec.xor_assoc, ih]

/-- Writing the byte at `INF[LEN]` does not change the checksum. -/
theorem lrc_setInf_len (f : Frame) (b : Byte) : lrc { f with inf := setInf f.inf f.len.toNat b } = lrc f := by
  simp only [lrc, infBytes, setInf_toList]
  rw [List.take_set_of_le (le_refl _)]

/-- A sealed frame passes the checksum test. -/
theorem lrcOk_sealed (a : Byte) (f : Frame) (h : f.len ≠ 0xFF) : lrcOk (sealed a f) = true := by
  have hl := len_lt h
  have h1 := infAt_setInf_same { f with nad := a } (lrc { f with nad := a }) (j := f.len.toNat) hl
  have h2 := lrc_setInf_len { f with nad := a } (lrc { f with nad := a })
  simp only [lrcOk, sealed, beq_iff_eq]
  exact h1.trans h2.symm

end Sys2Proof.Laws
end

