-- ==== Sys2Proof/Laws/Memory.lean ====
section
/-! SUPPORT. The laws of the buffers: read after write, and that every operation keeps the canonical form. -/

namespace Sys2Proof.Laws

open Sys2Proof.Machine

@[simp] theorem read_nil (a : Nat) : Memory.read [] a = none := rfl

theorem read_write_same (m : Memory) (a : Nat) (b : Byte) : (m.write a b).read a = some b := by
  induction m with
  | nil => simp [Memory.write, Memory.read]
  | cons c m ih =>
    obtain ⟨k, v⟩ := c
    simp only [Memory.write]
    split
    · simp [Memory.read]
    · split
      · simp [Memory.read]
      · simp [Memory.read, *]

theorem read_write_other (m : Memory) {a c : Nat} (b : Byte) (h : c ≠ a) : (m.write a b).read c = m.read c := by
  induction m with
  | nil => simp [Memory.write, Memory.read, h]
  | cons d m ih =>
    obtain ⟨k, v⟩ := d
    simp only [Memory.write]
    split
    · simp [Memory.read, h]
    · split
      · subst_vars; simp [Memory.read, h]
      · simp [Memory.read, ih]

/-- The canonical form as a relation on the list, for proofs. -/
theorem wf_iff_pairwise (m : Memory) : m.wf = true ↔ m.Pairwise (fun x y => x.1 < y.1) := by
  induction m with
  | nil => simp [Memory.wf]
  | cons c m ih =>
    obtain ⟨k, v⟩ := c
    cases m with
    | nil => simp [Memory.wf]
    | cons d m =>
      obtain ⟨j, w⟩ := d
      simp only [Memory.wf, Bool.and_eq_true, decide_eq_true_eq, ih]
      constructor
      · rintro ⟨h, hp⟩
        refine List.pairwise_cons.2 ⟨?_, hp⟩
        intro x hx
        rcases List.mem_cons.1 hx with rfl | hx
        · exact h
        · exact lt_trans h ((List.pairwise_cons.1 hp).1 x hx)
      · intro hp
        exact ⟨(List.pairwise_cons.1 hp).1 (j, w) (by simp), (List.pairwise_cons.1 hp).2⟩

theorem mem_write_fst (m : Memory) (a : Nat) (b : Byte) {x : Host.Cell} (hx : x ∈ m.write a b) :
    x.1 = a ∨ x ∈ m := by
  induction m with
  | nil => simp [Memory.write] at hx; simp [hx]
  | cons c m ih =>
    obtain ⟨k, v⟩ := c
    simp only [Memory.write] at hx
    split at hx
    · rcases List.mem_cons.1 hx with rfl | hx
      · simp
      · exact .inr hx
    · split at hx
      · rcases List.mem_cons.1 hx with rfl | hx
        · simp
        · exact .inr (List.mem_cons_of_mem _ hx)
      · rcases List.mem_cons.1 hx with rfl | hx
        · exact .inr (by simp)
        · exact (ih hx).imp id (List.mem_cons_of_mem _)

theorem write_wf (m : Memory) (a : Nat) (b : Byte) (h : m.wf = true) : (m.write a b).wf = true := by
  rw [wf_iff_pairwise] at h ⊢
  induction m with
  | nil => simp [Memory.write]
  | cons c m ih =>
    obtain ⟨k, v⟩ := c
    obtain ⟨hk, hm⟩ := List.pairwise_cons.1 h
    simp only [Memory.write]
    split
    · rename_i hlt
      refine List.pairwise_cons.2 ⟨?_, h⟩
      intro x hx
      rcases List.mem_cons.1 hx with rfl | hx
      · exact hlt
      · exact lt_trans hlt (hk x hx)
    · split
      · subst_vars
        exact List.pairwise_cons.2 ⟨hk, hm⟩
      · refine List.pairwise_cons.2 ⟨?_, ih hm⟩
        intro x hx
        rcases mem_write_fst m a b hx with hx | hx
        · simp only [hx]; omega
        · exact hk x hx

/-- `writeRun` answers the buffer with the run in it, in canonical form if it was, when the run fits the capacity. -/
theorem writeRun_ok (cap : Nat) (bs : List Byte) (m : Memory) (a : Nat) (h : bs = [] ∨ a + bs.length ≤ cap) :
    ∃ m', writeRun cap m a bs = .ok m' ∧ (m.wf = true → m'.wf = true) ∧
      ∀ c, m'.read c = if a ≤ c ∧ c < a + bs.length then bs[c - a]? else m.read c := by
  induction bs generalizing m a with
  | nil => exact ⟨m, rfl, id, fun c => by simp⟩
  | cons b bs ih =>
    have hle : a + (b :: bs).length ≤ cap := h.resolve_left (by simp)
    simp only [List.length_cons] at hle
    obtain ⟨m', he, hw, hr⟩ := ih (m.write a b) (a + 1) (.inr (by omega))
    refine ⟨m', ?_, fun h => hw (write_wf m a b h), fun c => ?_⟩
    · simp only [writeRun]
      rw [if_neg (by omega), he]
    · rw [hr c]
      by_cases hc : c = a
      · subst hc
        rw [if_neg (by omega), read_write_same, if_pos (by simp)]
        simp
      · rw [read_write_other m b hc]
        simp only [List.length_cons]
        split
        · rw [if_pos (by omega)]
          obtain ⟨d, hd⟩ : ∃ d, c - a = d + 1 := ⟨c - a - 1, by omega⟩
          rw [hd, List.getElem?_cons_succ, show c - (a + 1) = d by omega]
        · rw [if_neg (by omega)]

/-- `writeRun` keeps the canonical form and every byte outside the capacity, whenever it answers. -/
theorem writeRun_keeps {cap : Nat} {bs : List Byte} {m m' : Memory} {a : Nat} (h : writeRun cap m a bs = .ok m') :
    (m.wf = true → m'.wf = true) ∧ ∀ c, cap ≤ c → m'.read c = m.read c := by
  induction bs generalizing m a with
  | nil => simp only [writeRun, Except.ok.injEq] at h; subst h; exact ⟨id, fun _ _ => rfl⟩
  | cons b bs ih =>
    simp only [writeRun] at h
    split at h
    · cases h
    · obtain ⟨hw, hr⟩ := ih h
      refine ⟨fun hm => hw (write_wf m a b hm), fun c hc => ?_⟩
      rw [hr c hc, read_write_other m b (by omega)]

/-- `writeRun` stops at the first offset outside the capacity, wherever in the run that is. -/
theorem writeRun_outside {cap : Nat} {bs : List Byte} {m : Memory} {a : Nat} (h0 : bs ≠ []) (h : cap < a + bs.length) :
    writeRun cap m a bs = .error (.rxOutOfRange (max a cap)) := by
  induction bs generalizing m a with
  | nil => exact absurd rfl h0
  | cons b bs ih =>
    simp only [writeRun, List.length_cons] at h ⊢
    split
    · rw [Nat.max_eq_left ‹_›]
    · rw [ih (by rintro rfl; simp at h; omega) (by omega)]
      congr 2; omega

/-- `readTx` answers the written bytes of a run inside the buffer. -/
theorem readTx_ok (s : State) (a n : Nat) (hin : n = 0 ∨ a + n ≤ s.txLen0)
    (hw : ∀ k, k < n → (s.txbuf.read (a + k)).isSome = true) :
    ∃ bs, readTx s a n = .ok bs ∧ bs.length = n ∧ ∀ k, k < n → bs[k]? = s.txbuf.read (a + k) := by
  induction n generalizing a with
  | zero => exact ⟨[], rfl, rfl, fun k hk => absurd hk (by omega)⟩
  | succ n ih =>
    have hle : a + (n + 1) ≤ s.txLen0 := hin.resolve_left (by omega)
    obtain ⟨bs, he, hl, hb⟩ := ih (a + 1) (.inr (by omega)) (fun k hk => by
      have := hw (k + 1) (by omega)
      rwa [show a + (k + 1) = a + 1 + k by omega] at this)
    have h0 := hw 0 (by omega)
    obtain ⟨b, hb0⟩ := Option.isSome_iff_exists.1 h0
    refine ⟨b :: bs, ?_, by simp [hl], fun k hk => ?_⟩
    · simp only [readTx, Nat.add_zero] at hb0 ⊢
      rw [if_neg (by omega), hb0, he]
    · cases k with
      | zero => simpa using hb0.symm
      | succ k =>
        rw [List.getElem?_cons_succ, hb k (by omega)]
        congr 1; omega

/-- Whenever `readTx` answers, it answers the bytes of the run, which lies inside the buffer. -/
theorem readTx_inv {s : State} {a n : Nat} {bs : List Byte} (h : readTx s a n = .ok bs) :
    bs.length = n ∧ (n = 0 ∨ a + n ≤ s.txLen0) ∧ ∀ k, k < n → s.txbuf.read (a + k) = bs[k]? := by
  induction n generalizing a bs with
  | zero => simp only [readTx, Except.ok.injEq] at h; subst h; simp
  | succ n ih =>
    simp only [readTx] at h
    split at h
    · cases h
    · split at h
      · cases h
      · rename_i b hb
        split at h
        · cases h
        · rename_i cs hcs
          cases h
          obtain ⟨hl, hin, hr⟩ := ih hcs
          refine ⟨by simp [hl], .inr (by omega), fun k hk => ?_⟩
          cases k with
          | zero => simpa using hb
          | succ k =>
            rw [List.getElem?_cons_succ, ← hr k (by omega)]
            congr 1; omega

/-- `readTx` stops at the first byte nothing has written, when that lies inside the buffer. -/
theorem readTx_unwritten {s : State} {a n k : Nat} (hk : k < n) (hin : a + k < s.txLen0)
    (hw : ∀ j, j < k → (s.txbuf.read (a + j)).isSome = true) (hn : s.txbuf.read (a + k) = none) :
    readTx s a n = .error (.txUnwritten (a + k)) := by
  obtain ⟨n, rfl⟩ : ∃ m, n = m + 1 := ⟨n - 1, by omega⟩
  induction k generalizing a n with
  | zero => simp only [readTx]; rw [if_neg (by omega), show s.txbuf.read a = none from hn]; rfl
  | succ k ih =>
    obtain ⟨b, hb⟩ := Option.isSome_iff_exists.1 (hw 0 (by omega))
    rw [Nat.add_zero] at hb
    obtain ⟨n, rfl⟩ : ∃ m, n = m + 1 := ⟨n - 1, by omega⟩
    rw [readTx, if_neg (by omega), hb]
    simp only
    rw [ih (a := a + 1) (by omega) (fun j hj => by rw [show a + 1 + j = a + (j + 1) by omega]; exact hw _ (by omega))
      (by rw [← hn]; congr 1; omega) n (by omega)]
    simp only
    congr 2; omega

/-- `readTx` stops at the first offset outside the buffer, when every byte of the run inside it is written. -/
theorem readTx_outside {s : State} {a n : Nat} (h0 : 0 < n) (h : s.txLen0 < a + n)
    (hw : ∀ c, a ≤ c → c < s.txLen0 → (s.txbuf.read c).isSome = true) :
    readTx s a n = .error (.txOutOfRange (max a s.txLen0)) := by
  induction n generalizing a with
  | zero => omega
  | succ n ih =>
    rw [readTx]
    split
    · rw [Nat.max_eq_left ‹_›]
    · obtain ⟨b, hb⟩ := Option.isSome_iff_exists.1 (hw a (le_refl _) (by omega))
      rw [hb]
      simp only
      rw [ih (a := a + 1) (by omega) (by omega) (fun c hc => hw c (by omega))]
      simp only
      congr 2; omega

/-- `readTx` stops inside the buffer only at a byte nothing has written. -/
theorem readTx_fault {s : State} {a n : Nat} {f : Fault} (hin : a + n ≤ s.txLen0)
    (h : readTx s a n = .error f) : ∃ k, k < n ∧ s.txbuf.read (a + k) = none ∧ f = .txUnwritten (a + k) := by
  induction n generalizing a with
  | zero => simp [readTx] at h
  | succ n ih =>
    simp only [readTx] at h
    rw [if_neg (by omega)] at h
    split at h
    · rename_i hb; cases h; exact ⟨0, by omega, by simpa using hb, rfl⟩
    · split at h
      · rename_i g hg
        cases h
        obtain ⟨k, hk, hn, rfl⟩ := ih (a := a + 1) (by omega) hg
        exact ⟨k + 1, by omega, by rw [← hn]; congr 1; omega, by congr 1; omega⟩
      · cases h

end Sys2Proof.Laws
end

