-- ==== Sys2Proof/Laws/Ops.lean ====
section
/-! SUPPORT. One lemma per shared operation that says everything it can do: segmentation, session start, the actions, and
the error accounting. -/

namespace Sys2Proof.Laws

open Sys2Proof.Machine

@[simp] theorem answer_ok (s : State) : answer (.ok s) = .next s := rfl
@[simp] theorem answer_error (f : Fault) : answer (.error f) = .fault f := rfl

theorem answer_eq_next {r : Except Fault State} {t : State} : answer r = .next t ↔ r = .ok t := by
  cases r <;> simp [answer]

theorem answer_eq_fault {r : Except Fault State} {f : Fault} : answer r = .fault f ↔ r = .error f := by
  cases r <;> simp [answer]

theorem answer_ne_refused {r : Except Fault State} {x : Refusal} : answer r ≠ .refused x := by
  cases r <;> simp [answer]

/-! ## Sizes -/

theorem chunkSize_le_rem (s : State) : chunkSize s ≤ s.txRem := Nat.min_le_left _ _

/-- A legal LEN leaves room for the checksum, whatever INF_MAX is. -/
theorem infMax_le (c : Config.Params) : c.infMax ≤ 254 := by
  have := c.infMaxRange.2; have := c.lenInvalid.isLt; omega

theorem chunkSize_le_max (s : State) : chunkSize s ≤ 254 :=
  le_trans (le_trans (Nat.min_le_right _ _) (Nat.min_le_right _ _)) (infMax_le s.cfg)

theorem drainSize_le_rem (s : State) : drainSize s ≤ s.rxRem := Nat.min_le_right _ _

theorem drainSize_le_len (s : State) : drainSize s ≤ s.rxf.len.toNat := Nat.min_le_left _ _

theorem drainSize_le (s : State) : drainSize s ≤ 255 := by
  have := drainSize_le_len s; have := s.rxf.len.isLt; omega

/-- A chunk's LEN is never 255. -/
theorem ofNat_chunk_ne (n : Nat) (h : n ≤ 254) : BitVec.ofNat 8 n ≠ 0xFF := by
  intro hc
  have := congrArg BitVec.toNat hc
  simp [Nat.mod_eq_of_lt (show n < 256 by omega)] at this
  omega

/-- Advancing a cursor by no more than what remains keeps the sum. -/
theorem cursor_advance {p r c n : Nat} (h : p + r = c) (hn : n ≤ r) : p + n + (r - n) = c := by omega

/-! ## Segmentation -/

/-- The state `fill_outbound` leaves after copying the chunk `bs` into slot `i` (R163). -/
def afterFill (i : Bit) (s : State) (bs : List Byte) : State :=
  { s.setSlot i (filled (s.slot i) bs (s.txRem - chunkSize s)) with
    txPtr := s.txPtr + chunkSize s, txRem := s.txRem - chunkSize s }

theorem fill_of_read {i : Bit} {s : State} {bs : List Byte} (hk : s.kind (s.slot i).pcb = .i)
    (h : readTx s s.txPtr (chunkSize s) = .ok bs) :
    fillOutbound i s = .ok (BitVec.ofNat 8 (chunkSize s), afterFill i s bs) := by
  simp [fillOutbound, hk, h, afterFill]

theorem fill_of_fault {i : Bit} {s : State} {f : Fault} (hk : s.kind (s.slot i).pcb = .i)
    (h : readTx s s.txPtr (chunkSize s) = .error f) : fillOutbound i s = .error f := by
  simp [fillOutbound, hk, h]

/-- Everything `fill_outbound` can do when it answers (R163). -/
theorem fill_inv {i : Bit} {s t : State} {n : Byte} (h : fillOutbound i s = .ok (n, t)) :
    (s.kind (s.slot i).pcb ≠ .i ∧ n = 255 ∧ t = s) ∨
    (s.kind (s.slot i).pcb = .i ∧ n = BitVec.ofNat 8 (chunkSize s) ∧
      ∃ bs, readTx s s.txPtr (chunkSize s) = .ok bs ∧ t = afterFill i s bs) := by
  simp only [fillOutbound] at h
  split at h
  · rename_i hk
    split at h
    · cases h
    · rename_i bs hbs
      cases h
      exact .inr ⟨hk, rfl, bs, hbs, rfl⟩
  · cases h; exact .inl ⟨‹_›, rfl, rfl⟩

/-- The state `drain_inbound` leaves after delivering an I-block into the buffer `m` (R170). -/
def afterDrain (s : State) (m : Memory) : State :=
  { s with
    rxbuf := m
    rxPtr := s.rxPtr + drainSize s
    rxRem := s.rxRem - drainSize s }

/-- Everything `drain_inbound` can do when it answers (R170). -/
theorem drain_inv {s t : State} (h : drainInbound s = .ok t) :
    (s.kind s.rxf.pcb ≠ .i ∧ t = s) ∨
    (s.kind s.rxf.pcb = .i ∧ ∃ m, writeRun s.rxCap0 s.rxbuf s.rxPtr ((infBytes s.rxf).take (drainSize s)) = .ok m
      ∧ t = afterDrain s m) := by
  simp only [drainInbound] at h
  split at h
  · rename_i hk
    split at h
    · cases h
    · rename_i u hu
      simp only [writeRx] at hu
      split at hu
      · cases hu
      · rename_i m hm
        cases hu
        cases h
        exact .inr ⟨hk, m, hm, rfl⟩
  · cases h; exact .inl ⟨‹_›, rfl⟩

theorem drain_run_length (s : State) : ((infBytes s.rxf).take (drainSize s)).length = drainSize s := by
  have h1 := drainSize_le_len s
  have h2 := drainSize_le s
  simp only [infBytes, List.length_take, inf_length]; omega

theorem drain_run_get (s : State) {k : Nat} (h : k < drainSize s) :
    ((infBytes s.rxf).take (drainSize s))[k]? = some (infAt s.rxf k) := by
  have h1 := drainSize_le_len s
  have h2 := drainSize_le s
  have h3 : k < s.rxf.inf.toList.length := by rw [inf_length]; omega
  simp only [infBytes, List.getElem?_take, infAt]
  rw [if_pos h, if_pos (by omega), List.getElem?_eq_getElem h3, Option.getD_some]

/-- `drain_inbound` stops where the delivered run leaves the capacity (R69). -/
theorem drain_outside {s : State} (hk : s.kind s.rxf.pcb = .i) (h0 : 0 < drainSize s) (h : s.rxCap0 < s.rxPtr + drainSize s) :
    drainInbound s = .error (.rxOutOfRange (max s.rxPtr s.rxCap0)) := by
  have hlen := drain_run_length s
  have hr := writeRun_outside (cap := s.rxCap0) (m := s.rxbuf) (a := s.rxPtr) (bs := (infBytes s.rxf).take (drainSize s))
    (by intro hc; rw [hc] at hlen; simp at hlen; omega) (by omega)
  simp [drainInbound, hk, writeRx, hr]

/-- `drain_inbound` answers for an I-block whenever the cursor invariant holds, and this is what it leaves (R170, R171). -/
theorem drain_ok {s : State} (hk : s.kind s.rxf.pcb = .i) (hc : s.rxPtr + s.rxRem = s.rxCap0) :
    ∃ m, drainInbound s = .ok (afterDrain s m) ∧ (s.rxbuf.wf = true → m.wf = true) ∧
      ∀ a, m.read a = if s.rxPtr ≤ a ∧ a < s.rxPtr + drainSize s
        then some (infAt s.rxf (a - s.rxPtr)) else s.rxbuf.read a := by
  have hle := drainSize_le_rem s
  have hlen := drain_run_length s
  obtain ⟨m, hm, hw, hr⟩ := writeRun_ok s.rxCap0 ((infBytes s.rxf).take (drainSize s)) s.rxbuf s.rxPtr
    (.inr (by omega))
  refine ⟨m, ?_, hw, fun a => ?_⟩
  · simp [drainInbound, hk, writeRx, hm, afterDrain]
  · rw [hr a, hlen]
    split
    · rw [drain_run_get s (by omega)]
    · rfl

/-! ## Session start -/

/-- The state `build_initial` fills: the control byte is in the current slot (R252). -/
def initialSlot (s : State) : State := s.setSlot s.active { s.current with pcb := iPcb (~~~s.seqIf) 0 }

theorem kind_initialSlot (s : State) : (initialSlot s).kind ((initialSlot s).slot s.active).pcb = .i := by
  simp [initialSlot, State.kind]

/-- Everything `build_initial` can do when it answers (R252). -/
theorem buildInitial_inv {s t : State} (h : buildInitial s = .ok t) :
    ∃ bs, readTx (initialSlot s) s.txPtr (chunkSize (initialSlot s)) = .ok bs ∧
      t = { afterFill s.active (initialSlot s) bs with txsel := s.active } := by
  simp only [buildInitial] at h
  split at h
  · cases h
  · rename_i n u hu
    cases h
    rcases fill_inv hu with ⟨hk, -⟩ | ⟨-, -, bs, hbs, rfl⟩
    · exact absurd (kind_initialSlot s) hk
    · exact ⟨bs, hbs, rfl⟩

theorem buildInitial_of_read {s : State} {bs : List Byte}
    (h : readTx (initialSlot s) s.txPtr (chunkSize (initialSlot s)) = .ok bs) :
    buildInitial s = .ok { afterFill s.active (initialSlot s) bs with txsel := s.active } := by
  have := fill_of_read (i := s.active) (s := initialSlot s) (kind_initialSlot s) h
  simp only [buildInitial]
  rw [show s.setSlot s.active { s.current with pcb := iPcb (~~~s.seqIf) 0 } = initialSlot s from rfl, this]
  rfl

theorem buildInitial_of_fault {s : State} {f : Fault}
    (h : readTx (initialSlot s) s.txPtr (chunkSize (initialSlot s)) = .error f) : buildInitial s = .error f := by
  have := fill_of_fault (i := s.active) (s := initialSlot s) (kind_initialSlot s) h
  simp only [buildInitial]
  rw [show s.setSlot s.active { s.current with pcb := iPcb (~~~s.seqIf) 0 } = initialSlot s from rfl, this]

/-! ## Actions -/

/-- Everything the Retransmit action can do (R264). -/
theorem retransmit_cases (s : State) :
    (s.retransmits < s.cfg.retransmitLimit ∧
      actRetransmit s = { s with retransmits := s.retransmits + 1, txsel := s.active, phase := .sending }) ∨
    (s.cfg.retransmitLimit ≤ s.retransmits ∧ s.current.pcb = 0xC0 ∧ actRetransmit s = actFail .deviceResetFailure s) ∨
    (s.cfg.retransmitLimit ≤ s.retransmits ∧ s.current.pcb ≠ 0xC0 ∧ actRetransmit s = actContinue (putResyncRequest s)) := by
  unfold actRetransmit
  split
  · exact .inl ⟨‹_›, rfl⟩
  · split
    · exact .inr (.inl ⟨by omega, ‹_›, rfl⟩)
    · exact .inr (.inr ⟨by omega, ‹_›, rfl⟩)

/-- The state ResetSession rebuilds the initial I-block in (R270). -/
def sessionStart (s : State) : State := { restoreSnapshot s with seqIf := s.cfg.seqInit, seqCard := s.cfg.seqInit }

/-- Everything the ResetSession action can do when it answers (R270). -/
theorem resetSession_inv {s t : State} (h : actResetSession s = .ok t) :
    ∃ u, buildInitial (sessionStart s) = .ok u ∧ t = { u with phase := .sending } := by
  simp only [actResetSession] at h
  split at h
  · cases h
  · rename_i u hu; cases h; exact ⟨u, hu, rfl⟩

/-- What a device reset's call leaves: only the answers, the draw counter and the record of calls move (R74). -/
theorem resetLink_eq (s : State) : (resetLink s).2 =
    { s with resets := s.resets.tail, draws := (resetLink s).2.draws, calls := .reset :: s.calls } := by
  unfold resetLink
  split
  · rename_i a rest h; simp [h]
  · rename_i h; simp [h]

/-- Everything the ResetDevice action can do when it answers (R269). -/
theorem resetDevice_inv {s t : State} (h : actResetDevice s = .ok t) :
    ((s.resetDone = true ∨ s.opt.hasReset = false) ∧ t = actFail .deviceResetFailure s) ∨
    (s.resetDone = false ∧ s.opt.hasReset = true ∧
      (((resetLink { s with resetDone := true }).1 ≠ .ok ∧
          t = actFail .deviceResetFailure (resetLink { s with resetDone := true }).2) ∨
        ((resetLink { s with resetDone := true }).1 = .ok ∧
          actResetSession (resetLink { s with resetDone := true }).2 = .ok t))) := by
  simp only [actResetDevice] at h
  split at h
  · rename_i hc
    cases h
    exact .inl ⟨by simpa using hc, rfl⟩
  · rename_i hc
    simp only [Bool.or_eq_true, Bool.not_eq_true', not_or, Bool.not_eq_true, Bool.not_eq_false] at hc
    refine .inr ⟨hc.1, hc.2, ?_⟩
    split at h
    · rename_i u hu; rw [hu]; exact .inr ⟨rfl, h⟩
    · rename_i u hu; rw [hu]; cases h; exact .inl ⟨by simp, rfl⟩
    · rename_i u hu; rw [hu]; cases h; exact .inl ⟨by simp, rfl⟩

/-! ## Error accounting -/

/-- Everything the reaction to a counted error can do (R194). -/
theorem escalate_cases (s : State) :
    (s.cfg.errorResetLimit ≤ s.errors ∧ escalate s = actResetDevice s) ∨
    (s.errors < s.cfg.errorResetLimit ∧ s.sentI = true ∧ s.cfg.errorResyncLimit ≤ s.errors ∧
      escalate s = .ok (actContinue (putResyncRequest s))) ∨
    (s.errors < s.cfg.errorResetLimit ∧ (s.sentI = false ∨ s.errors < s.cfg.errorResyncLimit) ∧
      escalate s = .ok { s with stage := .lookup }) := by
  unfold escalate
  split
  · exact .inl ⟨‹_›, rfl⟩
  · split
    · rename_i h1 h2
      simp only [Bool.and_eq_true, decide_eq_true_eq] at h2
      exact .inr (.inl ⟨by omega, h2.1, h2.2, rfl⟩)
    · rename_i h1 h2
      simp only [Bool.and_eq_true, decide_eq_true_eq, not_and, Nat.not_le] at h2
      refine .inr (.inr ⟨by omega, ?_, rfl⟩)
      cases hs : s.sentI
      · exact .inl rfl
      · exact .inr (h2 hs)

/-- Everything one pass of the rule loop can do with a verdict (R190, R192, R193). -/
theorem account_cases (c : ErrCode) (s : State) :
    (c = 0 ∧ account (c, s) = .ok { s with rErr := 0, stage := .lookup }) ∨
    (c ≠ 0 ∧ account (c, s) = escalate (countError { s with rErr := c })) := by
  unfold account
  by_cases h : c = 0
  · exact .inl ⟨h, by simp [h]⟩
  · exact .inr ⟨h, by rw [if_neg h]; rfl⟩

/-- The pre-check changes CHAINED, SEQ_IF and SEQ_CARD only, and its verdict is 0, 1 or 2 (R182). -/
theorem precheckWith_cases {check : State → ErrCode × State} {s : State}
    (hcheck : ∀ u, (check u).1 ≠ 3 ∧ (check u).1 ≠ 1 ∧ (check u).2 = { u with seqCard := (check u).2.seqCard }) :
    (precheckWith check s).1 ≠ 3 ∧
      (precheckWith check s).2 = { s with
        chained := (precheckWith check s).2.chained
        seqIf := (precheckWith check s).2.seqIf
        seqCard := (precheckWith check s).2.seqCard } := by
  unfold precheckWith
  split
  · obtain ⟨h1, -, h2⟩ := hcheck (recordSent s)
    refine ⟨h1, ?_⟩
    rw [h2]; rfl
  · exact ⟨by simp, rfl⟩

theorem checkI_shape (ns : Bit) (u : State) :
    (checkI ns u).1 ≠ 3 ∧ (checkI ns u).1 ≠ 1 ∧ (checkI ns u).2 = { u with seqCard := (checkI ns u).2.seqCard } := by
  unfold checkI; split <;> exact ⟨by simp, by simp, rfl⟩

theorem checkR_shape (u : State) :
    (checkR u).1 ≠ 3 ∧ (checkR u).1 ≠ 1 ∧ (checkR u).2 = { u with seqCard := (checkR u).2.seqCard } := by
  unfold checkR; split <;> exact ⟨by simp, by simp, rfl⟩

theorem checkS_shape (u : State) :
    (checkS u).1 ≠ 3 ∧ (checkS u).1 ≠ 1 ∧ (checkS u).2 = { u with seqCard := (checkS u).2.seqCard } := by
  unfold checkS; split <;> exact ⟨by simp, by simp, rfl⟩

theorem checkResyncResp_shape (u : State) :
    (checkResyncResp u).1 ≠ 3 ∧ (checkResyncResp u).1 ≠ 1 ∧
      (checkResyncResp u).2 = { u with seqCard := (checkResyncResp u).2.seqCard } := by
  unfold checkResyncResp; split <;> exact ⟨by simp, by simp, rfl⟩

/-- What any pre-check leaves, for every control byte (R182). -/
theorem precheck_shape (s : State) :
    (precheck s).1 ≠ 3 ∧ (precheck s).2 = { s with
      chained := (precheck s).2.chained, seqIf := (precheck s).2.seqIf, seqCard := (precheck s).2.seqCard } := by
  unfold precheck
  split
  · exact ⟨by simp, rfl⟩
  · split
    · exact precheckWith_cases checkResyncResp_shape
    · exact precheckWith_cases checkS_shape
  · exact precheckWith_cases checkR_shape
  · exact precheckWith_cases (checkI_shape _)

/-! ## The transport -/

theorem freeBytes_length (d n : Nat) : (freeBytes d n).length = n := by simp [freeBytes]

/-- `T.receive` gives exactly the bytes asked for (R73, R75). -/
theorem receive_length (n : Nat) (c : Bool) (s : State) : (receive n c s).1.length = n := by
  unfold receive
  split
  · simp [*]
  · simp only [List.length_append, freeBytes_length, delivered, List.length_take]
    omega

/-- `T.receive` moves the answers, the draw counter, the record of calls and the window only (R73). -/
theorem receive_state (n : Nat) (c : Bool) (s : State) : (receive n c s).2 =
    { s with
      calls := .receive n s.cfg.rt c :: s.calls
      window := !c
      receives := (receive n c s).2.receives
      draws := (receive n c s).2.draws } := by
  unfold receive
  split <;> rfl

/-- When the link delivers all that is asked for, those are the bytes and nothing is drawn. -/
theorem receive_delivered {n : Nat} {c : Bool} {s : State} {bs : List Byte} {rest : List (List Byte)}
    (hn : n ≠ 0) (h : s.receives = bs :: rest) (hl : bs.length = n) :
    receive n c s = (bs, { s with calls := .receive n s.cfg.rt c :: s.calls, window := !c, receives := rest }) := by
  subst hl
  simp [receive, hn, delivered, h, freeBytes]

/-- `T.poll` moves the answers, the draw counter and the record of calls only (R72). -/
theorem poll_state (a : Byte) (t : Nat) (s : State) : (poll a t s).2 =
    { s with
      calls := .poll a t :: s.calls
      polls := s.polls.tail
      draws := (poll a t s).2.draws } := by
  unfold poll
  split
  · rename_i h; simp [h]
  · rename_i h; simp [h]

theorem poll_of_cons {a : Byte} {n : Nat} {s : State} {r : PollAnswer} {rest : List PollAnswer} (h : s.polls = r :: rest) :
    poll a n s = (r, { s with calls := .poll a n :: s.calls, polls := rest }) := by
  unfold poll
  rw [h]

/-- The state with the header of a frame read into RXF (R141): the poll answered, `k` header bytes came, the window is open. -/
def afterHeader (k n : Nat) (nad pcb len : Byte) (ps : List PollAnswer) (rs : List (List Byte)) (s : State) : State :=
  { s with
    rxf := { s.rxf with nad := nad, pcb := pcb, len := len }
    calls := .receive k s.cfg.rt false :: .poll s.opt.hostAddr n :: s.calls
    polls := ps
    receives := rs
    window := true }

/-- A poll that consumed no address byte, and three header bytes delivered (R141). -/
theorem decodeFrame_zero {n : Nat} {s : State} {nad pcb len : Byte} {ps : List PollAnswer} {rs : List (List Byte)}
    (hp : s.polls = .zero :: ps) (hr : s.receives = [nad, pcb, len] :: rs) :
    decodeFrame n s = decodeBody (afterHeader 3 n nad pcb len ps rs s) := by
  have h : receive 3 false { s with calls := .poll s.opt.hostAddr n :: s.calls, polls := ps } =
      ([nad, pcb, len],
        { s with
          calls := .receive 3 s.cfg.rt false :: .poll s.opt.hostAddr n :: s.calls
          polls := ps, window := true, receives := rs }) :=
    receive_delivered (n := 3) (bs := [nad, pcb, len]) (rest := rs) (by decide) hr rfl
  unfold decodeFrame
  rw [poll_of_cons hp]
  simp only
  rw [h]
  rfl

/-- A poll that consumed the address byte, and two header bytes delivered (R141). -/
theorem decodeFrame_one {n : Nat} {s : State} {pcb len : Byte} {ps : List PollAnswer} {rs : List (List Byte)}
    (hp : s.polls = .one :: ps) (hr : s.receives = [pcb, len] :: rs) :
    decodeFrame n s = decodeBody (afterHeader 2 n s.opt.hostAddr pcb len ps rs s) := by
  have h : receive 2 false { s with calls := .poll s.opt.hostAddr n :: s.calls, polls := ps } =
      ([pcb, len],
        { s with
          calls := .receive 2 s.cfg.rt false :: .poll s.opt.hostAddr n :: s.calls
          polls := ps, window := true, receives := rs }) :=
    receive_delivered (n := 2) (bs := [pcb, len]) (rest := rs) (by decide) hr rfl
  unfold decodeFrame
  rw [poll_of_cons hp]
  simp only
  rw [h]
  rfl

/-- An invalid LEN closes the window and fails (R142). -/
theorem decodeBody_invalid {s : State} (h : s.cfg.lenBad s.rxf.len = true) :
    decodeBody s = (none, { s with calls := .receive 0 s.cfg.rt true :: s.calls, window := false }) := by
  unfold decodeBody
  rw [if_pos h]
  rfl

/-- A LEN that is not invalid leaves room for the checksum (R92). -/
theorem len_ne_of_lenBad {c : Config.Params} {len : Byte} (h : c.lenBad len = false) : len ≠ 0xFF := by
  rintro rfl
  have := infMax_le c
  simp [Config.Params.lenBad] at h
  omega

/-- A body that is delivered whole, without a hook (R143). -/
theorem decodeBody_delivered {s : State} {body : List Byte} {rs : List (List Byte)}
    (h : s.cfg.lenBad s.rxf.len = false) (hh : s.opt.hook = none) (hr : s.receives = body :: rs) (hb : body.length = s.rxf.len.toNat + 1) :
    decodeBody s = (some s.rxf.len,
      { s with
        calls := .receive (s.rxf.len.toNat + 1) s.cfg.rt true :: s.calls
        window := false
        receives := rs
        rxf := { s.rxf with inf := putInf s.rxf.inf body } }) := by
  have hrec := receive_delivered (n := s.rxf.len.toNat + 1) (c := true) (Nat.succ_ne_zero _) hr hb
  unfold decodeBody
  rw [if_neg (by simp [h]), hrec, hh]
  rfl

end Sys2Proof.Laws
end

