-- ==== Sys2Proof/Laws/PerInstr.lean ====
section
/-! SUPPORT. For every instruction: its word is one its row of spec/opcode_table.json admits, and the decoder reads it back from
that word. -/

namespace Sys2Proof.Laws.TableRow

/-- The row of spec/opcode_table.json: number of bits, match, mask. -/
def pattern : Instr → Nat × Nat × Nat
  | .i00 => (8, 0x00, 0xFF)
  | .i01 => (8, 0x20, 0xFF)
  | .i10 => (8, 0x40, 0xFF)
  | .i11 => (8, 0x60, 0xFF)
  | .r00 => (8, 0x80, 0xFF)
  | .r01 => (8, 0x81, 0xFF)
  | .r02 => (8, 0x82, 0xFF)
  | .r03 => (8, 0x83, 0xFF)
  | .r10 => (8, 0x90, 0xFF)
  | .r11 => (8, 0x91, 0xFF)
  | .r12 => (8, 0x92, 0xFF)
  | .r13 => (8, 0x93, 0xFF)
  | .sResyncReq => (8, 0xC0, 0xFF)
  | .sIfsReq => (8, 0xC1, 0xFF)
  | .sAbortReq => (8, 0xC2, 0xFF)
  | .sWtxReq => (8, 0xC3, 0xFF)
  | .sResyncResp => (8, 0xE0, 0xFF)
  | .sIfsResp => (8, 0xE1, 0xFF)
  | .sAbortResp => (8, 0xE2, 0xFF)
  | .sWtxResp => (8, 0xE3, 0xFF)
  | .invalid => (8, 0xFF, 0xFF)
  | .anyToIfsReq _ => (16, 0x00C1, 0x00FF)
  | .iToWtxReq _ _ => (16, 0x00C3, 0x9FFF)
  | .iToILast _ _ => (16, 0x0000, 0xBFBF)
  | .iToIMore _ _ => (16, 0x0020, 0xBFBF)
  | .rToILast _ _ _ => (16, 0x8000, 0xECBF)
  | .rToIMore _ _ _ => (16, 0x8020, 0xECBF)
  | .i01ToR10 => (16, 0x2090, 0xFFFF)
  | .i11ToR00 => (16, 0x6080, 0xFFFF)
  | .i0mToR0e _ _ => (16, 0x0080, 0xDFFC)
  | .i1mToR1e _ _ => (16, 0x4090, 0xDFFC)
  | .i01ToR11 => (16, 0x2091, 0xFFFF)
  | .i01ToR12 => (16, 0x2092, 0xFFFF)
  | .i01ToR13 => (16, 0x2093, 0xFFFF)
  | .i11ToR01 => (16, 0x6081, 0xFFFF)
  | .i11ToR02 => (16, 0x6082, 0xFFFF)
  | .i11ToR03 => (16, 0x6083, 0xFFFF)
  | .i00ToR1e _ => (16, 0x0090, 0xFFFC)
  | .i10ToR0e _ => (16, 0x4080, 0xFFFC)
  | .ifsReqToIfsResp => (16, 0xC1E1, 0xFFFF)
  | .resyncReqToResyncResp => (16, 0xC0E0, 0xFFFF)
  | .resyncReqToInvalid => (16, 0xC0FF, 0xFFFF)
  | .abortReqToAbortResp => (16, 0xC2E2, 0xFFFF)
  | .abortRespToR0 _ => (16, 0xE280, 0xFFEF)
  | .iMoreToAbortReq _ => (16, 0x20C2, 0xBFFF)
  | .rToAbortReq _ _ => (16, 0x80C2, 0xECFF)
  | .rToInvalid _ _ => (16, 0x80FF, 0xECFF)
  | .iToInvalid _ _ => (16, 0x00FF, 0x9FFF)
  | .ifsWtxReqToInvalid _ => (16, 0xC1FF, 0xFDFF)
  | .abortReqToInvalid => (16, 0xC2FF, 0xFFFF)
  | .respToInvalid _ => (16, 0xE0FF, 0xFCFF)

/-- A well-formed instruction's word has its row's fixed bits, and decodes to the instruction. -/
def Statement (i : Instr) : Prop :=
  i.wellFormed = true →
    encodedWord i &&& (pattern i).2.2 = (pattern i).2.1 ∧ decodeTableWord (pattern i).1 (encodedWord i) = some i

theorem i00 : Statement (.i00) := by
  unfold Statement; decide

theorem i01 : Statement (.i01) := by
  unfold Statement; decide

theorem i10 : Statement (.i10) := by
  unfold Statement; decide

theorem i11 : Statement (.i11) := by
  unfold Statement; decide

theorem r00 : Statement (.r00) := by
  unfold Statement; decide

theorem r01 : Statement (.r01) := by
  unfold Statement; decide

theorem r02 : Statement (.r02) := by
  unfold Statement; decide

theorem r03 : Statement (.r03) := by
  unfold Statement; decide

theorem r10 : Statement (.r10) := by
  unfold Statement; decide

theorem r11 : Statement (.r11) := by
  unfold Statement; decide

theorem r12 : Statement (.r12) := by
  unfold Statement; decide

theorem r13 : Statement (.r13) := by
  unfold Statement; decide

theorem sResyncReq : Statement (.sResyncReq) := by
  unfold Statement; decide

theorem sIfsReq : Statement (.sIfsReq) := by
  unfold Statement; decide

theorem sAbortReq : Statement (.sAbortReq) := by
  unfold Statement; decide

theorem sWtxReq : Statement (.sWtxReq) := by
  unfold Statement; decide

theorem sResyncResp : Statement (.sResyncResp) := by
  unfold Statement; decide

theorem sIfsResp : Statement (.sIfsResp) := by
  unfold Statement; decide

theorem sAbortResp : Statement (.sAbortResp) := by
  unfold Statement; decide

theorem sWtxResp : Statement (.sWtxResp) := by
  unfold Statement; decide

theorem invalid : Statement (.invalid) := by
  unfold Statement; decide

theorem anyToIfsReq (sent : Byte) : Statement (.anyToIfsReq sent) := by
  unfold Statement; revert sent; decide

theorem iToWtxReq (a m : Bit) : Statement (.iToWtxReq a m) := by
  unfold Statement; revert a m; decide

theorem iToILast (a b : Bit) : Statement (.iToILast a b) := by
  unfold Statement; revert a b; decide

theorem iToIMore (a b : Bit) : Statement (.iToIMore a b) := by
  unfold Statement; revert a b; decide

theorem rToILast (n : Bit) (e : ErrCode) (b : Bit) : Statement (.rToILast n e b) := by
  unfold Statement; revert n e b; decide

theorem rToIMore (n : Bit) (e : ErrCode) (b : Bit) : Statement (.rToIMore n e b) := by
  unfold Statement; revert n e b; decide

theorem i01ToR10 : Statement (.i01ToR10) := by
  unfold Statement; decide

theorem i11ToR00 : Statement (.i11ToR00) := by
  unfold Statement; decide

theorem i0mToR0e (m : Bit) (e : ErrCode) : Statement (.i0mToR0e m e) := by
  unfold Statement; revert m e; decide

theorem i1mToR1e (m : Bit) (e : ErrCode) : Statement (.i1mToR1e m e) := by
  unfold Statement; revert m e; decide

theorem i01ToR11 : Statement (.i01ToR11) := by
  unfold Statement; decide

theorem i01ToR12 : Statement (.i01ToR12) := by
  unfold Statement; decide

theorem i01ToR13 : Statement (.i01ToR13) := by
  unfold Statement; decide

theorem i11ToR01 : Statement (.i11ToR01) := by
  unfold Statement; decide

theorem i11ToR02 : Statement (.i11ToR02) := by
  unfold Statement; decide

theorem i11ToR03 : Statement (.i11ToR03) := by
  unfold Statement; decide

theorem i00ToR1e (e : ErrCode) : Statement (.i00ToR1e e) := by
  unfold Statement; revert e; decide

theorem i10ToR0e (e : ErrCode) : Statement (.i10ToR0e e) := by
  unfold Statement; revert e; decide

theorem ifsReqToIfsResp : Statement (.ifsReqToIfsResp) := by
  unfold Statement; decide

theorem resyncReqToResyncResp : Statement (.resyncReqToResyncResp) := by
  unfold Statement; decide

theorem resyncReqToInvalid : Statement (.resyncReqToInvalid) := by
  unfold Statement; decide

theorem abortReqToAbortResp : Statement (.abortReqToAbortResp) := by
  unfold Statement; decide

theorem abortRespToR0 (n : Bit) : Statement (.abortRespToR0 n) := by
  unfold Statement; revert n; decide

theorem iMoreToAbortReq (a : Bit) : Statement (.iMoreToAbortReq a) := by
  unfold Statement; revert a; decide

theorem rToAbortReq (n : Bit) (e : ErrCode) : Statement (.rToAbortReq n e) := by
  unfold Statement; revert n e; decide

theorem rToInvalid (n : Bit) (e : ErrCode) : Statement (.rToInvalid n e) := by
  unfold Statement; revert n e; decide

theorem iToInvalid (a m : Bit) : Statement (.iToInvalid a m) := by
  unfold Statement; revert a m; decide

theorem ifsWtxReqToInvalid (t : SType) : Statement (.ifsWtxReqToInvalid t) := by
  cases t <;> unfold Statement <;> decide

theorem abortReqToInvalid : Statement (.abortReqToInvalid) := by
  unfold Statement; decide

theorem respToInvalid (t : SType) : Statement (.respToInvalid t) := by
  cases t <;> unfold Statement <;> decide

end Sys2Proof.Laws.TableRow
end

