-- ==== Sys2Proof/Laws/Step.lean ====
section
/-! SUPPORT. What a step can do, said once: the meaning of every row as one of a few operations, and the step by phase. -/

namespace Sys2Proof.Laws

open Sys2Proof.Machine

/-! ## The received blocks -/

/-- A block that decodes has its own byte. -/
theorem encodeBlock_of_decodeBlock {p : Byte} {i : Instr} (h : decodeBlock p = some i) : encodeBlock i = some p := by
  have key : ∀ q : Byte, (decodeBlock q).all (fun j => encodeBlock j == some q) = true := by decide
  have := key p
  rw [h] at this
  simpa using this

theorem judge_of_len {check : State → ErrCode × State} {s : State} (h : s.rxf.len ≠ 0xFF) :
    judge check s = account (precheckWith check s) := by
  unfold judge
  rw [if_neg h]

theorem judge_lenInvalid {check : State → ErrCode × State} {s : State} (h : s.rxf.len = 0xFF) :
    judge check s = .error .lenInvalid := by
  unfold judge
  rw [if_pos h]

theorem precheckWith_of_ok {check : State → ErrCode × State} {s : State} (h : lrcOk s.rxf = true) :
    precheckWith check s = check (recordSent s) := by
  simp [precheckWith, h]

theorem precheckWith_of_bad {check : State → ErrCode × State} {s : State} (h : lrcOk s.rxf = false) :
    precheckWith check s = (1, s) := by
  simp [precheckWith, h]

/-- The pre-check of a defined control byte, whatever the sentinel is. -/
theorem precheck_of_isDefined {s : State} {p : Byte} {r : ErrCode × State} (hd : isDefined p = true) (hs : s.rxf.pcb = p)
    (hr : (match kind 0xFF p with
      | .invalid => (2, s)
      | .s => if p = 0xE0 then precheckWith checkResyncResp s else precheckWith checkS s
      | .r => precheckWith checkR s
      | .i => precheckWith (checkI (nsOf p)) s) = r := by rfl) : precheck s = r := by
  unfold precheck State.kind
  rw [hs, kind_of_isDefined s.cfg hd]
  exact hr

/-- A meaning of a PCB row is `judge` of one check, and the pre-check of its byte is the same check; the sentinel is judged
without one (R182). -/
theorem block_form {i : Instr} {p : Byte} (h : encodeBlock i = some p) :
    (i = .invalid ∧ p = 0xFF) ∨
    (p ≠ 0xFF ∧ ∃ check : State → ErrCode × State, (∀ s, exec i s = answer (judge check s)) ∧
      ∀ s : State, s.rxf.pcb = p → precheck s = precheckWith check s) := by
  cases i
  case invalid => left; simp [encodeBlock] at h; exact ⟨rfl, h.symm⟩
  case i00 | i01 =>
    right; simp only [encodeBlock, Option.some.injEq] at h; subst h
    exact ⟨by decide, checkI 0, fun _ => rfl, fun s hs => precheck_of_isDefined (by decide) hs⟩
  case i10 | i11 =>
    right; simp only [encodeBlock, Option.some.injEq] at h; subst h
    exact ⟨by decide, checkI 1, fun _ => rfl, fun s hs => precheck_of_isDefined (by decide) hs⟩
  case r00 | r01 | r02 | r03 | r10 | r11 | r12 | r13 =>
    right; simp only [encodeBlock, Option.some.injEq] at h; subst h
    exact ⟨by decide, checkR, fun _ => rfl, fun s hs => precheck_of_isDefined (by decide) hs⟩
  case sResyncResp =>
    right; simp only [encodeBlock, Option.some.injEq] at h; subst h
    exact ⟨by decide, checkResyncResp, fun _ => rfl, fun s hs => precheck_of_isDefined (by decide) hs⟩
  case sResyncReq | sIfsReq | sAbortReq | sWtxReq | sIfsResp | sAbortResp | sWtxResp =>
    right; simp only [encodeBlock, Option.some.injEq] at h; subst h
    exact ⟨by decide, checkS, fun _ => rfl, fun s hs => precheck_of_isDefined (by decide) hs⟩
  all_goals simp [encodeBlock] at h

theorem precheck_sentinel {s : State} (h : s.rxf.pcb = s.cfg.pcbInvalid) : precheck s = (2, s) := by
  unfold precheck; rw [h, kind_sentinel]

/-! ## The rows of the rule table -/

/-- The row is one of the rule table's. -/
theorem encodePair_of_decodePair {sent received : Byte} {i : Instr} (h : decodePair sent received = some i) :
    encodeBlock i = none := by
  unfold decodePair at h
  rw [Option.map_eq_some_iff] at h
  obtain ⟨r, hr, rfl⟩ := h
  have hm := List.mem_of_find?_eq_some hr
  simp only [pairRows, pairRowsData, pairRowsAck, pairRowsControl, List.cons_append, List.nil_append, List.mem_cons,
    List.not_mem_nil, or_false] at hm
  rcases hm with rfl | rfl | rfl | rfl | rfl | rfl | rfl | rfl | rfl | rfl | rfl | rfl | rfl | rfl | rfl | rfl | rfl | rfl |
    rfl | rfl | rfl | rfl | rfl | rfl | rfl | rfl | rfl | rfl | rfl | rfl <;> rfl

/-- Every meaning of a PAIR row is one of these (43_rule_table.md). -/
theorem pair_form {i : Instr} (h : encodeBlock i = none) (s : State) :
    exec i s = .next (actSingleShot { putEcho .ifs s with ifs := infAt s.rxf 0 }) ∨
    exec i s = .next (actSingleShot { putEcho .wtx s with waitMult := infAt s.rxf 0 }) ∨
    exec i s = answer (deliverLast s) ∨
    (∃ b, exec i s = answer (deliverMore b s)) ∨
    (∃ ns, exec i s = answer (nextChunk ns s)) ∨
    exec i s = .next (actRetransmit s) ∨
    exec i s = .next (actSingleShot (putErrorR s)) ∨
    exec i s = .next (actComplete s) ∨
    exec i s = answer (actResetSession s) ∨
    (∃ n, i = .abortRespToR0 n ∧ exec i s = .next (actFail .abort s)) ∨
    exec i s = .next (actContinue (putAbortRequest s)) := by
  cases i
  case anyToIfsReq => exact .inl rfl
  case iToWtxReq => exact .inr (.inl rfl)
  case iToILast | rToILast => exact .inr (.inr (.inl rfl))
  case iToIMore a b => exact .inr (.inr (.inr (.inl ⟨b, rfl⟩)))
  case rToIMore n e b => exact .inr (.inr (.inr (.inl ⟨b, rfl⟩)))
  case i01ToR10 => exact .inr (.inr (.inr (.inr (.inl ⟨1, rfl⟩))))
  case i11ToR00 => exact .inr (.inr (.inr (.inr (.inl ⟨0, rfl⟩))))
  case i0mToR0e | i1mToR1e | i01ToR11 | i01ToR12 | i01ToR13 | i11ToR01 | i11ToR02 | i11ToR03 | resyncReqToInvalid
      | rToInvalid => exact .inr (.inr (.inr (.inr (.inr (.inl rfl)))))
  case i00ToR1e | i10ToR0e | iToInvalid | ifsWtxReqToInvalid | abortReqToInvalid | respToInvalid =>
    exact .inr (.inr (.inr (.inr (.inr (.inr (.inl rfl))))))
  case ifsReqToIfsResp | abortReqToAbortResp => exact .inr (.inr (.inr (.inr (.inr (.inr (.inr (.inl rfl)))))))
  case resyncReqToResyncResp => exact .inr (.inr (.inr (.inr (.inr (.inr (.inr (.inr (.inl rfl))))))))
  case abortRespToR0 n => exact .inr (.inr (.inr (.inr (.inr (.inr (.inr (.inr (.inr (.inl ⟨n, rfl, rfl⟩)))))))))
  case iMoreToAbortReq | rToAbortReq =>
    exact .inr (.inr (.inr (.inr (.inr (.inr (.inr (.inr (.inr (.inr rfl)))))))))
  all_goals simp [encodeBlock] at h

/-! ## The step by phase -/

theorem step_waiting {s : State} (he : s.nextEvent = none) (hp : s.phase = .idle ∨ s.phase = .done ∨ s.phase = .failed) :
    step s = .next s.takeEvent := by
  unfold step engineStep
  rw [he]
  rcases hp with hp | hp | hp <;> simp [hp]

theorem step_sending {s : State} (he : s.nextEvent = none) (hp : s.phase = .sending) :
    step s = answer (sendPhase s.takeEvent) := by
  unfold step engineStep
  rw [he]
  simp [hp]

theorem step_receiving {s : State} (he : s.nextEvent = none) (hp : s.phase = .receiving) :
    step s = .next (receivePhase s.takeEvent) := by
  unfold step engineStep
  rw [he]
  simp [hp]

/-- A block the table has, other than the sentinel's row, is a defined byte. -/
theorem isDefined_of_encodeBlock {i : Instr} {p : Byte} (h : encodeBlock i = some p) (hp : p ≠ 0xFF) : isDefined p = true := by
  have key : ∀ i : Instr, ∀ p, encodeBlock i = some p → isDefined p = true ∨ p = 0xFF := by
    intro i p h
    cases i <;> simp [encodeBlock] at h <;> subst h <;> decide
  exact (key i p h).resolve_right hp

/-- A step before the pre-check, for every control byte: the pre-check of R182 and the accounting; a LEN of 255 stops it unless
the sentinel stands in RXF. -/
theorem step_precheck {s : State} (he : s.nextEvent = none) (hp : s.phase = .evaluating) (hs : s.stage = .precheck) :
    step s = if s.rxf.len = 0xFF ∧ s.rxf.pcb ≠ s.cfg.pcbInvalid then .fault .lenInvalid
      else answer (account (precheck s.takeEvent)) := by
  have hstep : step s = match decodeBlock (s.rowByte s.rxf.pcb) with
      | some i => exec i s.takeEvent
      | none => answer (judgeReserved s.takeEvent) := by
    have hst : s.takeEvent.stage = .precheck := hs
    have hph : s.takeEvent.phase = .evaluating := hp
    unfold step engineStep
    rw [he]
    simp only [hph, evalStep, State.fetch, hst, decodeBytes, unrecognised]
    rw [show s.takeEvent.rowByte s.takeEvent.rxf.pcb = s.rowByte s.rxf.pcb from rfl]
    cases decodeBlock (s.rowByte s.rxf.pcb) <;> rfl
  rw [hstep]
  cases hd : decodeBlock (s.rowByte s.rxf.pcb) with
  | none =>
    have hne : s.rxf.pcb ≠ s.cfg.pcbInvalid := by
      intro hc; rw [hc, rowByte_sentinel] at hd; revert hd; decide
    by_cases hl : s.rxf.len = 0xFF
    · rw [if_pos ⟨hl, hne⟩]
      simp only [judgeReserved]
      rw [if_pos (show s.takeEvent.rxf.len = 0xFF from hl)]; rfl
    · rw [if_neg (fun h => hl h.1)]
      simp only [judgeReserved]
      rw [if_neg (show s.takeEvent.rxf.len ≠ 0xFF from hl)]
  | some i =>
    have he := encodeBlock_of_decodeBlock hd
    rcases block_form he with ⟨rfl, hp⟩ | ⟨hne, check, h1, h2⟩
    · rw [rowByte_eq_ff] at hp
      rw [if_neg (fun h => h.2 hp), precheck_sentinel (s := s.takeEvent) hp]; rfl
    · have hdef := isDefined_of_encodeBlock he hne
      have hpcb : s.rxf.pcb = s.rowByte s.rxf.pcb := eq_of_rowByte rfl hdef
      have hns : s.rxf.pcb ≠ s.cfg.pcbInvalid := fun hc => hne (rowByte_eq_ff.2 hc)
      simp only [h1, h2 s.takeEvent hpcb]
      by_cases hl : s.rxf.len = 0xFF
      · rw [judge_lenInvalid (s := s.takeEvent) hl, if_pos ⟨hl, hns⟩]; rfl
      · rw [judge_of_len (s := s.takeEvent) hl, if_neg (fun h => hl h.1)]

/-- The key's received byte, as the opcode table knows it (R190, R193). -/
theorem rowByte_rx (s : State) : s.rowByte s.rx = if s.rErr ≠ 0 then 0xFF else s.rowByte s.rxf.pcb := by
  unfold State.rx; split <;> simp

/-- A step before the table lookup: the matching row's meaning, or what the rule loop does without one. -/
theorem step_lookup {s : State} (he : s.nextEvent = none) (hp : s.phase = .evaluating) (hs : s.stage = .lookup) :
    (∃ i, decodePair s.current.pcb (s.rowByte s.rx) = some i ∧ step s = exec i s.takeEvent) ∨
    (decodePair s.current.pcb (s.rowByte s.rx) = none ∧ step s = answer (noMatch s.takeEvent)) := by
  have hst : s.takeEvent.stage = .lookup := hs
  have hph : s.takeEvent.phase = .evaluating := hp
  unfold step engineStep
  rw [he]
  simp only [hph, evalStep, State.fetch, hst, decodeBytes, unrecognised]
  rw [show s.takeEvent.current.pcb = s.current.pcb from rfl, show s.takeEvent.rowByte s.takeEvent.rx = s.rowByte s.rx from rfl]
  cases decodePair s.current.pcb (s.rowByte s.rx) with
  | none => exact .inr ⟨rfl, rfl⟩
  | some i => exact .inl ⟨i, rfl, rfl⟩

/-- Everything the rule loop can do with a key that is no row (R196, R198). -/
theorem noMatch_cases (s : State) :
    ((s.rx = s.cfg.pcbInvalid ∨ s.cfg.reevalLimit ≤ s.pass.toNat) ∧ noMatch s = .ok (actFail .hardFail s)) ∨
    (s.rx ≠ s.cfg.pcbInvalid ∧ s.pass.toNat < s.cfg.reevalLimit ∧
      noMatch s = .ok { s with rxf := { s.rxf with pcb := s.cfg.pcbInvalid }, pass := true, stage := .precheck }) := by
  unfold noMatch
  split
  · exact .inl ⟨‹_›, rfl⟩
  · rename_i h
    rw [not_or, Nat.not_le] at h
    exact .inr ⟨h.1, h.2, rfl⟩

/-! ## The other meanings, inverted -/

/-- Everything a last block's meaning can do when it answers (R211, R217). -/
theorem deliverLast_inv {s t : State} (h : deliverLast s = .ok t) : ∃ u, drainInbound s = .ok u ∧ t = actComplete u := by
  unfold deliverLast at h
  split at h
  · cases h
  · cases h; exact ⟨_, ‹_›, rfl⟩

/-- Everything a further block's meaning can do when it answers (R212, R218). -/
theorem deliverMore_inv {b : Bit} {s t : State} (h : deliverMore b s = .ok t) :
    ∃ u, drainInbound s = .ok u ∧ t = actContinue (putAckR b u) := by
  unfold deliverMore at h
  split at h
  · cases h
  · cases h; exact ⟨_, ‹_›, rfl⟩

/-- The state a next chunk is filled in: the control byte is in the pending slot (R220). -/
def chunkSlot (ns : Bit) (s : State) : State := s.setSlot (~~~s.active) { s.pending with pcb := iPcb ns 0 }

theorem kind_chunkSlot (ns : Bit) (s : State) : (chunkSlot ns s).kind ((chunkSlot ns s).slot (~~~s.active)).pcb = .i := by
  simp [chunkSlot, State.kind]

/-- Everything a next chunk's meaning can do when it answers (R220). -/
theorem nextChunk_inv {ns : Bit} {s t : State} (h : nextChunk ns s = .ok t) :
    ∃ bs, readTx (chunkSlot ns s) s.txPtr (chunkSize (chunkSlot ns s)) = .ok bs ∧
      t = actContinue (afterFill (~~~s.active) (chunkSlot ns s) bs) := by
  unfold nextChunk at h
  split at h
  · cases h
  · rename_i n u hu
    cases h
    rcases fill_inv hu with ⟨hk, -⟩ | ⟨-, -, bs, hbs, rfl⟩
    · exact absurd (kind_chunkSlot ns s) hk
    · exact ⟨bs, hbs, rfl⟩

theorem nextChunk_of_read {ns : Bit} {s : State} {bs : List Byte}
    (h : readTx (chunkSlot ns s) s.txPtr (chunkSize (chunkSlot ns s)) = .ok bs) :
    nextChunk ns s = .ok (actContinue (afterFill (~~~s.active) (chunkSlot ns s) bs)) := by
  have := fill_of_read (i := ~~~s.active) (s := chunkSlot ns s) (kind_chunkSlot ns s) h
  simp only [nextChunk]
  rw [show s.setSlot (~~~s.active) { s.pending with pcb := iPcb ns 0 } = chunkSlot ns s from rfl, this]
  rfl

theorem nextChunk_of_fault {ns : Bit} {s : State} {f : Fault}
    (h : readTx (chunkSlot ns s) s.txPtr (chunkSize (chunkSlot ns s)) = .error f) : nextChunk ns s = .error f := by
  have := fill_of_fault (i := ~~~s.active) (s := chunkSlot ns s) (kind_chunkSlot ns s) h
  simp only [nextChunk]
  rw [show s.setSlot (~~~s.active) { s.pending with pcb := iPcb ns 0 } = chunkSlot ns s from rfl, this]

end Sys2Proof.Laws
end

