-- ==== Sys2Proof/Tests/Slice0.lean ====
section
/-! SUPPORT. Tests: ill-formed terms, a word of every row written out from the spec's encoding, vectors of
spec/95_test_vectors.md and worked examples of the rules, and for every statement a state that meets its hypotheses. -/

namespace Sys2Proof.Tests

open Sys2Proof Sys2Proof.Machine Sys2Proof.Safety Sys2Proof.Claims

/-! ## Small states -/

/-- A frame register with the given bytes from `INF[0]` on, zeros after them. -/
def frm (nad pcb len : Byte) (bs : List Byte) : Frame := ⟨nad, pcb, len, putInf (Vector.replicate 255 0) bs⟩

/-- The addresses of the vectors: HOST_ADDR 0x12, NODE_ADDR 0x21, no hook, a reset offered. -/
def vectorOptions : Options := { hostAddr := 0x12, nodeAddr := 0x21, bwtBase := 5, hook := none, hasReset := true }

/-- In a command, in a phase, with a last-sent byte and a received frame. -/
def running (p : Phase) (g : Stage) (sent : Byte) (rx : Frame) : State :=
  { State.reset with
    phase := p, stage := g, opt := vectorOptions, ifs := 4, waitMult := 1, slot0 := frm 0x21 sent 0 [], rxf := rx,
    txbuf := [(0, 0x10), (1, 0x11), (2, 0x12), (3, 0x13), (4, 0x14), (5, 0x15), (6, 0x16), (7, 0x17), (8, 0x18), (9, 0x19)],
    txLen0 := 10, txPtr := 4, txRem := 6, rxCap0 := 8, rxRem := 8, resets := [.ok], polls := [.error] }

/-- Before the pre-check, the last-sent block being `I(0,0)`. -/
def judging (rx : Frame) : State := running .evaluating .precheck 0x00 rx

/-- Before the table lookup, the reception having passed the pre-check. -/
def matching (sent : Byte) (rx : Frame) : State := running .evaluating .lookup sent rx

/-- Outside a command, every option written, one event waiting. -/
def atHost (e : HostEvent) : State :=
  { State.reset with
    hostOpt := vectorOptions, optWritten := ⟨true, true, true, true, true⟩, txbuf := [(0, 1), (1, 2)], host := [some e] }

/-- In a command, one event waiting. -/
def busyHost (e : HostEvent) : State := { running .sending .precheck 0x00 zeroFrame with host := [some e] }

/-- The next state, or `s` itself where there is none. -/
def out (o : Host.Outcome State Fault Refusal) (s : State) : State :=
  match o with
  | .next t => t
  | .fault _ | .refused _ => s

/-- The outcome is a next state. -/
def goes : Host.Outcome State Fault Refusal → Bool
  | .next _ => true
  | .fault _ | .refused _ => false

theorem step_out {s : State} (h : goes (step s) = true) : step s = .next (out (step s) s) := by
  unfold out
  cases hs : step s <;> simp [hs, goes] at h ⊢

/-! ## Well-formed terms -/

/-- The row 0xC1FF mask 0xFDFF has the types IFS and WTX only. -/
theorem test_wellFormed_refuses :
    (Instr.ifsWtxReqToInvalid .resync).wellFormed = false ∧ (Instr.ifsWtxReqToInvalid .abort).wellFormed = false := by decide

theorem test_wellFormed_accepts :
    (Instr.ifsWtxReqToInvalid .ifs).wellFormed = true ∧ (Instr.ifsWtxReqToInvalid .wtx).wellFormed = true ∧
    (Instr.respToInvalid .abort).wellFormed = true := by decide

/-! ## Decoding: words from the bit layouts of R97 to R100 -/

theorem test_decode_i_blocks :
    decodeTableWord 8 0b00000000 = some .i00 ∧ decodeTableWord 8 0b00100000 = some .i01 ∧
    decodeTableWord 8 0b01000000 = some .i10 ∧ decodeTableWord 8 0b01100000 = some .i11 := by decide

theorem test_decode_r_blocks :
    decodeTableWord 8 0b10000000 = some .r00 ∧ decodeTableWord 8 0b10000001 = some .r01 ∧
    decodeTableWord 8 0b10000010 = some .r02 ∧ decodeTableWord 8 0b10000011 = some .r03 ∧
    decodeTableWord 8 0b10010000 = some .r10 ∧ decodeTableWord 8 0b10010001 = some .r11 ∧
    decodeTableWord 8 0b10010010 = some .r12 ∧ decodeTableWord 8 0b10010011 = some .r13 := by decide

theorem test_decode_s_blocks :
    decodeTableWord 8 0b11000000 = some .sResyncReq ∧ decodeTableWord 8 0b11000001 = some .sIfsReq ∧
    decodeTableWord 8 0b11000010 = some .sAbortReq ∧ decodeTableWord 8 0b11000011 = some .sWtxReq ∧
    decodeTableWord 8 0b11100000 = some .sResyncResp ∧ decodeTableWord 8 0b11100001 = some .sIfsResp ∧
    decodeTableWord 8 0b11100010 = some .sAbortResp ∧ decodeTableWord 8 0b11100011 = some .sWtxResp ∧
    decodeTableWord 8 0b11111111 = some .invalid := by decide

/-- Reserved control bytes, each one bit away from a defined one (R103). -/
theorem test_decode_reserved :
    decodeTableWord 8 0b00000001 = none ∧ decodeTableWord 8 0b10100000 = none ∧ decodeTableWord 8 0b10000100 = none ∧
    decodeTableWord 8 0b11000100 = none ∧ decodeTableWord 8 0b11110000 = none ∧ decodeTableWord 8 0b11111110 = none := by
  decide

/-! ## Decoding: keys from the patterns of 43_rule_table.md, sent byte in bits 15..8 -/

theorem test_decode_supervisory_rows :
    decodeTableWord 16 0xFFC1 = some (.anyToIfsReq 0xFF) ∧ decodeTableWord 16 0x60C3 = some (.iToWtxReq 1 1) ∧
    decodeTableWord 16 0x20C2 = some (.iMoreToAbortReq 0) ∧ decodeTableWord 16 0x92C2 = some (.rToAbortReq 1 2) := by decide

theorem test_decode_data_rows :
    decodeTableWord 16 0x4000 = some (.iToILast 1 0) ∧ decodeTableWord 16 0x0060 = some (.iToIMore 0 1) ∧
    decodeTableWord 16 0x8140 = some (.rToILast 0 1 1) ∧ decodeTableWord 16 0x9320 = some (.rToIMore 1 3 0) := by decide

theorem test_decode_ack_rows :
    decodeTableWord 16 0x2090 = some .i01ToR10 ∧ decodeTableWord 16 0x6080 = some .i11ToR00 ∧
    decodeTableWord 16 0x2081 = some (.i0mToR0e 1 1) ∧ decodeTableWord 16 0x4090 = some (.i1mToR1e 0 0) ∧
    decodeTableWord 16 0x2091 = some .i01ToR11 ∧ decodeTableWord 16 0x2092 = some .i01ToR12 ∧
    decodeTableWord 16 0x2093 = some .i01ToR13 ∧ decodeTableWord 16 0x6081 = some .i11ToR01 ∧
    decodeTableWord 16 0x6082 = some .i11ToR02 ∧ decodeTableWord 16 0x6083 = some .i11ToR03 ∧
    decodeTableWord 16 0x0093 = some (.i00ToR1e 3) ∧ decodeTableWord 16 0x4080 = some (.i10ToR0e 0) := by decide

theorem test_decode_control_rows :
    decodeTableWord 16 0xC1E1 = some .ifsReqToIfsResp ∧ decodeTableWord 16 0xC0E0 = some .resyncReqToResyncResp ∧
    decodeTableWord 16 0xC0FF = some .resyncReqToInvalid ∧ decodeTableWord 16 0xC2E2 = some .abortReqToAbortResp ∧
    decodeTableWord 16 0xE290 = some (.abortRespToR0 1) ∧ decodeTableWord 16 0x91FF = some (.rToInvalid 1 1) ∧
    decodeTableWord 16 0x40FF = some (.iToInvalid 1 0) ∧ decodeTableWord 16 0xC3FF = some (.ifsWtxReqToInvalid .wtx) ∧
    decodeTableWord 16 0xC2FF = some .abortReqToInvalid ∧ decodeTableWord 16 0xE1FF = some (.respToInvalid .ifs) := by decide

/-- Unrecognised pairs of R233, and R213, R215, R219. -/
theorem test_decode_unrecognised :
    decodeTableWord 16 0x2000 = none ∧ decodeTableWord 16 0x80C3 = none ∧ decodeTableWord 16 0x8090 = none ∧
    decodeTableWord 16 0x00C2 = none ∧ decodeTableWord 16 0xC0C0 = none ∧ decodeTableWord 16 0xFFFF = none := by decide

/-! ## Checksum and encode: vectors V1 to V17, frames on the wire -/

theorem test_lrc_vectors :
    lrc (frm 0x21 0x00 0 []) = 0x21 ∧ lrc (frm 0x21 0x00 2 [0xDE, 0xAD]) = 0x50 ∧ lrc (frm 0 0 0 []) = 0 := by decide

theorem test_lrcOk_vectors :
    lrcOk (frm 0x12 0x00 3 [0x90, 0x01, 0xAA, 0x2B]) = false ∧ lrcOk (frm 0x12 0x00 3 [0x91, 0x01, 0xAA, 0x2B]) = true ∧
    lrcOk (frm 0x12 0x00 3 [0x90, 0x00, 0xAA, 0x2A]) = false := by decide

theorem test_wire_vectors :
    wireBytes (sealed 0x21 (frm 0 0x00 0 [])) = [0x21, 0x00, 0x00, 0x21] ∧
    wireBytes (sealed 0x21 (frm 0 0x20 4 [0x10, 0x11, 0x12, 0x13])) = [0x21, 0x20, 0x04, 0x10, 0x11, 0x12, 0x13, 0x05] := by
  decide

/-- The bytes that would go on the wire for a slot of `t` without a hook. -/
def wire (f : Frame) : List Byte := wireBytes (sealed 0x21 f)

/-! ## Segmentation: V30 to V44 -/

/-- The result of a fill of slot 0: bytes copied, PCB, LEN, TX_REM. -/
def fillOf (ifs : Byte) (len ptr : Nat) (pcb : Byte) : Option (List Nat) :=
  match fillOutbound 0 { matching 0 zeroFrame with
      ifs := ifs, txLen0 := len, txPtr := ptr, txRem := len - ptr, slot0 := frm 0 pcb 0 [] } with
  | .ok (n, t) => some [n.toNat, t.slot0.pcb.toNat, t.slot0.len.toNat, t.txRem]
  | .error _ => none

theorem test_fill_vectors :
    fillOf 254 0 0 0x00 = some [0, 0x00, 0, 0] ∧ fillOf 4 10 0 0x00 = some [4, 0x20, 4, 6] ∧
    fillOf 4 10 8 0x00 = some [2, 0x00, 2, 0] ∧ fillOf 0 10 7 0x00 = some [0, 0x20, 0, 3] ∧
    fillOf 8 10 9 0x60 = some [1, 0x40, 1, 0] ∧ fillOf 4 10 0 0x80 = some [255, 0x80, 0, 10] := by decide

/-- The result of a delivery: the first four offsets of RXBUF, RX_PTR, RX_REM. -/
def drainOf (rx : Frame) (ptr rem : Nat) : Option (List (Option Byte) × Nat × Nat) :=
  match drainInbound { matching 0 rx with rxPtr := ptr, rxRem := rem, rxCap0 := ptr + rem } with
  | .ok t => some ([0, 1, 2, 3].map t.rxbuf.read, t.rxPtr, t.rxRem)
  | .error _ => none

theorem test_drain_vectors :
    drainOf (frm 0x12 0x00 3 [0x90, 0x00, 0xAA]) 0 8 = some ([some 0x90, some 0x00, some 0xAA, none], 3, 5) ∧
    drainOf (frm 0x12 0x00 4 [9, 8, 7, 6]) 0 2 = some ([some 9, some 8, none, none], 2, 0) ∧
    drainOf (frm 0x12 0x20 0 []) 3 5 = some ([none, none, none, none], 3, 5) ∧
    drainOf (frm 0x12 0x80 0 []) 3 5 = some ([none, none, none, none], 3, 5) := by decide

/-! ## Received blocks: V50 to V62, SEQ_IF = SEQ_CARD = 1 before -/

/-- After one step on the frame: R_ERR, SEQ_IF, SEQ_CARD, ERRORS. -/
def judged (rx : Frame) : ErrCode × Bit × Bit × Nat :=
  let t := out (step (judging rx)) State.reset
  (t.rErr, t.seqIf, t.seqCard, t.errors)

theorem test_precheck_faulty :
    judged (frm 0x12 0xFF 0 []) = (2, 1, 1, 1) ∧ judged (frm 0x12 0x00 2 [0x91, 0x00, 0x80]) = (1, 1, 1, 1) := by decide

theorem test_precheck_i_blocks :
    judged (frm 0x12 0x00 3 [0x90, 0x00, 0xAA, 0x2B]) = (0, 0, 0, 0) ∧
    judged (frm 0x12 0x40 1 [0x11, 0x42]) = (2, 0, 1, 1) := by decide

theorem test_precheck_s_blocks :
    judged (frm 0x12 0xC3 1 [0x04, 0xD4]) = (0, 0, 1, 0) ∧ judged (frm 0x12 0xC3 0 [0xD1]) = (2, 0, 1, 1) ∧
    judged (frm 0x12 0xE0 0 [0xF2]) = (0, 0, 1, 0) ∧ judged (frm 0x12 0xE0 1 [0x00, 0xF3]) = (2, 0, 1, 1) ∧
    judged (frm 0x12 0xC2 0 [0xD0]) = (2, 0, 1, 1) := by decide

theorem test_precheck_r_blocks :
    judged (frm 0x12 0x80 0 [0x92]) = (0, 0, 1, 0) ∧ judged (frm 0x12 0x80 1 [0x00, 0x93]) = (2, 0, 1, 1) := by decide

theorem test_precheck_reserved :
    judged (frm 0x12 0xC4 1 [0x00, 0xD7]) = (0, 0, 1, 0) ∧ judged (frm 0x12 0x01 0 [0x13]) = (0, 0, 0, 0) := by decide

/-- A reserved S-kind byte with LEN 0 and a reserved R-kind byte with LEN 1 are refused (R105). -/
theorem test_precheck_reserved_length :
    judged (frm 0x12 0xC4 0 [0xD6]) = (2, 0, 1, 1) ∧ judged (frm 0x12 0xA0 1 [0x00, 0xB3]) = (2, 0, 1, 1) := by decide

/-! ## Other settings of the parameters of R10 -/

/-- The sentinel 0xFE: a received 0xFE is no valid frame, a received 0xFF is a reserved S-kind byte. -/
theorem test_param_pcbInvalid :
    let c : Config.Params := { pcbInvalid := 0xFE }
    let s := { judging (frm 0x12 0xFE 0 []) with cfg := c }
    let t := { judging (frm 0x12 0xFF 1 [0x00, 0xEC]) with cfg := c }
    (out (step s) s).rErr = 2 ∧ s.fetch = [0xFF] ∧ (out (step t) t).rErr = 0 ∧ decodeBytes t.fetch = .error (.reservedControlByte 0xFE) := by
  decide

/-- INF_MAX 2: a chunk of two bytes at most, and a LEN of 3 is invalid; LEN_INVALID 9 besides. -/
theorem test_param_inf :
    let c : Config.Params := { infMax := 2, lenInvalid := 9 }
    chunkSize { matching 0 zeroFrame with cfg := c } = 2 ∧ c.lenBad 2 = false ∧ c.lenBad 3 = true ∧ c.lenBad 9 = true := by
  decide

/-- REEVAL_LIMIT 0: an unrecognised pair ends the command at once. -/
theorem test_param_reevalLimit :
    let s := { matching 0x20 (frm 0x12 0x00 0 [0x12]) with cfg := { reevalLimit := 0 } }
    (out (step s) s).resultKind = .hardFail := by decide

/-- CURSOR_WIDTH 8: the operand 258 is latched as 2. -/
theorem test_param_cursorWidth :
    let s := { atHost (.transceive 258 8) with cfg := { cursorWidth := 8 } }
    (out (step s) s).txLen0 = 2 ∧ (out (step s) s).slot0.len = 2 := by decide

/-! ## Rows: the worked examples of 42_rule_engine.md R200 and 43_rule_table.md, one step each -/

theorem test_row_ifs_request :
    let t := out (step (matching 0x00 (frm 0x12 0xC1 1 [0x10, 0xC2]))) State.reset
    wire t.pending = [0x21, 0xE1, 0x01, 0x10, 0xD1] ∧ t.ifs = 16 ∧ t.txsel = 1 ∧ t.active = 0 := by decide

theorem test_row_wtx_request :
    let t := out (step (matching 0x00 (frm 0x12 0xC3 1 [0x04, 0xD4]))) State.reset
    wire t.pending = [0x21, 0xE3, 0x01, 0x04, 0xC7] ∧ t.waitMult = 4 ∧ t.txsel = 1 := by decide

theorem test_row_last_block :
    let t := out (step (matching 0x00 (frm 0x12 0x00 3 [0x90, 0x00, 0xAA, 0x2B]))) State.reset
    t.phase = .done ∧ t.resultKind = .complete ∧ t.resultCount = 3 ∧ t.rxbuf = [(0, 0x90), (1, 0x00), (2, 0xAA)] := by decide

theorem test_row_more_block :
    let t := out (step (matching 0x00 (frm 0x12 0x20 3 [0xA1, 0xA2, 0xA3, 0x91]))) State.reset
    wire t.current = [0x21, 0x90, 0x00, 0xB1] ∧ t.rxPtr = 3 ∧ t.active = 1 := by decide

theorem test_row_more_after_ack :
    let t := out (step (matching 0x90 (frm 0x12 0x60 2 [0xB1, 0xB2, 0x73]))) State.reset
    wire t.current = [0x21, 0x80, 0x00, 0xA1] ∧ t.rxbuf = [(0, 0xB1), (1, 0xB2)] := by decide

theorem test_row_next_chunk :
    let t := out (step (matching 0x20 (frm 0x12 0x90 0 [0x82]))) State.reset
    wire t.current = [0x21, 0x60, 0x04, 0x14, 0x15, 0x16, 0x17, 0x45] ∧ t.txRem = 2 := by decide

theorem test_row_retransmit :
    let t := out (step (matching 0x00 (frm 0x12 0x81 0 [0x93]))) State.reset
    t.retransmits = 1 ∧ t.errors = 0 ∧ t.txsel = 0 ∧ t.phase = .sending := by decide

/-- The fourth Retransmit (R264). -/
theorem test_row_retransmit_bound :
    let t := out (step { matching 0x00 (frm 0x12 0x81 0 [0x93]) with retransmits := 3 }) State.reset
    wire t.current = [0x21, 0xC0, 0x00, 0xE1] ∧ t.retransmits = 0 ∧ t.phase = .sending := by decide

theorem test_row_unexpected_ack :
    let t := out (step (matching 0x00 (frm 0x12 0x90 0 [0x82]))) State.reset
    wire t.pending = [0x21, 0x80, 0x00, 0xA1] ∧ t.txsel = 1 := by decide

theorem test_row_silence :
    let t := out (step { matching 0x00 (frm 0x12 0xFF 0 []) with rErr := 2, errors := 1 }) State.reset
    wire t.pending = [0x21, 0x82, 0x00, 0xA3] ∧ t.txsel = 1 ∧ t.errors = 1 := by decide

theorem test_row_abort_request :
    let t := out (step (matching 0x20 (frm 0x12 0xC2 1 [0x00, 0xD1]))) State.reset
    wire t.current = [0x21, 0xC2, 0x00, 0xE3] ∧ t.active = 1 := by decide

theorem test_row_abort_response :
    let t := out (step (matching 0xC2 (frm 0x12 0xE2 1 [0x00, 0xF1]))) State.reset
    t.phase = .done ∧ t.resultKind = .complete ∧ t.resultCount = 0 := by decide

theorem test_row_abort_failure :
    let t := out (step (matching 0xE2 (frm 0x12 0x80 0 [0x92]))) State.reset
    t.phase = .failed ∧ t.resultKind = .abort := by decide

/-- A new session: IFS_DEFAULT 32 takes the whole message into `I(0,0)` (R270). -/
theorem test_row_resync_response :
    let t := out (step { matching 0xC0 (frm 0x12 0xE0 0 [0xF2]) with seqIf := 0, seqCard := 0, errors := 2 }) State.reset
    t.current.pcb = 0x00 ∧ t.current.len = 10 ∧ t.seqIf = 1 ∧ t.seqCard = 1 ∧ t.errors = 0 ∧ t.txRem = 0 := by decide

/-- R200 (3): the fourth error on an I-block. -/
theorem test_escalation_resync :
    let t := out (step { judging (frm 0x12 0xFF 0 []) with errors := 3 }) State.reset
    t.current.pcb = 0xC0 ∧ t.current.len = 0 ∧ t.errors = 0 ∧ t.phase = .sending := by decide

/-- R200 (4): the sixth error on an abort request, the reset answering ok. -/
theorem test_escalation_reset :
    let t := out (step { running .evaluating .precheck 0xC2 (frm 0x12 0xFF 0 []) with errors := 5 }) State.reset
    t.calls = [.reset] ∧ t.resetDone = true ∧ t.current.pcb = 0x00 ∧ t.phase = .sending := by decide

/-- R200 (5), first pass: an I-block after a chained I-block is forced to the sentinel. -/
theorem test_unrecognised_pair :
    let t := out (step (matching 0x20 (frm 0x12 0x00 0 [0x12]))) State.reset
    t.rxf.pcb = 0xFF ∧ t.pass = true ∧ t.stage = .precheck ∧ t.phase = .evaluating := by decide

/-! ## Phases and the host -/

/-- V20: a poll result of 0, the header with NAD, then LEN + 1 bytes. -/
theorem test_receive_frame :
    let t := out (step { running .receiving .precheck 0x00 zeroFrame with
      polls := [.zero], receives := [[0x12, 0x00, 0x03], [0x90, 0x00, 0xAA, 0x2B]], waitMult := 4 }) State.reset
    wireBytes t.rxf = [0x12, 0x00, 0x03, 0x90, 0x00, 0xAA, 0x2B] ∧ t.waitMult = 1 ∧
    t.calls = [.receive 4 0 true, .receive 3 0 false, .poll 0x12 20] := by decide

/-- V22: a header with LEN 255. -/
theorem test_receive_len_invalid :
    let t := out (step { running .receiving .precheck 0x00 zeroFrame with
      polls := [.one], receives := [[0x00, 0xFF]] }) State.reset
    t.rxf.pcb = 0xFF ∧ t.window = false ∧ t.calls = [.receive 0 0 true, .receive 2 0 false, .poll 0x12 5] := by decide

theorem test_send_frame :
    let t := out (step { running .sending .precheck 0x00 zeroFrame with slot0 := frm 0 0x00 2 [0xDE, 0xAD] }) State.reset
    t.calls = [.transmit [0x21, 0x00, 0x02, 0xDE, 0xAD, 0x50]] ∧ t.phase = .receiving := by decide

/-- R252: the first command after reset sends `I(0,0)`. -/
theorem test_transceive :
    let t := out (step (atHost (.transceive 2 8))) State.reset
    t.phase = .sending ∧ t.slot0.pcb = 0x00 ∧ t.slot0.len = 2 ∧ infBytes t.slot0 = [1, 2] ∧ t.rxRem = 8 := by decide

theorem test_fetch_word_runs_first :
    (out (step (State.reset.withFetchWord 8 0xFF)) State.reset).errors = 1 ∧
    (out (step (State.reset.withFetchWord 16 0xC2E2)) State.reset).phase = .done := by decide

/-! ## Witnesses: states and operands that meet the hypotheses of each statement, clause by clause -/

theorem test_meets_DecodeEncodeRoundTrip : (Instr.ifsWtxReqToInvalid .wtx).wellFormed = true := by decide

theorem test_meets_EncodeDecodeRoundTrip : decodeBytes [0xFF, 0x91] = .ok (.rToInvalid 1 1) := rfl

theorem test_meets_round_trips :
    (Instr.respToInvalid .wtx).wellFormed = true ∧ decodeBytes [0xFF, 0xE3] = .ok (.respToInvalid .wtx) := ⟨rfl, rfl⟩

theorem test_meets_StepRunsDecodedInstruction :
    (let s := judging (frm 0x12 0xE3 1 []);
      s.nextEvent = none ∧ s.phase = .evaluating ∧ s.stage = .precheck ∧ decodeBytes [s.rowByte s.rxf.pcb] = .ok .sWtxResp) ∧
    (let s := matching 0x00 (frm 0x12 0x40 0 []);
      s.nextEvent = none ∧ s.phase = .evaluating ∧ s.stage = .lookup ∧ s.rErr = 0 ∧
        decodeBytes [s.rowByte s.rxf.pcb, s.current.pcb] = .ok (.iToILast 0 1)) ∧
    (let s := { matching 0x00 (frm 0x12 0x40 0 []) with rErr := 1 };
      s.nextEvent = none ∧ s.rErr ≠ 0 ∧ decodeBytes [0xFF, s.current.pcb] = .ok (.iToInvalid 0 0)) :=
  ⟨⟨rfl, rfl, rfl, rfl⟩, ⟨rfl, rfl, rfl, rfl, rfl⟩, ⟨rfl, by decide, rfl⟩⟩

theorem test_meets_PhaseAdvancesAsTheCycle :
    (∃ s t, s.nextEvent = none ∧ step s = .next t ∧ s.phase = .sending) ∧
    (∃ s t, s.nextEvent = none ∧ step s = .next t ∧ s.phase = .receiving) ∧
    (∃ s t, s.nextEvent = none ∧ step s = .next t ∧ s.phase = .evaluating ∧ t.phase = .evaluating) ∧
    (∃ s t, s.nextEvent = none ∧ step s = .next t ∧ s.phase = .idle) ∧
    (∃ s t, s.nextEvent = none ∧ step s = .next t ∧ s.phase = .done) ∧
    (∃ s t, s.nextEvent = none ∧ step s = .next t ∧ s.phase = .failed) :=
  ⟨⟨running .sending .precheck 0 zeroFrame, _, by decide, step_out (by decide), rfl⟩,
    ⟨running .receiving .precheck 0 zeroFrame, _, by decide, step_out (by decide), rfl⟩,
    ⟨judging (frm 0x12 0xFF 0 []), _, by decide, step_out (by decide), rfl, by decide⟩,
    ⟨State.reset, _, by decide, step_out (by decide), rfl⟩,
    ⟨running .done .precheck 0 zeroFrame, _, by decide, step_out (by decide), rfl⟩,
    ⟨running .failed .precheck 0 zeroFrame, _, by decide, step_out (by decide), rfl⟩⟩

/-- `I(0,m)` fresh and `I(1,m)` repeated, one error short of the escalation. -/
theorem test_meets_IBlockAlternates :
    (let s := judging (frm 0x12 0x00 0 [0x12]);
      s.rxf.len ≠ 0xFF ∧ lrcOk s.rxf = true ∧ (0 : Bit) ≠ s.seqCard) ∧
    (let s := { judging (frm 0x12 0x40 0 [0x52]) with errors := 2 };
      s.rxf.len ≠ 0xFF ∧ lrcOk s.rxf = true ∧ (1 : Bit) = s.seqCard ∧ NoEscalation s) := by
  unfold NoEscalation; decide

/-- An R-block with LEN 0 and with LEN 1, the shortest refused. -/
theorem test_meets_RBlockNeedsLengthZero :
    (let s := judging (frm 0x12 0x80 0 [0x92]);
      s.rxf.len ≠ 0xFF ∧ lrcOk s.rxf = true ∧ s.rxf.len = 0) ∧
    (let s := judging (frm 0x12 0x80 1 [0x00, 0x93]);
      s.rxf.len ≠ 0xFF ∧ lrcOk s.rxf = true ∧ s.rxf.len ≠ 0 ∧ NoEscalation s) := by
  unfold NoEscalation; decide

theorem test_meets_SBlockNeedsItsLength :
    (let s := judging (frm 0x12 0xE0 0 [0xF2]);
      s.rxf.len ≠ 0xFF ∧ lrcOk s.rxf = true ∧ s.rxf.len = sBlockLen .resync .response) ∧
    (let s := judging (frm 0x12 0xC3 1 [0x04, 0xD4]);
      s.rxf.len ≠ 0xFF ∧ lrcOk s.rxf = true ∧ s.rxf.len = sBlockLen .wtx .request) ∧
    (let s := judging (frm 0x12 0xC2 0 [0xD0]);
      s.rxf.len ≠ 0xFF ∧ lrcOk s.rxf = true ∧ s.rxf.len ≠ sBlockLen .abort .request ∧ NoEscalation s) := by
  unfold NoEscalation; decide

theorem test_meets_PrecheckFollowsItsSteps :
    (judging (frm 0x12 0xFF 0 [])).rxf.pcb = 0xFF ∧
    (let s := judging (frm 0x12 0x00 0 [0x13]);
      s.rxf.pcb ≠ 0xFF ∧ lrcOk s.rxf = false) ∧
    (let s := judging (frm 0x12 0x90 0 [0x82]);
      s.rxf.pcb ≠ 0xFF ∧ lrcOk s.rxf = true ∧ s.kind s.rxf.pcb = .r ∧ s.kind s.rxf.pcb ≠ .i) ∧
    (let s := judging (frm 0x12 0x01 0 [0x13]);
      s.kind s.rxf.pcb = .i ∧ lrcOk s.rxf = true) := by decide

/-- A block of each refused kind, in a state with the given number of errors. -/
theorem refused_silence (s : State) : RefusedReception .invalid 2 s s := .inl ⟨rfl, rfl, rfl⟩

theorem refused_checksum {s : State} (hl : s.rxf.len ≠ 0xFF) (hc : lrcOk s.rxf = false) : RefusedReception .i00 1 s s :=
  .inr (.inl ⟨rfl, by decide, hl, hc, rfl, rfl⟩)

theorem refused_repeat {s : State} (hl : s.rxf.len ≠ 0xFF) (hc : lrcOk s.rxf = true) (h : s.seqCard = 1) :
    RefusedReception .i10 2 s (sentRecorded s) :=
  .inr (.inr ⟨hl, hc, .inr (.inr ⟨1, 0, rfl, h.symm⟩), rfl, rfl⟩)

theorem refused_rLength {s : State} (hl : s.rxf.len ≠ 0xFF) (hc : lrcOk s.rxf = true) (h : s.rxf.len ≠ 0) :
    RefusedReception .r00 2 s (sentRecorded s) :=
  .inr (.inr ⟨hl, hc, .inr (.inl ⟨0, 0, rfl, h⟩), rfl, rfl⟩)

theorem refused_sLength {s : State} (hl : s.rxf.len ≠ 0xFF) (hc : lrcOk s.rxf = true) (h : s.rxf.len ≠ 1) :
    RefusedReception .sAbortReq 2 s (sentRecorded s) :=
  .inr (.inr ⟨hl, hc, .inl ⟨.abort, .request, rfl, h⟩, rfl, rfl⟩)

/-- One error short of each limit: silence, a damaged block, a repeated N(S), an R-block with LEN 1, an S-block with LEN 0. -/
theorem test_meets_FaultyReceptionIsCounted :
    (∃ s u, RefusedReception .invalid 2 s u ∧ NoEscalation s) ∧ (∃ s u, RefusedReception .i00 1 s u ∧ NoEscalation s) ∧
    (∃ s u, RefusedReception .i10 2 s u ∧ NoEscalation s) ∧ (∃ s u, RefusedReception .r00 2 s u ∧ NoEscalation s) ∧
    (∃ s u, RefusedReception .sAbortReq 2 s u ∧ NoEscalation s) :=
  ⟨⟨{ judging (frm 0x12 0xFF 0 []) with errors := 2 }, _, refused_silence _, by unfold NoEscalation; decide⟩,
    ⟨{ running .evaluating .precheck 0xC2 (frm 0x12 0x00 0 [0x13]) with errors := 4 }, _,
      refused_checksum (by decide) (by decide), by unfold NoEscalation; decide⟩,
    ⟨{ judging (frm 0x12 0x40 1 [0x11, 0x42]) with errors := 2 }, _, refused_repeat (by decide) (by decide) rfl,
      by unfold NoEscalation; decide⟩,
    ⟨judging (frm 0x12 0x80 1 [0x00, 0x93]), _, refused_rLength (by decide) (by decide) (by decide),
      by unfold NoEscalation; decide⟩,
    ⟨judging (frm 0x12 0xC2 0 [0xD0]), _, refused_sLength (by decide) (by decide) (by decide),
      by unfold NoEscalation; decide⟩⟩

theorem test_meets_ErrorsOnIBlockEscalateToResync :
    (∃ s u, RefusedReception .invalid 2 s u ∧ ResyncEscalation s) ∧ (∃ s u, RefusedReception .i00 1 s u ∧ ResyncEscalation s) ∧
    (∃ s u, RefusedReception .sAbortReq 2 s u ∧ ResyncEscalation s) :=
  ⟨⟨{ judging (frm 0x12 0xFF 0 []) with errors := 3 }, _, refused_silence _, by unfold ResyncEscalation; decide⟩,
    ⟨{ judging (frm 0x12 0x00 0 [0x13]) with errors := 4 }, _, refused_checksum (by decide) (by decide),
      by unfold ResyncEscalation; decide⟩,
    ⟨{ judging (frm 0x12 0xC2 0 [0xD0]) with errors := 3 }, _, refused_sLength (by decide) (by decide) (by decide),
      by unfold ResyncEscalation; decide⟩⟩

theorem test_meets_ExhaustedBudgetWithoutResetFails :
    (∃ s u, RefusedReception .invalid 2 s u ∧ ResetEscalation s ∧ (s.resetDone = true ∨ s.opt.hasReset = false)) ∧
    (∃ s u, RefusedReception .r00 2 s u ∧ ResetEscalation s ∧ (s.resetDone = true ∨ s.opt.hasReset = false)) :=
  ⟨⟨{ running .evaluating .precheck 0xC2 (frm 0x12 0xFF 0 []) with errors := 5, resetDone := true }, _, refused_silence _,
      by unfold ResetEscalation; decide, by decide⟩,
    ⟨{ running .evaluating .precheck 0xC2 (frm 0x12 0x80 1 [0x00, 0x93]) with errors := 5, resetDone := true }, _,
      refused_rLength (by decide) (by decide) (by decide), by unfold ResetEscalation; decide, by decide⟩⟩

theorem test_meets_ExhaustedBudgetResetsTheDevice :
    (∃ s u, RefusedReception .invalid 2 s u ∧ ResetEscalation s ∧ s.resetDone = false ∧ s.opt.hasReset = true ∧
      s.resets = .ok :: [] ∧ FirstChunkWritten s.cfg s.txLen0 s.txbuf) ∧
    (∃ s u, RefusedReception .i10 2 s u ∧ ResetEscalation s ∧ s.resetDone = false ∧ s.opt.hasReset = true ∧
      s.resets = .unsupported :: [] ∧ ResetAnswer.unsupported ≠ .ok) :=
  ⟨⟨{ running .evaluating .precheck 0xC2 (frm 0x12 0xFF 0 []) with errors := 5 }, _, refused_silence _,
      by unfold ResetEscalation; decide, rfl, rfl, rfl, by unfold FirstChunkWritten; decide⟩,
    ⟨{ running .evaluating .precheck 0xC2 (frm 0x12 0x40 1 [0x11, 0x42]) with errors := 5, resets := [.unsupported] }, _,
      refused_repeat (by decide) (by decide) rfl, by unfold ResetEscalation; decide, rfl, rfl, rfl, by decide⟩⟩

theorem test_meets_BlockMeaningIsThePrecheck :
    let s := judging (frm 0x12 0xE1 0 [])
    decodeBytes [s.rowByte s.rxf.pcb] = .ok .sIfsResp ∧ s.rxf.len ≠ 0xFF := ⟨rfl, by decide⟩

theorem test_meets_ReservedBlockIsJudgedByKind :
    (let s := judging (frm 0x12 0x01 0 [0x13]);
      s.nextEvent = none ∧ s.phase = .evaluating ∧ s.stage = .precheck ∧ decodeBlock (s.rowByte s.rxf.pcb) = none ∧
        s.rxf.len ≠ 0xFF ∧ lrcOk s.rxf = true ∧ s.kind s.rxf.pcb = .i ∧ nsOf s.rxf.pcb ≠ s.seqCard) ∧
    (let s := judging (frm 0x12 0xA0 0 [0xB2]);
      decodeBlock (s.rowByte s.rxf.pcb) = none ∧ lrcOk s.rxf = true ∧ s.kind s.rxf.pcb = .r ∧ s.rxf.len = 0) ∧
    (let s := judging (frm 0x12 0xC4 1 [0x00, 0xD7]);
      decodeBlock (s.rowByte s.rxf.pcb) = none ∧ lrcOk s.rxf = true ∧ s.kind s.rxf.pcb = .s ∧ s.rxf.len = 1) := by decide

/-- The refusing clauses: a damaged byte, a repeated N(S), an R-kind byte with LEN 1, an S-kind byte with LEN 0. -/
theorem test_meets_ReservedBlockRefused :
    (let s := judging (frm 0x12 0xC4 1 [0x00, 0xD6]);
      decodeBlock (s.rowByte s.rxf.pcb) = none ∧ lrcOk s.rxf = false ∧ NoEscalation s) ∧
    (let s := judging (frm 0x12 0x41 0 [0x53]);
      decodeBlock (s.rowByte s.rxf.pcb) = none ∧ lrcOk s.rxf = true ∧ s.kind s.rxf.pcb = .i ∧
        nsOf s.rxf.pcb = s.seqCard ∧ NoEscalation s) ∧
    (let s := judging (frm 0x12 0xA0 1 [0x00, 0xB3]);
      decodeBlock (s.rowByte s.rxf.pcb) = none ∧ lrcOk s.rxf = true ∧ s.kind s.rxf.pcb = .r ∧ s.rxf.len ≠ 0 ∧
        NoEscalation s) ∧
    (let s := judging (frm 0x12 0xC4 0 [0xD6]);
      decodeBlock (s.rowByte s.rxf.pcb) = none ∧ lrcOk s.rxf = true ∧ s.kind s.rxf.pcb = .s ∧ s.rxf.len ≠ 1 ∧
        NoEscalation s) := by unfold NoEscalation; decide

theorem test_meets_AbortRequestIsAnsweredByAbortRequest :
    abortRequestRow (.iMoreToAbortReq 1) = true ∧ abortRequestRow (.rToAbortReq 0 3) = true := by decide

/-- Room for the block, and none at all. -/
theorem test_meets_LastBlockIsDeliveredAndCompletes :
    (let s := matching 0x00 (frm 0x12 0x00 3 [1, 2, 3]);
      lastBlockRow (.iToILast 0 0) = true ∧ s.kind s.rxf.pcb = .i ∧ s.rxPtr + s.rxRem = s.rxCap0) ∧
    (let s := { matching 0x80 (frm 0x12 0x40 254 []) with rxPtr := 8, rxRem := 0 };
      lastBlockRow (.rToILast 0 0 1) = true ∧ s.kind s.rxf.pcb = .i ∧ s.rxPtr + s.rxRem = s.rxCap0) := by decide

theorem test_meets_MoreBlockIsDeliveredAndAcknowledged :
    let s := matching 0x00 (frm 0x12 0x60 3 [1, 2, 3])
    moreBlockRow (.iToIMore 0 1) = some 1 ∧ moreBlockRow (.rToIMore 1 0 0) = some 0 ∧ s.kind s.rxf.pcb = .i ∧
    s.rxPtr + s.rxRem = s.rxCap0 := by decide

/-- Four bytes of six, and the last two of six. -/
theorem test_meets_NextChunkIsFilledAndSent :
    (let s := matching 0x20 (frm 0x12 0x90 0 []);
      nextChunkRow .i01ToR10 = some 1 ∧ s.txPtr + s.txRem = s.txLen0 ∧
        ∀ k, k < nextSize s → (s.txbuf.read (s.txPtr + k)).isSome = true) ∧
    (let s := { matching 0x60 (frm 0x12 0x80 0 []) with txPtr := 8, txRem := 2 };
      nextChunkRow .i11ToR00 = some 0 ∧ s.txPtr + s.txRem = s.txLen0 ∧
        ∀ k, k < nextSize s → (s.txbuf.read (s.txPtr + k)).isSome = true) := by decide

theorem test_meets_RetransmitResendsTheCurrentSlot :
    askedAgainRow (.i0mToR0e 0 0) = true ∧ askedAgainRow .i11ToR03 = true ∧
    (let s := { matching 0x00 zeroFrame with retransmits := 2 };
      s.retransmits < s.cfg.retransmitLimit) := by decide

theorem test_meets_UnansweredBlocksAreRetransmitted :
    unansweredRow .resyncReqToInvalid = true ∧ unansweredRow (.rToInvalid 1 0) = true ∧
    (let s := { matching 0xC0 zeroFrame with retransmits := 2 };
      s.retransmits < s.cfg.retransmitLimit) := by decide

theorem test_meets_RetransmitBoundEscalates :
    (let s := { matching 0x90 zeroFrame with retransmits := 3 };
      unansweredRow (.rToInvalid 1 0) = true ∧ s.cfg.retransmitLimit ≤ s.retransmits ∧ s.current.pcb ≠ 0xC0) ∧
    (let s := { matching 0xC0 zeroFrame with retransmits := 3 };
      unansweredRow .resyncReqToInvalid = true ∧ s.cfg.retransmitLimit ≤ s.retransmits ∧ s.current.pcb = 0xC0) := by decide

theorem test_meets_ErrorRBlockIsSentOnce :
    errorRRow (.i00ToR1e 0) = true ∧ errorRRow (.ifsWtxReqToInvalid .ifs) = true ∧ errorRRow .abortReqToInvalid = true := by
  decide

theorem test_meets_ResyncResponseRestartsTheSession :
    let s := matching 0xC0 (frm 0x12 0xE0 0 [])
    ∀ k, k < firstChunk s.cfg s.txLen0 → (s.txbuf.read k).isSome = true := by decide

/-- One state for each clause; the runs of three and six bytes leave the buffer, or meet an unwritten byte, in their middle and at
their start. -/
theorem test_meets_WhereAMeaningStops :
    (let s := judging (frm 0x12 0x00 0xFF []);
      (encodeBlock .i00).isSome = true ∧ Instr.i00 ≠ .invalid ∧ s.rxf.len = 0xFF) ∧
    (let s := judging (frm 0x12 0x04 0xFF []);
      s.nextEvent = none ∧ s.phase = .evaluating ∧ s.stage = .precheck ∧ decodeBlock (s.rowByte s.rxf.pcb) = none ∧
        s.rxf.len = 0xFF) ∧
    (let s := { running .sending .precheck 0x00 zeroFrame with slot0 := frm 0x21 0x00 0xFF [] };
      s.nextEvent = none ∧ s.phase = .sending ∧ (s.slot s.txsel).len = 0xFF) ∧
    (let s := { matching 0x00 (frm 0x12 0x00 3 []) with rxPtr := 7, rxRem := 3 };
      lastBlockRow (.iToILast 0 0) = true ∧ s.kind s.rxf.pcb = .i ∧ 0 < min s.rxf.len.toNat s.rxRem ∧ s.rxPtr < s.rxCap0 ∧
        s.rxCap0 < s.rxPtr + min s.rxf.len.toNat s.rxRem) ∧
    (let s := { matching 0x20 (frm 0x12 0x90 0 []) with ifs := 6, txbuf := [(4, 0x10), (5, 0x11)] };
      (nextChunkRow .i01ToR10).isSome = true ∧ s.txPtr + 2 < s.txLen0 ∧ 2 < nextSize s ∧
        (∀ j, j < 2 → (s.txbuf.read (s.txPtr + j)).isSome = true) ∧ s.txbuf.read (s.txPtr + 2) = none) ∧
    (let s := { matching 0x20 (frm 0x12 0x90 0 []) with txPtr := 8 };
      (nextChunkRow .i01ToR10).isSome = true ∧ 0 < nextSize s ∧ s.txPtr < s.txLen0 ∧ s.txLen0 < s.txPtr + nextSize s ∧
        (s.txbuf.read 8).isSome = true ∧ (s.txbuf.read 9).isSome = true) ∧
    (let s := { matching 0xC0 (frm 0x12 0xE0 0 []) with txbuf := [(0, 0x10)] };
      1 < firstChunk s.cfg s.txLen0 ∧ (∀ j, j < 1 → (s.txbuf.read (0 + j)).isSome = true) ∧ s.txbuf.read (0 + 1) = none) ∧
    (let s := atHost (.transceive 3 8);
      s.nextEvent = some (.transceive 3 8) ∧ s.busy = false ∧ s.optWritten = ⟨true, true, true, true, true⟩ ∧
        2 < firstChunk s.cfg (s.cfg.clip 3) ∧ (∀ j, j < 2 → (s.txbuf.read (0 + j)).isSome = true) ∧
        s.txbuf.read (0 + 2) = none) := by decide

/-- The device reset after an exhausted budget, with the second byte of TXBUF unwritten: a refused sentinel; and before a step, a
refused reserved block and a refused sentinel. -/
theorem test_meets_ResetStops :
    (∃ s u, RefusedReception .invalid 2 s u ∧ ResetEscalation s ∧ s.resetDone = false ∧ s.opt.hasReset = true ∧
      s.resets = .ok :: [] ∧ FirstUnwritten s.txbuf 0 (firstChunk s.cfg s.txLen0) 1) ∧
    ∀ b : Bool, ∃ s, s.nextEvent = none ∧ s.phase = .evaluating ∧ s.stage = .precheck ∧
      (if b then decodeBlock (s.rowByte s.rxf.pcb) = none ∧ s.rxf.len ≠ 0xFF else s.rxf.pcb = s.cfg.pcbInvalid) ∧
      (precheck s.takeEvent).1 ≠ 0 ∧ ResetEscalation s ∧ s.resetDone = false ∧ s.opt.hasReset = true ∧
      s.resets = .ok :: [] ∧ FirstUnwritten s.txbuf 0 (firstChunk s.cfg s.txLen0) 1 :=
  ⟨⟨{ running .evaluating .precheck 0xC2 (frm 0x12 0xFF 0 []) with errors := 5, txbuf := [(0, 0x10)] }, _, refused_silence _,
    by unfold ResetEscalation; decide, rfl, rfl, rfl, by unfold FirstUnwritten; decide⟩,
  fun b => ⟨{ running .evaluating .precheck 0xC2 (frm 0x12 (if b then 0x04 else 0xFF) 0 []) with
      errors := 5, txbuf := [(0, 0x10)] },
    by cases b <;> decide, rfl, rfl, by cases b <;> decide, by cases b <;> decide, by unfold ResetEscalation; cases b <;> decide,
    rfl, rfl, rfl, by unfold FirstUnwritten; cases b <;> decide⟩⟩

theorem test_meets_UnrecognisedPairIsForcedThenHardFails :
    (let s := matching 0x20 (frm 0x12 0x00 0 []);
      s.nextEvent = none ∧ s.phase = .evaluating ∧ s.stage = .lookup ∧
        decodePair s.current.pcb (if s.rErr ≠ 0 then 0xFF else s.rowByte s.rxf.pcb) = none ∧ s.rErr = 0 ∧ s.rxf.pcb ≠ 0xFF ∧
        s.pass = false) ∧
    (let s := { matching 0x04 (frm 0x12 0x00 0 []) with rErr := 2 };
      s.nextEvent = none ∧ s.phase = .evaluating ∧ s.stage = .lookup ∧
        decodePair s.current.pcb (if s.rErr ≠ 0 then 0xFF else s.rowByte s.rxf.pcb) = none ∧ s.rErr ≠ 0) := by decide

theorem test_meets_LookupNeverCountsAnError :
    ∃ s t, s.nextEvent = none ∧ s.phase = .evaluating ∧ s.stage = .lookup ∧ step s = .next t ∧ t.phase = .evaluating :=
  ⟨matching 0x20 (frm 0x12 0x00 0 []), _, by decide, rfl, rfl, step_out (by decide), by decide⟩

/-- Sending, of the current slot and of the pending one, LEN 254 at most. -/
theorem test_meets_Sending :
    (let s := running .sending .precheck 0x00 zeroFrame;
      s.nextEvent = none ∧ s.phase = .sending ∧ s.opt.hook = none ∧ (s.slot s.txsel).len ≠ 0xFF) ∧
    (let s := { running .sending .precheck 0x00 zeroFrame with txsel := 1, slot1 := frm 0 0xE1 0xFE [] };
      s.nextEvent = none ∧ s.phase = .sending ∧ s.opt.hook = none ∧ (s.slot s.txsel).len ≠ 0xFF) := by decide

theorem test_meets_TransmittedFrame :
    ∃ s t u, s.opt.hook = none ∧ encodeSlot 0 s = .ok t ∧ encodeSlot 0 t = .ok u :=
  ⟨running .sending .precheck 0x00 zeroFrame, _, _, rfl, rfl, rfl⟩

theorem test_meets_ChecksumTestIsXorZero : (frm 0x21 0x00 0xFE []).len ≠ 0xFF := by decide

/-- A payload byte and the checksum byte itself, the ends of the range of `j`. -/
theorem test_meets_OneDamagedByteIsDetected :
    let f := frm 0x12 0x00 3 [0x90, 0x00, 0xAA, 0x2B]
    f.len ≠ 0xFF ∧ lrcOk f = true ∧ (1 : Byte) ≠ 0 ∧ 0 ≤ f.len.toNat ∧ 3 ≤ f.len.toNat := by decide

theorem test_meets_Receiving :
    let s := { running .receiving .precheck 0x00 zeroFrame with polls := [.error] }
    s.nextEvent = none ∧ s.phase = .receiving ∧ s.window = false ∧ s.polls = .error :: [] := by decide

/-- A frame with LEN 0 after a poll result of 1, and one with LEN 3 after 0. -/
theorem test_meets_ArrivingFrameIsReceived :
    (let s := { running .receiving .precheck 0x00 zeroFrame with polls := [.one], receives := [[0x80, 0x00], [0x92]] };
      s.nextEvent = none ∧ s.phase = .receiving ∧ s.opt.hook = none ∧ (0x00 : Byte) ≠ 0xFF ∧
        [(0x92 : Byte)].length = (0x00 : Byte).toNat + 1 ∧ s.polls = (if true then .one else .zero) :: [] ∧
        s.receives = (if true then [0x80, 0x00] else [0x12, 0x80, 0x00]) :: [0x92] :: []) ∧
    (let s := { running .receiving .precheck 0x00 zeroFrame with
        polls := [.zero], receives := [[0x12, 0x00, 0x03], [0x90, 0x00, 0xAA, 0x2B]] };
      s.polls = (if false then .one else .zero) :: [] ∧
        s.receives = (if false then [0x00, 0x03] else [0x12, 0x00, 0x03]) :: [0x90, 0x00, 0xAA, 0x2B] :: []) := by decide

theorem test_meets_LengthInvalidBecomesTheSentinel :
    (let s := { running .receiving .precheck 0x00 zeroFrame with polls := [.one], receives := [[0x00, 0xFF]] };
      s.nextEvent = none ∧ s.phase = .receiving ∧ s.polls = (if true then .one else .zero) :: [] ∧
        s.receives = (if true then [0x00, 0xFF] else [0x12, 0x00, 0xFF]) :: []) ∧
    (let s := { running .receiving .precheck 0x00 zeroFrame with polls := [.zero], receives := [[0x12, 0x00, 0xFF]] };
      s.polls = (if false then .one else .zero) :: [] ∧
        s.receives = (if false then [0x00, 0xFF] else [0x12, 0x00, 0xFF]) :: []) := by decide

theorem test_meets_HookRunsInPlace :
    (let s := { running .sending .precheck 0x00 zeroFrame with opt := { vectorOptions with hook := some 7 } };
      s.nextEvent = none ∧ s.phase = .sending ∧ s.opt.hook = some 7 ∧ (s.slot s.txsel).len ≠ 0xFF) ∧
    (let s := { running .receiving .precheck 0x00 zeroFrame with
        opt := { vectorOptions with hook := some 7 }, polls := [.zero], receives := [[0x12, 0x80, 0x00], [0x92]] };
      s.nextEvent = none ∧ s.phase = .receiving ∧ s.opt.hook = some 7 ∧ s.cfg.lenBad 0x00 = false ∧
        [(0x92 : Byte)].length = (0x00 : Byte).toNat + 1 ∧ s.polls = (if false then .one else .zero) :: [] ∧
        s.receives = (if false then [0x80, 0x00] else [0x12, 0x80, 0x00]) :: [0x92] :: []) ∧
    (let s := { running .receiving .precheck 0x00 zeroFrame with
        opt := { vectorOptions with hook := some 7 }, polls := [.one], receives := [[0x80, 0x00], [0x92]] };
      s.nextEvent = none ∧ s.phase = .receiving ∧ s.opt.hook = some 7 ∧ s.cfg.lenBad 0x00 = false ∧
        [(0x92 : Byte)].length = (0x00 : Byte).toNat + 1 ∧ s.polls = (if true then .one else .zero) :: [] ∧
        s.receives = (if true then [0x80, 0x00] else [0x12, 0x80, 0x00]) :: [0x92] :: []) := by decide

/-- A command of two bytes, and one of none. -/
theorem test_meets_TransceiveStartsACommand :
    (let s := atHost (.transceive 2 8);
      s.nextEvent = some (.transceive 2 8) ∧ s.busy = false ∧ s.optWritten = ⟨true, true, true, true, true⟩ ∧
        ∀ k, k < firstChunk s.cfg 2 → (s.txbuf.read k).isSome = true) ∧
    (let s := atHost (.transceive 0 0);
      s.nextEvent = some (.transceive 0 0) ∧ s.busy = false ∧
        ∀ k, k < firstChunk s.cfg 0 → (s.txbuf.read k).isSome = true) := by decide

theorem test_meets_HostEventsRefusedOutOfPlace :
    (let s := busyHost (.transceive 2 8);
      s.busy = true ∧ s.nextEvent = some (.transceive 2 8)) ∧
    (let s := busyHost .hardwareReset;
      s.busy = true ∧ s.nextEvent = some .hardwareReset) ∧
    (let s := busyHost (.writeHook none);
      s.busy = true ∧ s.nextEvent = some (.writeHook none)) ∧
    (let s := busyHost (.writeRx 0 1);
      s.busy = true ∧ s.nextEvent = some (.writeRx 0 1)) ∧
    (let s := { atHost (.transceive 2 8) with optWritten := ⟨true, true, true, true, false⟩ };
      s.busy = false ∧ s.nextEvent = some (.transceive 2 8) ∧ s.optWritten ≠ ⟨true, true, true, true, true⟩) := by decide

theorem test_meets_HardwareResetReinitialises :
    let s := atHost .hardwareReset
    s.nextEvent = some .hardwareReset ∧ s.busy = false := by decide

theorem test_meets_HostWritesOnePlace :
    (atHost (.writeTx 1 9)).nextEvent = some (.writeTx 1 9) ∧ (atHost (.writeTx 1 9)).busy = false ∧
    (atHost (.writeRx 0 9)).nextEvent = some (.writeRx 0 9) ∧ (atHost (.writeHostAddr 9)).nextEvent = some (.writeHostAddr 9) ∧
    (atHost (.writeNodeAddr 9)).nextEvent = some (.writeNodeAddr 9) ∧
    (atHost (.writeBwtBase 9)).nextEvent = some (.writeBwtBase 9) ∧
    (atHost (.writeHook (some 1))).nextEvent = some (.writeHook (some 1)) ∧
    (atHost (.writeHasReset true)).nextEvent = some (.writeHasReset true) ∧ (atHost (.writeHasReset true)).busy = false := by
  decide

/-- The running states of these tests meet the invariant, at the edge of the error budget too. -/
theorem running_inv : EngineInv { running .evaluating .precheck 0x00 (frm 0x12 0xFF 0 []) with errors := 5, retransmits := 3 } := by
  constructor <;> decide

theorem test_meets_StepKeepsTheEngineInvariant : ∃ s t, EngineInv s ∧ step s = .next t :=
  ⟨_, _, running_inv, step_out (by decide)⟩

theorem test_meets_LastSentByteStaysLegal :
    ∃ s t, EngineInv s ∧ LastSentInv s ∧ s.opt.hook = none ∧ 1 ≤ s.cfg.reevalLimit ∧ s.busy = true ∧ step s = .next t ∧
      t.phase = .failed :=
  ⟨{ running .evaluating .precheck 0x00 (frm 0x12 0xFF 0 []) with errors := 5, resetDone := true }, _,
    by constructor <;> decide,
    by unfold LastSentInv; decide, by decide, by decide, by decide, step_out (by decide), by decide⟩

theorem test_meets_EngineStepAlwaysCompletes :
    ∃ s, EngineInv s ∧ s.nextEvent = none ∧ TxReady s :=
  ⟨_, running_inv, by decide, by unfold TxReady; decide⟩

theorem test_meets_EngineNeverWritesTheHostsState :
    ∃ s t a, s.nextEvent = none ∧ step s = .next t ∧ s.rxCap0 ≤ a :=
  ⟨matching 0x00 (frm 0x12 0x00 3 [1, 2, 3]), _, 8, by decide, step_out (by decide), by decide⟩

/-- Both sequence bits move in a pre-check, and both move with a session reset. -/
theorem test_meets_SequenceBitsHaveTwoWriters :
    (∃ s t, s.nextEvent = none ∧ step s = .next t ∧ t.seqIf ≠ s.seqIf ∧ t.seqCard ≠ s.seqCard) ∧
    (∃ s t, s.nextEvent = none ∧ s.stage = .lookup ∧ step s = .next t ∧ t.seqIf ≠ s.seqIf ∧ t.seqCard ≠ s.seqCard) :=
  ⟨⟨judging (frm 0x12 0x00 0 [0x12]), _, by decide, step_out (by decide), by decide, by decide⟩,
    ⟨{ matching 0xC0 (frm 0x12 0xE0 0 [0xF2]) with seqIf := 0, seqCard := 0 }, _, by decide, rfl, step_out (by decide),
      by decide, by decide⟩⟩

/-- One step calls the reset, another does not; a command start. -/
theorem test_meets_DeviceResetAtMostOnce :
    (∃ s t, s.nextEvent = none ∧ step s = .next t ∧ resetCalls t.calls = 1) ∧
    (∃ s t, s.nextEvent = none ∧ step s = .next t ∧ resetCalls t.calls = 0) ∧
    (∃ s t, s.nextEvent = some (.transceive 2 8) ∧ step s = .next t) :=
  ⟨⟨{ running .evaluating .precheck 0xC2 (frm 0x12 0xFF 0 []) with errors := 5 }, _, by decide, step_out (by decide), by decide⟩,
    ⟨judging (frm 0x12 0xFF 0 []), _, by decide, step_out (by decide), by decide⟩,
    ⟨atHost (.transceive 2 8), _, by decide, step_out (by decide)⟩⟩

theorem test_meets_MoreFlagIsComputed :
    ∃ s t n, s.kind (s.slot 0).pcb = .i ∧ fillOutbound 0 s = .ok (n, t) :=
  ⟨matching 0x60 zeroFrame, _, _, by decide, rfl⟩

/-- A message of three bytes at IFS 2, and the empty message. -/
theorem test_meets_ChunksAreTheMessage :
    (let s := { matching 0x00 zeroFrame with ifs := 2, txLen0 := 3, txPtr := 0, txRem := 3 };
      (∀ m, s.kind (withM s.slot0.pcb m) = .i) ∧ s.ifs ≠ 0 ∧ s.txPtr = 0 ∧ s.txRem = s.txLen0 ∧
        s.txLen0 = [(0x10 : Byte), 0x11, 0x12].length ∧
        ∀ k, k < 3 → s.txbuf.read k = [(0x10 : Byte), 0x11, 0x12][k]?) ∧
    (let s := { matching 0x00 zeroFrame with ifs := 1, txLen0 := 0, txPtr := 0, txRem := 0 };
      (∀ m, s.kind (withM s.slot0.pcb m) = .i) ∧ s.ifs ≠ 0 ∧ s.txPtr = 0 ∧ s.txRem = s.txLen0 ∧
        s.txLen0 = ([] : List Byte).length) := by
  decide

theorem test_meets_SilentCardEndsTheCommand :
    let s := { running .sending .precheck 0x00 zeroFrame with polls := List.replicate 8 .error }
    s.host = [] ∧ s.phase = .sending ∧ s.kind s.current.pcb = .i ∧ isDefined s.current.pcb = true ∧ s.errors = 0 ∧
    s.retransmits = 0 ∧ s.opt.hook = none ∧ s.cfg.errorResetLimit = 6 ∧ s.cfg.errorResyncLimit = 4 ∧
    s.cfg.retransmitLimit = 3 ∧ s.slot0.len ≠ 0xFF ∧ s.slot1.len ≠ 0xFF ∧ s.polls = List.replicate 8 .error ++ [] := by decide

end Sys2Proof.Tests
end

