-- ==== Sys2Proof/Proofs/DeviceReset.lean ====
section
/-! PROOF. The device reset of a command (R34, R269): what each operation of the engine leaves of the calls of `T.reset`, of
RESET_DONE and of HAS_RESET, and from that the statement about every step. -/

namespace Sys2Proof.Proofs

open Sys2Proof.Machine Sys2Proof.Claims Sys2Proof.Laws

/-! ## The record of the device reset -/

/-- The part of the state R34 speaks of: how often `T.reset` was called, RESET_DONE, and the sampled HAS_RESET. -/
structure ResetRecord where
  called : Nat
  done : Bool
  offered : Bool

/-- The device reset's record in a state. -/
def resetRecord (s : State) : ResetRecord := ⟨resetCalls s.calls, s.resetDone, s.opt.hasReset⟩

/-- What one step may do to the record: nothing, or the one call that an offered reset allows while RESET_DONE is 0. -/
inductive ResetRecord.Step : ResetRecord → ResetRecord → Prop
  | kept (r : ResetRecord) : Step r r
  | reset (n : Nat) : Step ⟨n, false, true⟩ ⟨n + 1, true, true⟩

theorem ResetRecord.Step.of_eq {r q : ResetRecord} (h : q = r) : Step r q := h ▸ .kept r

/-- A step of the record, said in the words of the state's fields. -/
theorem resetRecord_step_fields {s t : State} (h : (resetRecord s).Step (resetRecord t)) :
    (resetCalls t.calls = resetCalls s.calls ∧ t.resetDone = s.resetDone) ∨
    (resetCalls t.calls = resetCalls s.calls + 1 ∧ s.resetDone = false ∧ t.resetDone = true ∧ s.opt.hasReset = true) := by
  generalize hs : resetRecord s = r at h
  generalize ht : resetRecord t = q at h
  cases h with
  | kept =>
    subst hs
    injection ht with hcalls hdone
    exact .inl ⟨hcalls, hdone⟩
  | reset n =>
    injection hs with hcalls hdone hoffered
    injection ht with hcalls' hdone'
    exact .inr ⟨by rw [hcalls, hcalls'], hdone, hdone', hoffered⟩

/-! ## Operations that keep the record -/

@[simp] theorem resetRecord_takeEvent (s : State) : resetRecord s.takeEvent = resetRecord s := rfl

@[simp] theorem resetRecord_actRetransmit (s : State) : resetRecord (actRetransmit s) = resetRecord s := by
  rcases retransmit_cases s with ⟨-, h⟩ | ⟨-, -, h⟩ | ⟨-, -, h⟩ <;> rw [h] <;> rfl

@[simp] theorem resetRecord_precheck (s : State) : resetRecord (precheck s).2 = resetRecord s := by
  rw [(precheck_shape s).2]; rfl

@[simp] theorem resetRecord_poll (a : Byte) (n : Nat) (s : State) : resetRecord (poll a n s).2 = resetRecord s := by
  rw [poll_state]; rfl

@[simp] theorem resetRecord_receive (n : Nat) (c : Bool) (s : State) :
    resetRecord (receive n c s).2 = resetRecord s := by
  rw [receive_state]; rfl

@[simp] theorem resetRecord_decodeBody (s : State) : resetRecord (decodeBody s).2 = resetRecord s := by
  unfold decodeBody
  split
  · exact resetRecord_receive _ _ s
  · exact resetRecord_receive _ _ s

@[simp] theorem resetRecord_decodeFrame (n : Nat) (s : State) : resetRecord (decodeFrame n s).2 = resetRecord s := by
  have hpoll := resetRecord_poll s.opt.hostAddr n s
  unfold decodeFrame
  split <;> rename_i u hu <;> rw [hu] at hpoll
  · exact hpoll
  · exact (resetRecord_decodeBody _).trans ((resetRecord_receive 2 false u).trans hpoll)
  · exact (resetRecord_decodeBody _).trans ((resetRecord_receive 3 false u).trans hpoll)

@[simp] theorem resetRecord_substituteSentinel (r : Option Byte × State) :
    resetRecord (substituteSentinel r) = resetRecord r.2 := by
  unfold substituteSentinel; split <;> rfl

@[simp] theorem resetRecord_receivePhase (s : State) : resetRecord (receivePhase s) = resetRecord s :=
  (resetRecord_substituteSentinel _).trans (resetRecord_decodeFrame _ _)

theorem resetRecord_sendPhase {s t : State} (h : sendPhase s = .ok t) : resetRecord t = resetRecord s := by
  unfold sendPhase encodeSlot at h
  split at h
  · cases h
  · rename_i u hu
    split at hu
    · cases hu
    · cases hu; cases h; rfl

theorem resetRecord_drainInbound {s t : State} (h : drainInbound s = .ok t) : resetRecord t = resetRecord s := by
  rcases drain_inv h with ⟨-, rfl⟩ | ⟨-, m, -, rfl⟩ <;> rfl

theorem resetRecord_deliverLast {s t : State} (h : deliverLast s = .ok t) : resetRecord t = resetRecord s := by
  obtain ⟨u, hu, rfl⟩ := deliverLast_inv h
  calc resetRecord (actComplete u) = resetRecord u := rfl
    _ = resetRecord s := resetRecord_drainInbound hu

theorem resetRecord_deliverMore {b : Bit} {s t : State} (h : deliverMore b s = .ok t) :
    resetRecord t = resetRecord s := by
  obtain ⟨u, hu, rfl⟩ := deliverMore_inv h
  calc resetRecord (actContinue (putAckR b u)) = resetRecord u := rfl
    _ = resetRecord s := resetRecord_drainInbound hu

theorem resetRecord_nextChunk {ns : Bit} {s t : State} (h : nextChunk ns s = .ok t) :
    resetRecord t = resetRecord s := by
  obtain ⟨bs, -, rfl⟩ := nextChunk_inv h
  rfl

theorem resetRecord_buildInitial {s t : State} (h : buildInitial s = .ok t) : resetRecord t = resetRecord s := by
  obtain ⟨bs, -, rfl⟩ := buildInitial_inv h
  rfl

/-- ResetSession never clears RESET_DONE (R34). -/
theorem resetRecord_actResetSession {s t : State} (h : actResetSession s = .ok t) : resetRecord t = resetRecord s := by
  obtain ⟨u, hu, rfl⟩ := resetSession_inv h
  calc resetRecord { u with phase := .sending } = resetRecord u := rfl
    _ = resetRecord (sessionStart s) := resetRecord_buildInitial hu
    _ = resetRecord s := rfl

theorem resetRecord_noMatch {s t : State} (h : noMatch s = .ok t) : resetRecord t = resetRecord s := by
  rcases noMatch_cases s with ⟨-, heq⟩ | ⟨-, -, heq⟩ <;> rw [heq] at h <;> cases h <;> rfl

/-- No row of the rule table touches the record: the device reset is the error accounting's alone. -/
theorem resetRecord_exec_pair {i : Instr} {s t : State} (hi : encodeBlock i = none) (h : exec i s = .next t) :
    resetRecord t = resetRecord s := by
  rcases pair_form hi s with he | he | he | ⟨b, he⟩ | ⟨ns, he⟩ | he | he | he | he | ⟨n, -, he⟩ | he <;> rw [he] at h
  · cases h; rfl
  · cases h; rfl
  · exact resetRecord_deliverLast (answer_eq_next.1 h)
  · exact resetRecord_deliverMore (answer_eq_next.1 h)
  · exact resetRecord_nextChunk (answer_eq_next.1 h)
  · cases h; exact resetRecord_actRetransmit s
  · cases h; rfl
  · cases h; rfl
  · exact resetRecord_actResetSession (answer_eq_next.1 h)
  · cases h; rfl
  · cases h; rfl

/-! ## The one operation that moves it -/

/-- `T.reset` is one call more (R74). -/
theorem resetRecord_resetLink (s : State) :
    resetRecord (resetLink s).2 = ⟨resetCalls s.calls + 1, s.resetDone, s.opt.hasReset⟩ := by
  rw [resetLink_eq]; rfl

/-- ResetDevice calls `T.reset` only under RESET_DONE 0 and an offered reset, and sets RESET_DONE with the call (R269). -/
theorem resetRecord_actResetDevice {s t : State} (h : actResetDevice s = .ok t) :
    (resetRecord s).Step (resetRecord t) := by
  rcases resetDevice_inv h with ⟨-, rfl⟩ | ⟨hdone, hoffered, hans⟩
  · exact .kept _
  · have hs : resetRecord s = ⟨resetCalls s.calls, false, true⟩ := by rw [resetRecord, hdone, hoffered]
    have ht : resetRecord t = ⟨resetCalls s.calls + 1, true, true⟩ := by
      calc resetRecord t = resetRecord (resetLink { s with resetDone := true }).2 := by
            rcases hans with ⟨-, rfl⟩ | ⟨-, hsession⟩
            · rfl
            · exact resetRecord_actResetSession hsession
        _ = ⟨resetCalls s.calls + 1, true, true⟩ := by rw [resetRecord_resetLink, hoffered]
    rw [hs, ht]
    exact .reset _

theorem resetRecord_escalate {s t : State} (h : escalate s = .ok t) : (resetRecord s).Step (resetRecord t) := by
  rcases escalate_cases s with ⟨-, he⟩ | ⟨-, -, -, he⟩ | ⟨-, -, he⟩ <;> rw [he] at h
  · exact resetRecord_actResetDevice h
  · cases h; exact .kept _
  · cases h; exact .kept _

theorem resetRecord_account {v : ErrCode × State} {t : State} (h : account v = .ok t) :
    (resetRecord v.2).Step (resetRecord t) := by
  rcases account_cases v.1 v.2 with ⟨-, he⟩ | ⟨-, he⟩ <;> rw [he] at h
  · cases h; exact .kept _
  · exact resetRecord_escalate (s := countError { v.2 with rErr := v.1 }) h

/-! ## Every step -/

theorem resetRecord_step_evaluating {s t : State} (he : s.nextEvent = none) (hp : s.phase = .evaluating)
    (h : step s = .next t) : (resetRecord s).Step (resetRecord t) := by
  rw [← resetRecord_takeEvent s]
  cases hs : s.stage with
  | precheck =>
    rw [step_precheck he hp hs] at h
    split at h
    · cases h
    · have hacc := resetRecord_account (answer_eq_next.1 h)
      rwa [resetRecord_precheck] at hacc
  | lookup =>
    rcases step_lookup he hp hs with ⟨i, hdec, hstep⟩ | ⟨-, hstep⟩ <;> rw [hstep] at h
    · exact .of_eq (resetRecord_exec_pair (encodePair_of_decodePair hdec) h)
    · exact .of_eq (resetRecord_noMatch (answer_eq_next.1 h))

/-- A step without a host event keeps the record or makes the one call; the cases follow PHASE (R253). -/
theorem resetRecord_step {s t : State} (he : s.nextEvent = none) (h : step s = .next t) :
    (resetRecord s).Step (resetRecord t) := by
  cases hp : s.phase with
  | idle => rw [step_waiting he (.inl hp)] at h; cases h; exact .kept _
  | done => rw [step_waiting he (.inr (.inl hp))] at h; cases h; exact .kept _
  | failed => rw [step_waiting he (.inr (.inr hp))] at h; cases h; exact .kept _
  | sending => rw [step_sending he hp] at h; exact .of_eq (resetRecord_sendPhase (s := s.takeEvent) (answer_eq_next.1 h))
  | receiving => rw [step_receiving he hp] at h; cases h; exact .of_eq (resetRecord_receivePhase s.takeEvent)
  | evaluating => exact resetRecord_step_evaluating he hp h

/-! ## Command start -/

theorem commandStart_resetDone {a b : Nat} {s t : State} (h : commandStart a b s = .ok t) : t.resetDone = false := by
  unfold commandStart at h
  split at h
  · cases h
  · rename_i u hu
    cases h
    exact congrArg ResetRecord.done (resetRecord_buildInitial hu)

/-- A TRANSCEIVE that has a next state is a command start (R250, R251). -/
theorem step_transceive_inv {a b : Nat} {s t : State} (he : s.nextEvent = some (.transceive a b))
    (h : step s = .next t) : commandStart a b s.takeEvent = .ok t := by
  simp only [step, he, hostStep, transceive] at h
  split at h
  · cases h
  · split at h
    · exact answer_eq_next.1 h
    · cases h

/-- Settles O57: the record's step for every engine step, and the command start that clears RESET_DONE. -/
theorem deviceResetAtMostOnce : Obligations.DeviceResetAtMostOnce :=
  ⟨fun _ _ he h => resetRecord_step_fields (resetRecord_step he h),
    fun _ _ _ _ he h => commandStart_resetDone (step_transceive_inv he h)⟩

end Sys2Proof.Proofs
end

