-- ==== Sys2Proof/Proofs/MoreFlag.lean ====
section
/-! PROOF. The M flag of a chunk (R163, R164): what the control byte of a filled slot says of its bit 5 and keeps of the other
bits, and from that the statement about `fill_outbound`. -/

namespace Sys2Proof.Proofs

open Sys2Proof.Machine Sys2Proof.Laws

/-! ## The control byte -/

/-- The M flag written is the M flag read, whatever bit 5 was. -/
@[simp] theorem mOf_withM (p : Byte) (m : Bit) : mOf (withM p m) = m := by
  revert p m; decide

/-- Writing the M flag keeps every other bit of the control byte. -/
@[simp] theorem withM_and_notM (p : Byte) (m : Bit) : withM p m &&& 0xDF = p &&& 0xDF := by
  revert p m; decide

/-- The M flag is set exactly when bytes remain (R164). -/
theorem moreFlag_eq_one (n : Nat) : moreFlag n = 1 ↔ n ≠ 0 := by
  unfold moreFlag; split <;> simp [*]

/-! ## The slot after `fill_outbound` -/

/-- The control byte of the filled slot: the caller's, with the M flag computed from the TX_REM the fill leaves. -/
theorem afterFill_slot_pcb (i : Bit) (s : State) (bs : List Byte) :
    ((afterFill i s bs).slot i).pcb = withM (s.slot i).pcb (moreFlag (afterFill i s bs).txRem) :=
  congrArg Frame.pcb (slot_setSlot_same s i _)

/-- Settles O58: an I-block that is filled holds the control byte of `afterFill_slot_pcb`, whose bit 5 is read and whose other
bits are compared. -/
theorem moreFlagIsComputed : Obligations.MoreFlagIsComputed := by
  intro i s t n hk h
  obtain ⟨hnot, -⟩ | ⟨-, -, bs, -, rfl⟩ := fill_inv h
  · exact absurd hk hnot
  · rw [afterFill_slot_pcb, mOf_withM, withM_and_notM]
    exact ⟨moreFlag_eq_one _, rfl⟩

end Sys2Proof.Proofs
end

