-- ==== Sys2Proof/Proofs/Precheck.lean ====
section
/-! PROOF. The pre-check in its steps (R181 to R188): which check each kind of control byte is given, what a good checksum
records before that check, and from these the statement for every control byte. -/

namespace Sys2Proof.Proofs

open Sys2Proof.Machine Sys2Proof.Claims Sys2Proof.Laws

section Steps

variable {s : State}

/-! ## The record of the last-sent block and the checks -/

/-- The record of the model is the one the statements speak of (R184). -/
theorem recordSent_eq_sentRecorded (s : State) : recordSent s = sentRecorded s := by
  simp [recordSent, sentRecorded, State.sentI]

@[simp] theorem checkR_snd (u : State) : (checkR u).2 = u := by
  unfold checkR; split <;> rfl

@[simp] theorem checkS_snd (u : State) : (checkS u).2 = u := by
  unfold checkS; split <;> rfl

@[simp] theorem checkResyncResp_snd (u : State) : (checkResyncResp u).2 = u := by
  unfold checkResyncResp; split <;> rfl

/-! ## The check of each kind -/

theorem precheck_of_kind_r (hk : s.kind s.rxf.pcb = .r) : precheck s = precheckWith checkR s := by
  unfold precheck; rw [hk]

theorem precheck_of_kind_i (hk : s.kind s.rxf.pcb = .i) : precheck s = precheckWith (checkI (nsOf s.rxf.pcb)) s := by
  unfold precheck; rw [hk]

/-- Every control byte but the sentinel has its checksum tested before a check of its kind, and only the check of an I-block
writes (R182). -/
theorem precheck_eq_precheckWith (hne : s.rxf.pcb ≠ s.cfg.pcbInvalid) :
    ∃ check, precheck s = precheckWith check s ∧ (s.kind s.rxf.pcb ≠ .i → ∀ u, (check u).2 = u) := by
  cases hk : s.kind s.rxf.pcb with
  | invalid => exact absurd (kind_eq_invalid.1 hk) hne
  | i => exact ⟨_, precheck_of_kind_i hk, fun h => absurd rfl h⟩
  | r => exact ⟨_, precheck_of_kind_r hk, fun _ => checkR_snd⟩
  | s =>
    unfold precheck
    rw [hk]
    by_cases he : s.rxf.pcb = 0xE0
    · exact ⟨_, if_pos he, fun _ => checkResyncResp_snd⟩
    · exact ⟨_, if_neg he, fun _ => checkS_snd⟩

/-! ## The steps -/

/-- Step 2: a wrong checksum is 1, and nothing is written (R183). -/
theorem precheck_of_bad (hne : s.rxf.pcb ≠ s.cfg.pcbInvalid) (hbad : lrcOk s.rxf = false) : precheck s = (1, s) := by
  obtain ⟨check, hform, -⟩ := precheck_eq_precheckWith hne
  rw [hform, precheckWith_of_bad hbad]

/-- Steps 3 and 4 for a block that is no I-block: the record of the last-sent block is all that is written (R184). -/
theorem precheck_snd_of_ok (hne : s.rxf.pcb ≠ s.cfg.pcbInvalid) (hi : s.kind s.rxf.pcb ≠ .i) (hok : lrcOk s.rxf = true) :
    (precheck s).2 = sentRecorded s := by
  obtain ⟨check, hform, hkeep⟩ := precheck_eq_precheckWith hne
  rw [hform, precheckWith_of_ok hok, hkeep hi, recordSent_eq_sentRecorded]

/-- Step 4 for an R-block (R187). -/
theorem precheck_fst_of_ok_r (hk : s.kind s.rxf.pcb = .r) (hok : lrcOk s.rxf = true) :
    (precheck s).1 = if s.rxf.len = 0 then 0 else 2 := by
  rw [precheck_of_kind_r hk, precheckWith_of_ok hok, checkR, recordSent_rxf, apply_ite Prod.fst]

/-- Steps 3 and 4 for an I-block (R184, R188): recording the last-sent block leaves the SEQ_CARD that N(S) is compared with. -/
theorem precheck_of_ok_i (hk : s.kind s.rxf.pcb = .i) (hok : lrcOk s.rxf = true) :
    precheck s = if nsOf s.rxf.pcb = s.seqCard then (2, sentRecorded s)
      else (0, { sentRecorded s with seqCard := nsOf s.rxf.pcb }) := by
  rw [precheck_of_kind_i hk, precheckWith_of_ok hok, checkI, recordSent_seqCard, recordSent_eq_sentRecorded]

/-- A good checksum leaves the record of the last-sent block and, for an I-block only, another SEQ_CARD (R184, R188). -/
theorem precheck_writes_of_ok (hne : s.rxf.pcb ≠ s.cfg.pcbInvalid) (hok : lrcOk s.rxf = true) :
    (precheck s).2 = { sentRecorded s with seqCard := (precheck s).2.seqCard } ∧
    (s.kind s.rxf.pcb ≠ .i → (precheck s).2.seqCard = s.seqCard) := by
  by_cases hk : s.kind s.rxf.pcb = .i
  · refine ⟨?_, fun hi => absurd hk hi⟩
    rw [precheck_of_ok_i hk hok]
    split <;> rfl
  · rw [precheck_snd_of_ok hne hk hok]
    exact ⟨rfl, fun _ => rfl⟩

end Steps

/-- Settles O11: the sentinel, then the checksum, then the record, then the check of an R-block or an I-block. -/
theorem precheckFollowsItsSteps : Obligations.PrecheckFollowsItsSteps :=
  fun _ => ⟨precheck_sentinel, precheck_of_bad, precheck_writes_of_ok, precheck_fst_of_ok_r, precheck_of_ok_i⟩

end Sys2Proof.Proofs
end

