-- ==== Sys2Proof/Proofs/RuleRows.lean ====
section
/-! PROOF. Rows of the rule table (43_rule_table.md): the echo of an IFS request (R210), the last block of the card (R211, R217) and the
response to an abort request (R225). What SingleShot leaves of a block in the pending slot, and what Complete leaves of a delivery, are
said once; the statements about the rows follow from them. -/

namespace Sys2Proof.Proofs

open Sys2Proof.Machine Sys2Proof.Claims Sys2Proof.Laws

/-! ## The keys -/

/-- A row's key in the order of the instruction bytes, the received byte first (R110). -/
theorem decodeBytes_of_decodePair {sent received : Byte} {i : Instr} (h : decodePair sent received = some i) :
    decodeBytes [received, sent] = .ok i := by
  simp only [decodeBytes, h]

/-- Received S(IFS,REQUEST) is the row of R210 for all 256 sent bytes. -/
theorem decodePair_ifsRequest (sent : Byte) : decodePair sent 0xC1 = some (.anyToIfsReq sent) := by
  revert sent; decide

theorem decodePair_iToILast (a b : Bit) : decodePair (iPcb a 0) (iPcb b 0) = some (.iToILast a b) := by
  revert a b; decide

theorem decodePair_rToILast (n : Bit) (e : ErrCode) (b : Bit) :
    decodePair (rPcb n e) (iPcb b 0) = some (.rToILast n e b) := by
  revert n e b; decide

/-! ## A block in the pending slot, sent once -/

/-- A built block holds the bytes it was built from. -/
theorem infAt_withBlock (f : Frame) (p : Byte) {bs : List Byte} {j : Nat} (h : j < bs.length) (h255 : bs.length ≤ 255) :
    infAt (withBlock f p bs) j = bs[j] := by
  simp [infAt, withBlock, putInf_getElem f.inf h h255, h]

/-- SingleShot of a state whose pending slot took a block and whose current slot is kept (R267). -/
theorem singleShotWith_of_pending {s u : State} {p : Byte} {bs : List Byte} (hactive : u.active = s.active)
    (hpending : u.pending = withBlock s.pending p bs) (hcurrent : u.current = s.current) :
    SingleShotWith p (BitVec.ofNat 8 bs.length) s (actSingleShot u) :=
  ⟨congrArg Frame.pcb hpending, congrArg Frame.len hpending, hcurrent, by rw [actSingleShot_txsel, hactive], rfl⟩

/-- The echo stands in the pending slot with LEN 1 and the received `INF[0]`. -/
theorem pending_putEcho (t : SType) (s : State) :
    (putEcho t s).pending = withBlock s.pending (sPcb t .response) [infAt s.rxf 0] :=
  pending_setPending s _ _

theorem current_putEcho (t : SType) (s : State) : (putEcho t s).current = s.current := current_setPending s _ _

theorem infAt_pending_putEcho (t : SType) (s : State) : infAt (putEcho t s).pending 0 = infAt s.rxf 0 := by
  rw [pending_putEcho]; exact infAt_withBlock _ _ Nat.one_pos (by simp)

/-- Settles O18: the row puts the echo in the pending slot, writes IFS and selects the slot for one transmission. -/
theorem ifsRequestIsEchoed : Obligations.IfsRequestIsEchoed := by
  intro s sent
  refine ⟨decodeBytes_of_decodePair (decodePair_ifsRequest sent),
    actSingleShot { putEcho .ifs s with ifs := infAt s.rxf 0 }, rfl, ?_, ?_, rfl, rfl⟩
  · exact singleShotWith_of_pending (bs := [infAt s.rxf 0]) rfl (pending_putEcho .ifs s) (current_putEcho .ifs s)
  · exact infAt_pending_putEcho .ifs s

/-! ## The rows that complete the command -/

/-- A last block's meaning is `deliverLast`, whatever was sent (R211, R217). -/
theorem exec_of_lastBlockRow {i : Instr} (h : lastBlockRow i = true) (s : State) : exec i s = answer (deliverLast s) := by
  cases i
  case iToILast | rToILast => rfl
  all_goals cases h

/-- A last block is delivered and the command completes, when the cursors meet R46. -/
theorem deliverLast_ok {s : State} (hk : s.kind s.rxf.pcb = .i) (hc : s.rxPtr + s.rxRem = s.rxCap0) :
    ∃ m, deliverLast s = .ok (actComplete (afterDrain s m)) ∧ Delivered s (afterDrain s m) := by
  obtain ⟨m, hdrain, -, hread⟩ := drain_ok hk hc
  refine ⟨m, ?_, hread, rfl, rfl⟩
  rw [deliverLast, hdrain]; rfl

/-- What Complete counts after a delivery is where RX_PTR stands (R46, R263). -/
theorem resultCount_eq_rxPtr_afterDrain {s : State} (m : Memory) (hc : s.rxPtr + s.rxRem = s.rxCap0) :
    (actComplete (afterDrain s m)).resultCount = (actComplete (afterDrain s m)).rxPtr := by
  have hsum : s.rxPtr + drainSize s + (s.rxRem - drainSize s) = s.rxCap0 := cursor_advance hc (drainSize_le_rem s)
  simp only [actComplete_resultCount, actComplete_rxPtr, afterDrain]
  omega

/-- Settles O21: both rows deliver the block and complete, and the count is the cursor's by the invariant of R46. -/
theorem lastBlockIsDeliveredAndCompletes : Obligations.LastBlockIsDeliveredAndCompletes := by
  refine ⟨fun a b => decodeBytes_of_decodePair (decodePair_iToILast a b),
    fun n e b => decodeBytes_of_decodePair (decodePair_rToILast n e b), fun s i hrow hk hc => ?_⟩
  obtain ⟨m, hok, hdelivered⟩ := deliverLast_ok hk hc
  refine ⟨actComplete (afterDrain s m), ?_, hdelivered, rfl, rfl, rfl, resultCount_eq_rxPtr_afterDrain m hc, rfl⟩
  rw [exec_of_lastBlockRow hrow, hok, answer_ok]

/-- Settles O28: the row is `actComplete` alone, whose count is what the cursors say of earlier deliveries. -/
theorem abortResponseCompletes : Obligations.AbortResponseCompletes := by
  have hexec (s : State) : exec .abortReqToAbortResp s = .next (actComplete s) := rfl
  exact ⟨decodeBytes_of_decodePair (by decide), hexec⟩

end Sys2Proof.Proofs
end

