-- ==== Sys2Proof/Proofs/SendReceive.lean ====
section
/-! PROOF. The Sending and the Receiving phase (44_orchestrator.md R254 to R256): `encode` in closed form, what `decode` may move
whatever the transport answers, and from these the statements about the two steps. -/

namespace Sys2Proof.Proofs

open Sys2Proof.Machine Sys2Proof.Laws

/-! ## Sending -/

/-- The frame `encode(i)` hands over: the slot's, sealed and put through the hook (R135). -/
def encodedFrame (i : Bit) (s : State) : Frame := applyHook s.opt.hook .transmit (sealed s.opt.nodeAddr (s.slot i))

/-- A slot with room for the checksum is encoded, with one transmission of the frame it then holds. -/
theorem encodeSlot_of_room {i : Bit} {s : State} (h : (s.slot i).len ≠ 0xFF) :
    encodeSlot i s = .ok (transmit (wireBytes (encodedFrame i s)) (s.setSlot i (encodedFrame i s))) := by
  unfold encodeSlot
  rw [if_neg h]
  rfl

/-- Sending is `encode` of the selected slot; then the active slot is selected and the engine receives (R254). -/
theorem sendPhase_of_encodeSlot {s u : State} (h : encodeSlot s.txsel s = .ok u) :
    sendPhase s = .ok { u with txsel := u.active, phase := .receiving } := by
  unfold sendPhase
  rw [h]

/-- Settles O35: `encode` reads nothing of the host's schedule, so it does the same in the step's state. -/
theorem sendingIsOneTransmission : Obligations.SendingIsOneTransmission := by
  intro s he hp hlen
  refine ⟨_, _, wireBytes (encodedFrame s.txsel s), encodeSlot_of_room hlen, ?_, rfl, rfl⟩
  rw [step_sending he hp, sendPhase_of_encodeSlot (encodeSlot_of_room (s := s.takeEvent) hlen), answer_ok]
  rfl

/-! ## Receiving -/

/-- The body of a frame, or the close in its place: one call of the transport, which closes the window (R142, R143). -/
theorem decodeBody_state (s : State) : ∃ f rs d c, (decodeBody s).2 =
    { s with rxf := f, receives := rs, draws := d, window := false, calls := c :: s.calls } := by
  cases hbad : s.cfg.lenBad s.rxf.len with
  | true => exact ⟨_, _, _, _, congrArg Prod.snd (decodeBody_invalid hbad)⟩
  | false =>
    unfold decodeBody
    simp only [hbad, Bool.false_eq_true, if_false]
    rw [receive_state]
    exact ⟨_, _, _, _, rfl⟩

/-- The bytes of a header, put in RXF as the frame `g`, and the body after them. -/
theorem decodeBody_receive_state (n : Nat) (g : Frame) (s : State) : ∃ f rs d cs,
    (decodeBody { (receive n false s).2 with rxf := g }).2 =
      { s with rxf := f, receives := rs, draws := d, window := false, calls := cs ++ s.calls } := by
  obtain ⟨f, rs, d, c, h⟩ := decodeBody_state { (receive n false s).2 with rxf := g }
  rw [h, receive_state]
  exact ⟨f, rs, d, [c, .receive n s.cfg.rt false], rfl⟩

/-- Whatever the transport answers, `decode` begins with the poll, leaves the window closed, and moves RXF, the answers, the
draw counter and the record of calls only (R140). -/
theorem decodeFrame_state (n : Nat) {s : State} (hw : s.window = false) : ∃ f ps rs d cs, (decodeFrame n s).2 =
    { s with rxf := f, polls := ps, receives := rs, draws := d, window := false, calls := cs ++ .poll s.opt.hostAddr n :: s.calls } := by
  have hpoll := poll_state s.opt.hostAddr n s
  rw [hw] at hpoll
  unfold decodeFrame
  split <;> rename_i u hu <;> rw [hu] at hpoll <;> replace hpoll : u = _ := hpoll
  case h_1 => -- no answer: the window was never opened
    exact ⟨_, _, _, _, [], hpoll⟩
  case h_2 => -- the poll consumed the address byte
    obtain ⟨f, rs, d, cs, h⟩ :=
      decodeBody_receive_state 2 (headerFrom (receive 2 false u).2.rxf (s.opt.hostAddr :: (receive 2 false u).1)) u
    exact ⟨f, _, rs, d, cs, h.trans (by rw [hpoll])⟩
  case h_3 => -- the address byte is still to be read
    obtain ⟨f, rs, d, cs, h⟩ :=
      decodeBody_receive_state 3 (headerFrom (receive 3 false u).2.rxf (receive 3 false u).1) u
    exact ⟨f, _, rs, d, cs, h.trans (by rw [hpoll])⟩

/-- The sentinel's substitution writes RXF only (R256). -/
theorem substituteSentinel_state (r : Option Byte × State) : ∃ f, substituteSentinel r = { r.2 with rxf := f } := by
  unfold substituteSentinel
  split
  · exact ⟨r.2.rxf, rfl⟩
  · exact ⟨_, rfl⟩

/-- Settles O41: the reception starts from the multiplier 1, and what `decode` leaves is kept but for RXF. -/
theorem receivingConsumesTheMultiplier : Obligations.ReceivingConsumesTheMultiplier := by
  intro s he hp hw
  obtain ⟨f, ps, rs, d, cs, hdecode⟩ :=
    decodeFrame_state (deadline s.takeEvent) (s := { s.takeEvent with waitMult := 1 }) hw
  obtain ⟨g, hsub⟩ := substituteSentinel_state (decodeFrame (deadline s.takeEvent) { s.takeEvent with waitMult := 1 })
  refine ⟨_, step_receiving he hp, rfl, rfl, rfl, ?_⟩
  unfold receivePhase
  rw [hsub, hdecode]
  refine ⟨rfl, ⟨cs, rfl⟩, ?_⟩
  rw [← hw]
  rfl

end Sys2Proof.Proofs
end

