-- ==== Sys2Proof/Proofs/Encoding.lean ====
section
/-! PROOF. The decoder and the encoder (30_encoding.md, R110, R209): the two round trips, from what one half of a key says of its
byte; and the rows of the rule table as a set of patterns, which are pairwise disjoint. -/

namespace Sys2Proof.Proofs

open Sys2Proof.Laws

/-! ## Decode of encode -/

/-- The byte of a PCB row decodes to the row. -/
theorem decodeBlock_of_encodeBlock {i : Instr} {p : Byte} (h : encodeBlock i = some p) : decodeBlock p = some i := by
  cases i <;> simp only [encodeBlock, Option.some.injEq, reduceCtorEq] at h <;> subst h <;> decide

/-- The key of a well-formed PAIR row decodes to the row, whatever its operands. -/
theorem decodePair_of_encodePair {i : Instr} {sent received : Byte} (hw : i.wellFormed = true)
    (h : encodePair i = some (sent, received)) : decodePair sent received = some i := by
  cases i <;> simp only [encodePair, Option.some.injEq, Prod.mk.injEq, reduceCtorEq] at h <;> obtain ⟨rfl, rfl⟩ := h
  case anyToIfsReq s => revert s; decide
  case iToWtxReq a m => revert a m; decide
  case iToILast a b => revert a b; decide
  case iToIMore a b => revert a b; decide
  case rToILast n e b => revert n e b; decide
  case rToIMore n e b => revert n e b; decide
  case i0mToR0e m e => revert m e; decide
  case i1mToR1e m e => revert m e; decide
  case i00ToR1e e => revert e; decide
  case i10ToR0e e => revert e; decide
  case abortRespToR0 n => revert n; decide
  case iMoreToAbortReq a => revert a; decide
  case rToAbortReq n e => revert n e; decide
  case rToInvalid n e => revert n e; decide
  case iToInvalid a m => revert a m; decide
  case ifsWtxReqToInvalid t =>
    cases t
    case ifs | wtx => decide
    case resync | abort => cases hw
  case respToInvalid t => cases t <;> decide
  all_goals decide

/-- Every instruction is a PCB row or a PAIR row. -/
theorem encodeBlock_or_encodePair (i : Instr) :
    (∃ p, encodeBlock i = some p) ∨ (encodeBlock i = none ∧ ∃ sent received, encodePair i = some (sent, received)) := by
  cases i
  case i00 | i01 | i10 | i11 | r00 | r01 | r02 | r03 | r10 | r11 | r12 | r13 | sResyncReq | sIfsReq | sAbortReq | sWtxReq
      | sResyncResp | sIfsResp | sAbortResp | sWtxResp | invalid => exact .inl ⟨_, rfl⟩
  all_goals exact .inr ⟨rfl, _, _, rfl⟩

theorem encode_of_encodeBlock {i : Instr} {p : Byte} (h : encodeBlock i = some p) : encode i = [p] := by
  simp only [encode, h]

theorem encode_of_encodePair {i : Instr} {sent received : Byte} (hb : encodeBlock i = none)
    (h : encodePair i = some (sent, received)) : encode i = [received, sent] := by
  simp only [encode, hb, h]

/-- Settles O2: a PCB row is read back from its byte, a PAIR row from its key. -/
theorem decodeEncodeRoundTrip : Obligations.DecodeEncodeRoundTrip := by
  intro i hw
  obtain ⟨p, hp⟩ | ⟨hb, sent, received, hk⟩ := encodeBlock_or_encodePair i
  · simp only [encode_of_encodeBlock hp, decodeBytes, decodeBlock_of_encodeBlock hp]
  · rw [encode_of_encodePair hb hk]
    exact decodeBytes_of_decodePair (decodePair_of_encodePair hw hk)

/-! ## Encode of decode -/

/-- A row's pattern is tested on the two bytes of the key, one by one (R110). -/
theorem matchesKey_pairKey {r : PairRow} {sent received : Byte} (h : r.matchesKey (pairKey sent received) = true) :
    sent &&& r.mask.extractLsb' 8 8 = r.pattern.extractLsb' 8 8 ∧
      received &&& r.mask.extractLsb' 0 8 = r.pattern.extractLsb' 0 8 := by
  have hkey : pairKey sent received &&& r.mask = r.pattern := by simpa [PairRow.matchesKey] using h
  rw [← hkey, BitVec.extractLsb'_and, BitVec.extractLsb'_and, pairKey, BitVec.extractLsb'_append_eq_left,
    BitVec.extractLsb'_append_eq_right]
  exact ⟨rfl, rfl⟩

/-- The instruction `i` stands for the key. -/
def ReadsKey (sent received : Byte) (i : Instr) : Prop := encodePair i = some (sent, received) ∧ i.wellFormed = true

section Half
/-! A half of a key that a pattern admits is the control byte its open bits give. -/

theorem eq_iPcb {p : Byte} (h : p &&& 0x9F = 0x00) : p = iPcb (nsOf p) (mOf p) := by revert p; decide

theorem eq_iPcb_last {p : Byte} (h : p &&& 0xBF = 0x00) : p = iPcb (nsOf p) 0 := by revert p; decide

theorem eq_iPcb_more {p : Byte} (h : p &&& 0xBF = 0x20) : p = iPcb (nsOf p) 1 := by revert p; decide

theorem eq_iPcb_zero {p : Byte} (h : p &&& 0xDF = 0x00) : p = iPcb 0 (mOf p) := by revert p; decide

theorem eq_iPcb_one {p : Byte} (h : p &&& 0xDF = 0x40) : p = iPcb 1 (mOf p) := by revert p; decide

theorem eq_rPcb {p : Byte} (h : p &&& 0xEC = 0x80) : p = rPcb (nrOf p) (errOf p) := by revert p; decide

theorem eq_rPcb_zero {p : Byte} (h : p &&& 0xFC = 0x80) : p = rPcb 0 (errOf p) := by revert p; decide

theorem eq_rPcb_one {p : Byte} (h : p &&& 0xFC = 0x90) : p = rPcb 1 (errOf p) := by revert p; decide

theorem eq_rPcb_ok {p : Byte} (h : p &&& 0xEF = 0x80) : p = rPcb (nrOf p) 0 := by revert p; decide

theorem eq_sPcb_ifsWtxReq {p : Byte} (h : p &&& 0xFD = 0xC1) :
    p = sPcb (sTypeOf p) .request ∧ (sTypeOf p).isIfsOrWtx = true := by revert p; decide

theorem eq_sPcb_resp {p : Byte} (h : p &&& 0xFC = 0xE0) : p = sPcb (sTypeOf p) .response := by revert p; decide

theorem eq_of_and_ff {p q : Byte} (h : p &&& 0xFF = q) : p = q := BitVec.and_allOnes.symm.trans h

end Half

theorem readsKey_of {sent received p q : Byte} {i : Instr} (h : encodePair i = some (p, q)) (hw : i.wellFormed = true)
    (hs : sent = p) (hr : received = q) : ReadsKey sent received i := ⟨by rw [h, hs, hr], hw⟩

/-- What a row reads from a key it matches stands for that key: its open bits are all its operands (R209). -/
theorem readsKey_of_matchesKey {r : PairRow} {sent received : Byte} (hm : r ∈ pairRows)
    (h : r.matchesKey (pairKey sent received) = true) : ReadsKey sent received (r.read sent received) := by
  obtain ⟨hs, hr⟩ := matchesKey_pairKey h
  simp only [pairRows, List.mem_append] at hm
  obtain (hm | hm) | hm := hm
  · simp only [pairRowsData, List.mem_cons, List.not_mem_nil, or_false] at hm
    rcases hm with rfl | rfl | rfl | rfl | rfl | rfl
    · exact readsKey_of rfl rfl rfl (eq_of_and_ff hr)
    · exact readsKey_of rfl rfl (eq_iPcb hs) (eq_of_and_ff hr)
    · exact readsKey_of rfl rfl (eq_iPcb_last hs) (eq_iPcb_last hr)
    · exact readsKey_of rfl rfl (eq_iPcb_last hs) (eq_iPcb_more hr)
    · exact readsKey_of rfl rfl (eq_rPcb hs) (eq_iPcb_last hr)
    · exact readsKey_of rfl rfl (eq_rPcb hs) (eq_iPcb_more hr)
  · simp only [pairRowsAck, List.mem_cons, List.not_mem_nil, or_false] at hm
    rcases hm with rfl | rfl | rfl | rfl | rfl | rfl | rfl | rfl | rfl | rfl | rfl | rfl
    · exact readsKey_of rfl rfl (eq_of_and_ff hs) (eq_of_and_ff hr)
    · exact readsKey_of rfl rfl (eq_of_and_ff hs) (eq_of_and_ff hr)
    · exact readsKey_of rfl rfl (eq_iPcb_zero hs) (eq_rPcb_zero hr)
    · exact readsKey_of rfl rfl (eq_iPcb_one hs) (eq_rPcb_one hr)
    · exact readsKey_of rfl rfl (eq_of_and_ff hs) (eq_of_and_ff hr)
    · exact readsKey_of rfl rfl (eq_of_and_ff hs) (eq_of_and_ff hr)
    · exact readsKey_of rfl rfl (eq_of_and_ff hs) (eq_of_and_ff hr)
    · exact readsKey_of rfl rfl (eq_of_and_ff hs) (eq_of_and_ff hr)
    · exact readsKey_of rfl rfl (eq_of_and_ff hs) (eq_of_and_ff hr)
    · exact readsKey_of rfl rfl (eq_of_and_ff hs) (eq_of_and_ff hr)
    · exact readsKey_of rfl rfl (eq_of_and_ff hs) (eq_rPcb_one hr)
    · exact readsKey_of rfl rfl (eq_of_and_ff hs) (eq_rPcb_zero hr)
  · simp only [pairRowsControl, List.mem_cons, List.not_mem_nil, or_false] at hm
    rcases hm with rfl | rfl | rfl | rfl | rfl | rfl | rfl | rfl | rfl | rfl | rfl | rfl
    · exact readsKey_of rfl rfl (eq_of_and_ff hs) (eq_of_and_ff hr)
    · exact readsKey_of rfl rfl (eq_of_and_ff hs) (eq_of_and_ff hr)
    · exact readsKey_of rfl rfl (eq_of_and_ff hs) (eq_of_and_ff hr)
    · exact readsKey_of rfl rfl (eq_of_and_ff hs) (eq_of_and_ff hr)
    · exact readsKey_of rfl rfl (eq_of_and_ff hs) (eq_rPcb_ok hr)
    · exact readsKey_of rfl rfl (eq_iPcb_more hs) (eq_of_and_ff hr)
    · exact readsKey_of rfl rfl (eq_rPcb hs) (eq_of_and_ff hr)
    · exact readsKey_of rfl rfl (eq_rPcb hs) (eq_of_and_ff hr)
    · exact readsKey_of rfl rfl (eq_iPcb hs) (eq_of_and_ff hr)
    · exact readsKey_of rfl (eq_sPcb_ifsWtxReq hs).2 (eq_sPcb_ifsWtxReq hs).1 (eq_of_and_ff hr)
    · exact readsKey_of rfl rfl (eq_of_and_ff hs) (eq_of_and_ff hr)
    · exact readsKey_of rfl rfl (eq_sPcb_resp hs) (eq_of_and_ff hr)

theorem readsKey_of_decodePair {sent received : Byte} {i : Instr} (h : decodePair sent received = some i) :
    ReadsKey sent received i := by
  rw [decodePair, Option.map_eq_some_iff] at h
  obtain ⟨r, hr, rfl⟩ := h
  exact readsKey_of_matchesKey (List.mem_of_find?_eq_some hr) (List.find?_some (p := fun r : PairRow => r.matchesKey (pairKey sent received)) hr)

/-- A PCB row has no operand, so it is well-formed. -/
theorem wellFormed_of_encodeBlock {i : Instr} {p : Byte} (h : encodeBlock i = some p) : i.wellFormed = true := by
  cases i
  case ifsWtxReqToInvalid => cases h
  all_goals rfl

/-- The words that decode: one byte that is a PCB row, or a key that is a PAIR row. -/
theorem decodeBytes_inv {bs : List Byte} {i : Instr} (h : decodeBytes bs = .ok i) :
    (∃ p, bs = [p] ∧ decodeBlock p = some i) ∨
    (∃ sent received, bs = [received, sent] ∧ decodePair sent received = some i) := by
  unfold decodeBytes at h
  split at h
  · split at h <;> cases h
    exact .inl ⟨_, rfl, ‹_›⟩
  · split at h <;> cases h
    exact .inr ⟨_, _, rfl, ‹_›⟩
  · cases h

/-- Settles O3: a byte names its row, and what a matching row reads stands for its key. -/
theorem encodeDecodeRoundTrip : Obligations.EncodeDecodeRoundTrip := by
  intro bs i h
  obtain ⟨p, rfl, hp⟩ | ⟨sent, received, rfl, hk⟩ := decodeBytes_inv h
  · have hb := encodeBlock_of_decodeBlock hp
    exact ⟨encode_of_encodeBlock hb, wellFormed_of_encodeBlock hb⟩
  · obtain ⟨he, hw⟩ := readsKey_of_decodePair hk
    exact ⟨encode_of_encodePair (encodePair_of_decodePair hk) he, hw⟩

/-! ## The rows as a set of patterns -/

/-- Two rows are apart when a bit both of them fix has different values in their patterns. -/
def RowsApart (r q : PairRow) : Prop := (r.pattern ^^^ q.pattern) &&& (r.mask &&& q.mask) ≠ 0

/-- Where two masks are both set, two masked copies of a key agree. -/
theorem masked_agree {w : Nat} (k a b : BitVec w) : ((k &&& a) ^^^ (k &&& b)) &&& (a &&& b) = 0#w := by
  ext j hj
  simp only [BitVec.getElem_and, BitVec.getElem_xor, BitVec.getElem_zero]
  cases k[j] <;> cases a[j] <;> cases b[j] <;> rfl

theorem RowsApart.not_both {r q : PairRow} (h : RowsApart r q) (k : BitVec 16) (hr : r.matchesKey k = true) :
    q.matchesKey k = false := by
  rw [Bool.eq_false_iff]
  intro hq
  have hr : k &&& r.mask = r.pattern := by simpa [PairRow.matchesKey] using hr
  have hq : k &&& q.mask = q.pattern := by simpa [PairRow.matchesKey] using hq
  exact h (by rw [← hr, ← hq]; exact masked_agree k r.mask q.mask)

theorem pairRows_pairwise_apart : pairRows.Pairwise RowsApart := by
  unfold RowsApart
  decide

/-- Of rows pairwise apart, a key matches one at most. -/
theorem filter_matchesKey_length_le {rows : List PairRow} (h : rows.Pairwise RowsApart) (k : BitVec 16) :
    (rows.filter (fun r => r.matchesKey k)).length ≤ 1 := by
  induction rows with
  | nil => exact Nat.zero_le 1
  | cons r rows ih =>
    obtain ⟨hr, hrows⟩ := List.pairwise_cons.1 h
    cases hk : r.matchesKey k with
    | false => rw [List.filter_cons_of_neg (by simp [hk])]; exact ih hrows
    | true =>
      have hnone : rows.filter (fun r => r.matchesKey k) = [] :=
        List.filter_eq_nil_iff.2 fun q hq => by rw [(hr q hq).not_both k hk]; decide
      rw [List.filter_cons_of_pos (p := fun r : PairRow => r.matchesKey k) hk, hnone]
      exact le_refl 1

/-- Settles O4: the patterns of the table are pairwise apart. -/
theorem ruleRowsAreDisjoint : Obligations.RuleRowsAreDisjoint := filter_matchesKey_length_le pairRows_pairwise_apart

/-! ## Words and bytes -/

/-- Settles O1: ten words, each evaluated by the decoder. -/
theorem sampleWordsDecode : Obligations.SampleWordsDecode := by
  unfold Obligations.SampleWordsDecode
  exact ⟨rfl, rfl, rfl, rfl, rfl, rfl, rfl, rfl, rfl, rfl⟩

/-- Settles O5: the 256 sent bytes against the received sentinel. -/
theorem invalidReceptionRowsCoverDefinedBytes : Obligations.InvalidReceptionRowsCoverDefinedBytes := by
  unfold Obligations.InvalidReceptionRowsCoverDefinedBytes
  decide

end Sys2Proof.Proofs
end

