-- ==== Sys2Proof/Proofs/Session.lean ====
section
/-! PROOF. Chunks and the start of a session (41_segmentation.md R163, R164; 44_orchestrator.md R252, R270): what a filled slot
holds, what `build_initial` and ResetSession leave when they answer, when they answer, and where they stop. -/

namespace Sys2Proof.Proofs

open Sys2Proof.Machine Sys2Proof.Claims Sys2Proof.Laws

/-! ## A filled slot -/

@[simp] theorem slot_afterFill_same (i : Bit) (s : State) (bs : List Byte) :
    (afterFill i s bs).slot i = filled (s.slot i) bs (s.txRem - chunkSize s) := slot_setSlot_same s i _

@[simp] theorem slot_afterFill_not (i : Bit) (s : State) (bs : List Byte) :
    (afterFill i s bs).slot (~~~i) = s.slot (~~~i) := slot_setSlot_not s i _

theorem moreFlag_sub (n r : Nat) : moreFlag (r - n) = if n < r then 1 else 0 := by
  unfold moreFlag
  split
  · rw [if_neg (by omega)]
  · rw [if_pos (by omega)]

theorem withM_iPcb (ns m : Bit) : withM (iPcb ns 0) m = iPcb ns m := by revert ns m; decide

/-- The slot of a chunk `I(ns, M)`: its control byte and LEN, and its information field, which the buffer gives (R163). -/
theorem filled_of_readTx {s : State} {f : Frame} {ns : Bit} {a n r : Nat} {bs : List Byte} (hf : f.pcb = iPcb ns 0)
    (hn : n ≤ 254) (h : readTx s a n = .ok bs) :
    (filled f bs (r - n)).pcb = iPcb ns (if n < r then 1 else 0) ∧ (filled f bs (r - n)).len.toNat = n ∧
      ∀ k, k < n → s.txbuf.read (a + k) = some (infAt (filled f bs (r - n)) k) := by
  obtain ⟨hlen, -, hread⟩ := readTx_inv h
  refine ⟨?_, ?_, fun k hk => ?_⟩
  · rw [filled, withBlock_pcb, hf, withM_iPcb, moreFlag_sub]
  · rw [filled, withBlock_len, hlen, BitVec.toNat_ofNat, Nat.mod_eq_of_lt (by omega)]
  · rw [hread k hk, filled, infAt_withBlock _ _ (hlen ▸ hk) (by omega), List.getElem?_eq_getElem (hlen ▸ hk)]

/-! ## The initial I-block -/

/-- The cursor and IFS are at their call-initial values, so that the next chunk is the first of a session (R252). -/
structure AtStart (s : State) : Prop where
  ifs : s.ifs = s.cfg.ifsDefault
  txPtr : s.txPtr = 0
  txRem : s.txRem = s.txLen0

theorem chunkSize_initialSlot {s : State} (h : AtStart s) : chunkSize (initialSlot s) = firstChunk s.cfg s.txLen0 := by
  show min s.txRem (min s.ifs.toNat s.cfg.infMax) = _
  rw [h.ifs, h.txRem, Nat.min_comm, firstChunk]

theorem firstChunk_le_len (c : Config.Params) (n : Nat) : firstChunk c n ≤ n := Nat.min_le_right _ _

/-- What `build_initial` leaves: the initial I-block in the current slot, the cursor behind it, the rest as it was (R252). -/
theorem buildInitial_leaves {s t : State} (hs : AtStart s) (h : buildInitial s = .ok t) :
    InitialBlock s.seqIf t ∧ t.pending = s.pending ∧
      t = { s with slot0 := t.slot0, slot1 := t.slot1, txPtr := t.txPtr, txRem := t.txRem, txsel := s.active } := by
  obtain ⟨bs, hread, rfl⟩ := buildInitial_inv h
  have hpcb : ((initialSlot s).slot s.active).pcb = iPcb (~~~s.seqIf) 0 := by simp [initialSlot]
  have hsize := chunkSize_initialSlot hs
  have hfilled := filled_of_readTx (r := s.txRem) hpcb (chunkSize_le_max _) hread
  rw [hsize, hs.txPtr, hs.txRem] at hfilled
  have hcurrent : State.current { afterFill s.active (initialSlot s) bs with txsel := s.active } =
      filled ((initialSlot s).slot s.active) bs (s.txLen0 - firstChunk s.cfg s.txLen0) := by
    rw [← hsize, ← hs.txRem]; exact slot_afterFill_same _ _ _
  obtain ⟨hcontrol, hlen, hinf⟩ := hfilled
  refine ⟨⟨?_, ?_, fun k hk => ?_, ?_, ?_⟩, ?_, rfl⟩
  · rw [hcurrent]; exact hcontrol
  · rw [hcurrent]; exact hlen
  · rw [hcurrent, ← hinf k hk, Nat.zero_add]; rfl
  · show s.txPtr + chunkSize (initialSlot s) = _
    rw [hs.txPtr, hsize, Nat.zero_add]; rfl
  · show s.txRem - chunkSize (initialSlot s) = _
    rw [hs.txRem, hsize]; rfl
  · exact (slot_afterFill_not s.active (initialSlot s) bs).trans (slot_setSlot_not s s.active _)

/-- `build_initial` answers when the first chunk is written (R340). -/
theorem buildInitial_ok {s : State} (hs : AtStart s) (hw : FirstChunkWritten s.cfg s.txLen0 s.txbuf) :
    ∃ t, buildInitial s = .ok t := by
  obtain ⟨bs, hread, -⟩ := readTx_ok (initialSlot s) 0 (firstChunk s.cfg s.txLen0)
    (.inr ((Nat.zero_add _).symm ▸ firstChunk_le_len _ _)) (fun k hk => (Nat.zero_add k).symm ▸ hw k hk)
  exact ⟨_, buildInitial_of_read (by rw [hs.txPtr, chunkSize_initialSlot hs]; exact hread)⟩

/-- `build_initial` stops at the first byte of the first chunk that nothing has written (U1). -/
theorem buildInitial_unwritten {s : State} {k : Nat} (hs : AtStart s)
    (hu : FirstUnwritten s.txbuf 0 (firstChunk s.cfg s.txLen0) k) : buildInitial s = .error (.txUnwritten k) := by
  obtain ⟨hk, hw, hn⟩ := hu
  have hin : 0 + k < s.txLen0 := by have := firstChunk_le_len s.cfg s.txLen0; omega
  have hread := readTx_unwritten (s := initialSlot s) hk hin hw hn
  rw [Nat.zero_add] at hread
  exact buildInitial_of_fault (by rw [hs.txPtr, chunkSize_initialSlot hs]; exact hread)

/-! ## ResetSession -/

theorem atStart_sessionStart (s : State) : AtStart (sessionStart s) := ⟨rfl, rfl, rfl⟩

theorem actResetSession_of_buildInitial {s u : State} (h : buildInitial (sessionStart s) = .ok u) :
    actResetSession s = .ok { u with phase := .sending } := by
  rw [sessionStart] at h
  rw [actResetSession, h]

/-- ResetSession starts a new session whenever it answers (R270). -/
theorem actResetSession_restarts {s t : State} (h : actResetSession s = .ok t) : SessionRestarted s t := by
  obtain ⟨u, hu, rfl⟩ := resetSession_inv h
  obtain ⟨hblock, hpending, hframe⟩ := buildInitial_leaves (atStart_sessionStart s) hu
  refine ⟨?_, hblock, hpending, ?_⟩
  · rw [hframe]; exact ⟨rfl, rfl, rfl, rfl, rfl, rfl, rfl, rfl, rfl⟩
  · rw [hframe]; rfl

theorem actResetSession_ok {s : State} (hw : FirstChunkWritten s.cfg s.txLen0 s.txbuf) :
    ∃ t, actResetSession s = .ok t := by
  obtain ⟨u, hu⟩ := buildInitial_ok (atStart_sessionStart s) hw
  exact ⟨_, actResetSession_of_buildInitial hu⟩

theorem actResetSession_unwritten {s : State} {k : Nat} (hu : FirstUnwritten s.txbuf 0 (firstChunk s.cfg s.txLen0) k) :
    actResetSession s = .error (.txUnwritten k) := by
  have h := buildInitial_unwritten (atStart_sessionStart s) hu
  rw [sessionStart] at h
  rw [actResetSession, h]

/-- Settles O31: the row is ResetSession, which answers because the first chunk is written. -/
theorem resyncResponseRestartsTheSession : Obligations.ResyncResponseRestartsTheSession := by
  intro s hw
  obtain ⟨t, ht⟩ := actResetSession_ok hw
  exact ⟨t, answer_eq_next.2 ht, actResetSession_restarts ht⟩

/-! ## ResetDevice -/

/-- A device reset that is offered and not yet spent is the next answer of `T.reset`: ok restarts the session, any other ends the
command (R269). -/
theorem actResetDevice_of_available {s : State} {r : ResetAnswer} {rest : List ResetAnswer} (hd : s.resetDone = false)
    (ho : s.opt.hasReset = true) (hr : s.resets = r :: rest) :
    actResetDevice s =
      if r = .ok then actResetSession { s with resetDone := true, resets := rest, calls := .reset :: s.calls }
      else .ok (actFail .deviceResetFailure { s with resetDone := true, resets := rest, calls := .reset :: s.calls }) := by
  simp only [actResetDevice, hd, ho, resetLink, hr, Bool.not_true, Bool.or_false, Bool.false_eq_true, if_false]
  cases r <;> rfl

theorem actResetDevice_of_unavailable {s : State} (h : s.resetDone = true ∨ s.opt.hasReset = false) :
    actResetDevice s = .ok (actFail .deviceResetFailure s) := by
  rw [actResetDevice, if_pos (by simpa using h)]

end Sys2Proof.Proofs
end

