-- ==== Sys2Proof/Proofs/EngineStep.lean ====
section
/-! PROOF. What a step of the Evaluating phase can do, said once as two relations: `Judged`, what the accounting of a verdict leaves
(R190 to R194), and `Matched`, what the meaning of a matching row leaves (43_rule_table.md). From these the statements about the step
itself: the fetch, the cycle of PHASE and the table lookup. -/

namespace Sys2Proof.Proofs

open Sys2Proof.Machine Sys2Proof.Laws

/-! ## The accounting of a verdict -/

/-- The state with the verdict `c` latched and counted (R192, R193). -/
def counted (c : ErrCode) (w : State) : State := countError { w with rErr := c }

/-- The state with the device reset's call made, its answer still to be acted on (R269). -/
def afterReset (w : State) : State := (resetLink { w with resetDone := true }).2

/-- Everything the accounting of the verdict `c` can leave of the state `w`, with the condition it does so under. -/
inductive Judged (c : ErrCode) (w : State) : State → Prop
  /-- The reception passed: the table is consulted (R190). -/
  | accepted (hc : c = 0) : Judged c w { w with rErr := 0, stage := .lookup }
  /-- The error is counted and the table is consulted (R193). -/
  | consulted (hc : c ≠ 0) (hbudget : w.errors + 1 < w.cfg.errorResetLimit)
      (hresync : w.sentI = false ∨ w.errors + 1 < w.cfg.errorResyncLimit) :
      Judged c w { counted c w with stage := .lookup }
  /-- The resync request takes the place of the I-block (R194 (b)). -/
  | resynced (hc : c ≠ 0) (hbudget : w.errors + 1 < w.cfg.errorResetLimit) (hsent : w.sentI = true)
      (hresync : w.cfg.errorResyncLimit ≤ w.errors + 1) :
      Judged c w (actContinue (putResyncRequest (counted c w)))
  /-- The budget is exhausted and there is no reset to try (R194 (a), R269). -/
  | exhausted (hc : c ≠ 0) (hbudget : w.cfg.errorResetLimit ≤ w.errors + 1)
      (hspent : w.resetDone = true ∨ w.opt.hasReset = false) :
      Judged c w (actFail .deviceResetFailure (counted c w))
  /-- The device reset was tried and did not succeed (R269). -/
  | resetFailed (hc : c ≠ 0) (hbudget : w.cfg.errorResetLimit ≤ w.errors + 1) :
      Judged c w (actFail .deviceResetFailure (afterReset (counted c w)))
  /-- The device reset succeeded and a new session starts (R269, R270). -/
  | restarted (hc : c ≠ 0) (hbudget : w.cfg.errorResetLimit ≤ w.errors + 1) {t : State}
      (hsession : actResetSession (afterReset (counted c w)) = .ok t) : Judged c w t

theorem account_judged {c : ErrCode} {w t : State} (h : account (c, w) = .ok t) : Judged c w t := by
  obtain ⟨hc, he⟩ | ⟨hc, he⟩ := account_cases c w <;> rw [he] at h
  · cases h; exact .accepted hc
  · obtain ⟨hb, he⟩ | ⟨hb, hs, hr, he⟩ | ⟨hb, hr, he⟩ := escalate_cases (countError { w with rErr := c }) <;> rw [he] at h
    · obtain ⟨hspent, rfl⟩ | ⟨-, -, ⟨-, rfl⟩ | ⟨-, hsession⟩⟩ := resetDevice_inv h
      · exact .exhausted hc hb hspent
      · exact .resetFailed hc hb
      · exact .restarted hc hb hsession
    · cases h; exact .resynced hc hb hs hr
    · cases h; exact .consulted hc hb hr

/-! ## The rows of the rule table -/

/-- Everything the meaning of the matching row `i` can leave, with the condition it does so under. -/
inductive Matched (i : Instr) (s : State) : State → Prop
  /-- A request of the card is echoed once and IFS takes its size (R210). -/
  | ifsEchoed : Matched i s (actSingleShot { putEcho .ifs s with ifs := infAt s.rxf 0 })
  /-- A request of the card is echoed once and WAIT_MULT takes its multiplier (R214). -/
  | wtxEchoed : Matched i s (actSingleShot { putEcho .wtx s with waitMult := infAt s.rxf 0 })
  /-- The last block is delivered and the command completes (R211, R217). -/
  | deliveredLast {u : State} (hdrain : drainInbound s = .ok u) : Matched i s (actComplete u)
  /-- A further block is delivered and acknowledged (R212, R218). -/
  | deliveredMore (b : Bit) {u : State} (hdrain : drainInbound s = .ok u) : Matched i s (actContinue (putAckR b u))
  /-- The next chunk is sent (R220). -/
  | chunkSent (ns : Bit) {bs : List Byte}
      (hread : readTx (chunkSlot ns s) s.txPtr (chunkSize (chunkSlot ns s)) = .ok bs) :
      Matched i s (actContinue (afterFill (~~~s.active) (chunkSlot ns s) bs))
  /-- The current slot is sent again (R264). -/
  | sentAgain (hbound : s.retransmits < s.cfg.retransmitLimit) :
      Matched i s { s with retransmits := s.retransmits + 1, txsel := s.active, phase := .sending }
  /-- The resync request has been sent often enough (R264). -/
  | resyncFailed : Matched i s (actFail .deviceResetFailure s)
  /-- The resync request takes the place of a frame sent often enough (R264). -/
  | resynced : Matched i s (actContinue (putResyncRequest s))
  /-- An error R-block is sent once (R223, R231). -/
  | errorAnswered : Matched i s (actSingleShot (putErrorR s))
  /-- The command completes (R216, R225). -/
  | completed : Matched i s (actComplete s)
  /-- A new session starts (R224). -/
  | restarted {t : State} (hsession : actResetSession s = .ok t) : Matched i s t
  /-- The command ends by the card's abort (R226). -/
  | aborted (n : Bit) (hi : i = .abortRespToR0 n) : Matched i s (actFail .abort s)
  /-- An abort request is sent (R227). -/
  | abortRequested : Matched i s (actContinue (putAbortRequest s))

theorem exec_matched {i : Instr} {s t : State} (hi : encodeBlock i = none) (h : exec i s = .next t) : Matched i s t := by
  rcases pair_form hi s with he | he | he | ⟨b, he⟩ | ⟨ns, he⟩ | he | he | he | he | ⟨n, hn, he⟩ | he <;> rw [he] at h
  · cases h; exact .ifsEchoed
  · cases h; exact .wtxEchoed
  · obtain ⟨u, hu, rfl⟩ := deliverLast_inv (answer_eq_next.1 h)
    exact .deliveredLast hu
  · obtain ⟨u, hu, rfl⟩ := deliverMore_inv (answer_eq_next.1 h)
    exact .deliveredMore b hu
  · obtain ⟨bs, hbs, rfl⟩ := nextChunk_inv (answer_eq_next.1 h)
    exact .chunkSent ns hbs
  · cases h
    obtain ⟨hb, he⟩ | ⟨-, -, he⟩ | ⟨-, -, he⟩ := retransmit_cases s <;> rw [he]
    · exact .sentAgain hb
    · exact .resyncFailed
    · exact .resynced
  · cases h; exact .errorAnswered
  · cases h; exact .completed
  · exact .restarted (answer_eq_next.1 h)
  · cases h; exact .aborted n hn
  · cases h; exact .abortRequested

/-! ## The step -/

/-- The state with an unrecognised pair forced to the sentinel (R196). -/
def forced (s : State) : State :=
  { s with rxf := { s.rxf with pcb := s.cfg.pcbInvalid }, pass := true, stage := .precheck }

theorem step_precheck_inv {s t : State} (he : s.nextEvent = none) (hp : s.phase = .evaluating) (hs : s.stage = .precheck)
    (h : step s = .next t) : Judged (precheck s.takeEvent).1 (precheck s.takeEvent).2 t := by
  rw [step_precheck he hp hs] at h
  split at h
  · cases h
  · exact account_judged (answer_eq_next.1 h)

/-- A lookup runs a matching row; without one it forces the sentinel or ends the command (R190, R196, R198). -/
theorem step_lookup_inv {s t : State} (he : s.nextEvent = none) (hp : s.phase = .evaluating) (hs : s.stage = .lookup)
    (h : step s = .next t) :
    (∃ i, decodePair s.current.pcb (s.rowByte s.rx) = some i ∧ Matched i s.takeEvent t) ∨
    (decodePair s.current.pcb (s.rowByte s.rx) = none ∧
      ((s.rx = s.cfg.pcbInvalid ∨ s.cfg.reevalLimit ≤ s.pass.toNat) ∧ t = actFail .hardFail s.takeEvent ∨
        s.rx ≠ s.cfg.pcbInvalid ∧ s.pass.toNat < s.cfg.reevalLimit ∧ t = forced s.takeEvent)) := by
  obtain ⟨i, hd, heq⟩ | ⟨hd, heq⟩ := step_lookup he hp hs <;> rw [heq] at h
  · exact .inl ⟨i, hd, exec_matched (encodePair_of_decodePair hd) h⟩
  · refine .inr ⟨hd, ?_⟩
    obtain ⟨hc, heq⟩ | ⟨hr, hc, heq⟩ := noMatch_cases s.takeEvent <;> rw [heq] at h <;> cases h
    · exact .inl ⟨hc, rfl⟩
    · exact .inr ⟨hr, hc, rfl⟩

/-! ## Sending and receiving -/

/-- The state after Sending: the selected slot is encoded and handed over, and the current one is selected again (R254). -/
def afterSending (s : State) : State :=
  { transmit (wireBytes (encodedFrame s.txsel s)) (s.setSlot s.txsel (encodedFrame s.txsel s)) with
    txsel := s.active, phase := .receiving }

theorem sendPhase_of_room {s : State} (h : (s.slot s.txsel).len ≠ 0xFF) : sendPhase s = .ok (afterSending s) :=
  sendPhase_of_encodeSlot (encodeSlot_of_room h)

theorem sendPhase_of_noRoom {s : State} (h : (s.slot s.txsel).len = 0xFF) : sendPhase s = .error .lenInvalid := by
  rw [sendPhase, encodeSlot, if_pos h]

/-- Whatever the transport answers, and whether the window is open or not, `decode` moves RXF, the window, the answers, the draw
counter and the record of calls only. -/
theorem decodeFrame_keeps (n : Nat) (s : State) : ∃ f ps rs d w cs, (decodeFrame n s).2 =
    { s with rxf := f, polls := ps, receives := rs, draws := d, window := w, calls := cs } := by
  have hpoll := poll_state s.opt.hostAddr n s
  unfold decodeFrame
  split <;> rename_i u hu <;> rw [hu] at hpoll <;> replace hpoll : u = _ := hpoll
  case h_1 => exact ⟨_, _, _, _, _, _, hpoll⟩
  case h_2 =>
    obtain ⟨f, rs, d, cs, h⟩ :=
      decodeBody_receive_state 2 (headerFrom (receive 2 false u).2.rxf (s.opt.hostAddr :: (receive 2 false u).1)) u
    exact ⟨f, _, rs, d, false, _, h.trans (by rw [hpoll])⟩
  case h_3 =>
    obtain ⟨f, rs, d, cs, h⟩ :=
      decodeBody_receive_state 3 (headerFrom (receive 3 false u).2.rxf (receive 3 false u).1) u
    exact ⟨f, _, rs, d, false, _, h.trans (by rw [hpoll])⟩

theorem receivePhase_keeps (s : State) : ∃ f ps rs d w cs, receivePhase s =
    { s with
      rxf := f, polls := ps, receives := rs, draws := d, window := w, calls := cs, waitMult := 1, phase := .evaluating
      stage := .precheck, pass := false } := by
  obtain ⟨f, ps, rs, d, w, cs, hdecode⟩ := decodeFrame_keeps (deadline s) { s with waitMult := 1 }
  obtain ⟨g, hsub⟩ := substituteSentinel_state (decodeFrame (deadline s) { s with waitMult := 1 })
  refine ⟨g, ps, rs, d, w, cs, ?_⟩
  unfold receivePhase
  rw [hsub, hdecode]

/-! ## Every step of the engine -/

/-- Everything a step without a host event can do, by PHASE and stage (R253, R190). -/
inductive EngineMove (s : State) : State → Prop
  | waits (hp : s.phase = .idle ∨ s.phase = .done ∨ s.phase = .failed) : EngineMove s s.takeEvent
  | sends (hp : s.phase = .sending) (hroom : (s.slot s.txsel).len ≠ 0xFF) : EngineMove s (afterSending s.takeEvent)
  | receives (hp : s.phase = .receiving) (f : Frame) (ps : List PollAnswer) (rs : List (List Byte)) (d : Nat) (w : Bool)
      (cs : List TransportCall) : EngineMove s { s.takeEvent with
        rxf := f, polls := ps, receives := rs, draws := d, window := w, calls := cs, waitMult := 1, phase := .evaluating
        stage := .precheck, pass := false }
  | judges (hp : s.phase = .evaluating) (hs : s.stage = .precheck) {t : State}
      (hj : Judged (precheck s.takeEvent).1 (precheck s.takeEvent).2 t) : EngineMove s t
  | runsRow (hp : s.phase = .evaluating) (hs : s.stage = .lookup) {i : Instr}
      (hd : decodePair s.current.pcb (s.rowByte s.rx) = some i) {t : State} (hm : Matched i s.takeEvent t) : EngineMove s t
  | hardFails (hp : s.phase = .evaluating) (hs : s.stage = .lookup)
      (hd : decodePair s.current.pcb (s.rowByte s.rx) = none)
      (hc : s.rx = s.cfg.pcbInvalid ∨ s.cfg.reevalLimit ≤ s.pass.toNat) : EngineMove s (actFail .hardFail s.takeEvent)
  | forces (hp : s.phase = .evaluating) (hs : s.stage = .lookup) (hr : s.rx ≠ s.cfg.pcbInvalid)
      (hpass : s.pass.toNat < s.cfg.reevalLimit) : EngineMove s (forced s.takeEvent)

theorem step_engineMove {s t : State} (he : s.nextEvent = none) (h : step s = .next t) : EngineMove s t := by
  cases hp : s.phase with
  | idle => rw [step_waiting he (.inl hp)] at h; cases h; exact .waits (.inl hp)
  | done => rw [step_waiting he (.inr (.inl hp))] at h; cases h; exact .waits (.inr (.inl hp))
  | failed => rw [step_waiting he (.inr (.inr hp))] at h; cases h; exact .waits (.inr (.inr hp))
  | sending =>
    rw [step_sending he hp] at h
    by_cases hroom : (s.slot s.txsel).len = 0xFF
    · rw [sendPhase_of_noRoom (s := s.takeEvent) hroom] at h; cases h
    · rw [sendPhase_of_room (s := s.takeEvent) hroom] at h; cases h; exact .sends hp hroom
  | receiving =>
    obtain ⟨f, ps, rs, d, w, cs, heq⟩ := receivePhase_keeps s.takeEvent
    rw [step_receiving he hp, heq] at h; cases h; exact .receives hp f ps rs d w cs
  | evaluating =>
    cases hs : s.stage with
    | precheck => exact .judges hp hs (step_precheck_inv he hp hs h)
    | lookup =>
      obtain ⟨i, hd, hm⟩ | ⟨hd, ⟨hc, rfl⟩ | ⟨hr, hpass, rfl⟩⟩ := step_lookup_inv he hp hs h
      · exact .runsRow hp hs hd hm
      · exact .hardFails hp hs hd hc
      · exact .forces hp hs hr hpass

/-! ## The fetch -/

theorem evalStep_of_decode {s : State} {i : Instr} (h : decodeBytes s.fetch = .ok i) : evalStep s = exec i s := by
  rw [evalStep, h]

theorem fetch_precheck {s : State} (h : s.stage = .precheck) : s.fetch = [s.rowByte s.rxf.pcb] := by
  rw [State.fetch, h]

theorem fetch_lookup {s : State} (h : s.stage = .lookup) :
    s.fetch = [if s.rErr ≠ 0 then 0xFF else s.rowByte s.rxf.pcb, s.current.pcb] := by
  rw [← rowByte_rx, State.fetch, h]

theorem step_evaluating {s : State} (he : s.nextEvent = none) (hp : s.phase = .evaluating) :
    step s = evalStep s.takeEvent := by
  rw [step, he]
  simp only [engineStep, takeEvent_phase, hp]

/-- Settles O6: the step fetches what the stage says, and runs what it decodes to. -/
theorem stepRunsDecodedInstruction : Obligations.StepRunsDecodedInstruction := by
  intro s i he hp h
  have hfetch : decodeBytes s.takeEvent.fetch = .ok i := by
    obtain ⟨hs, hd⟩ | ⟨hs, hd⟩ := h
    · rw [fetch_precheck (s := s.takeEvent) hs]; exact hd
    · rw [fetch_lookup (s := s.takeEvent) hs]; exact hd
  rw [step_evaluating he hp, evalStep_of_decode hfetch]
  rfl

/-! ## The phases -/

theorem phase_of_actResetSession {s t : State} (h : actResetSession s = .ok t) : t.phase = .sending := by
  obtain ⟨u, -, rfl⟩ := resetSession_inv h; rfl

theorem Judged.phase {c : ErrCode} {w t : State} (hp : w.phase = .evaluating) (h : Judged c w t) :
    t.phase = .evaluating ∨ t.phase = .sending ∨ t.phase = .failed := by
  cases h with
  | accepted | consulted => exact .inl hp
  | resynced => exact .inr (.inl rfl)
  | exhausted | resetFailed => exact .inr (.inr rfl)
  | restarted _ _ hsession => exact .inr (.inl (phase_of_actResetSession hsession))

theorem Matched.phase {i : Instr} {s t : State} (h : Matched i s t) :
    t.phase = .sending ∨ t.phase = .done ∨ t.phase = .failed := by
  cases h with
  | restarted hsession => exact .inl (phase_of_actResetSession hsession)
  | deliveredLast | completed => exact .inr (.inl rfl)
  | resyncFailed | aborted => exact .inr (.inr rfl)
  | _ => exact .inl rfl

theorem phase_precheck_snd (s : State) : (precheck s).2.phase = s.phase := by
  rw [(precheck_shape s).2]

theorem phase_step_evaluating {s t : State} (he : s.nextEvent = none) (hp : s.phase = .evaluating) (h : step s = .next t) :
    t.phase = .evaluating ∨ t.phase = .sending ∨ t.phase = .done ∨ t.phase = .failed := by
  cases hs : s.stage with
  | precheck =>
    obtain hp | hp | hp := (step_precheck_inv he hp hs h).phase ((phase_precheck_snd s.takeEvent).trans hp)
    · exact .inl hp
    · exact .inr (.inl hp)
    · exact .inr (.inr (.inr hp))
  | lookup =>
    obtain ⟨i, -, hm⟩ | ⟨-, ⟨-, rfl⟩ | ⟨-, -, rfl⟩⟩ := step_lookup_inv he hp hs h
    · exact .inr hm.phase
    · exact .inr (.inr (.inr rfl))
    · exact .inl hp

/-- Settles O7: each phase's step, and the phases an evaluation leads to. -/
theorem phaseAdvancesAsTheCycle : Obligations.PhaseAdvancesAsTheCycle := by
  intro s t he h
  refine ⟨fun hp => ?_, fun hp => ?_, fun hp => phase_step_evaluating he hp h, fun hp => ?_⟩
  · rw [step_sending he hp, answer_eq_next, sendPhase] at h
    split at h
    · cases h
    · cases h; rfl
  · rw [step_receiving he hp] at h; cases h; rfl
  · rw [step_waiting he (by tauto)] at h; cases h; rfl

/-! ## The table lookup -/

theorem rx_eq_sentinel {s : State} : s.rx = s.cfg.pcbInvalid ↔ s.rErr ≠ 0 ∨ s.rxf.pcb = s.cfg.pcbInvalid := by
  unfold State.rx
  split
  · exact iff_of_true rfl (.inl ‹_›)
  · exact ⟨.inr, fun h => h.resolve_left ‹_›⟩

/-- Settles O33: the two outcomes of a key without a row. -/
theorem unrecognisedPairIsForcedThenHardFails : Obligations.UnrecognisedPairIsForcedThenHardFails := by
  intro s he hp hs hd
  rw [← rowByte_rx] at hd
  obtain ⟨i, hd', -⟩ | ⟨-, hstep⟩ := step_lookup he hp hs
  · rw [hd] at hd'; cases hd'
  rw [hstep]
  obtain ⟨hc, heq⟩ | ⟨hr, hc, heq⟩ := noMatch_cases s.takeEvent <;> rw [heq, answer_ok]
  · refine ⟨fun h0 hn hpass => ?_, fun _ => ⟨_, rfl, rfl⟩⟩
    obtain hc | hc := hc
    · exact absurd (rx_eq_sentinel.1 hc) (by simp [h0, hn])
    · exact absurd hc (Nat.not_le.2 hpass)
  · refine ⟨fun _ _ _ => rfl, fun h => ?_⟩
    obtain h | h | h := h
    · exact absurd (rx_eq_sentinel.2 (.inl h)) hr
    · exact absurd (rx_eq_sentinel.2 (.inr h)) hr
    · exact absurd h (Nat.not_le.2 hc)

theorem errors_of_actResetSession {s t : State} (h : actResetSession s = .ok t) : t.errors = 0 := by
  obtain ⟨u, hu, rfl⟩ := resetSession_inv h
  obtain ⟨bs, -, rfl⟩ := buildInitial_inv hu
  rfl

theorem errors_drainInbound {s t : State} (h : drainInbound s = .ok t) : t.errors = s.errors := by
  obtain ⟨-, rfl⟩ | ⟨-, m, -, rfl⟩ := drain_inv h <;> rfl

/-- No row counts an error: it keeps ERRORS or clears it (R197). -/
theorem Matched.errors_le {i : Instr} {s t : State} (h : Matched i s t) : t.errors ≤ s.errors := by
  cases h with
  | restarted hsession => rw [errors_of_actResetSession hsession]; exact Nat.zero_le _
  | deliveredLast hdrain => exact (errors_drainInbound hdrain).le
  | deliveredMore | chunkSent | resynced | abortRequested => exact Nat.zero_le _
  | ifsEchoed | wtxEchoed | sentAgain | resyncFailed | errorAnswered | completed | aborted => exact le_refl _

/-- Settles O34: a matching row leaves the loop; the re-entry is the forced sentinel. -/
theorem lookupNeverCountsAnError : Obligations.LookupNeverCountsAnError := by
  intro s t he hp hs h
  obtain ⟨i, -, hm⟩ | ⟨-, ⟨-, rfl⟩ | ⟨hr, hpass, rfl⟩⟩ := step_lookup_inv he hp hs h
  · exact ⟨hm.errors_le, fun ht => by obtain hm | hm | hm := hm.phase <;> rw [ht] at hm <;> cases hm⟩
  · exact ⟨le_refl _, fun ht => by cases ht⟩
  · rw [ne_eq, rx_eq_sentinel, not_or, not_not] at hr
    exact ⟨le_refl _, fun _ => ⟨hr.1, hr.2, hpass, rfl, rfl, rfl, rfl⟩⟩

end Sys2Proof.Proofs
end

