-- ==== Sys2Proof/Proofs/HostEvents.lean ====
section
/-! PROOF. The host's events (44_orchestrator.md R250 to R252; 70_reset_and_hazards.md R330, R333, R340, R341): when each is refused,
and what it leaves when it is not. -/

namespace Sys2Proof.Proofs

open Sys2Proof.Machine Sys2Proof.Claims Sys2Proof.Laws

section Events

variable {s t : State} {e : HostEvent}

theorem step_of_event (he : s.nextEvent = some e) : step s = hostStep e s.takeEvent := by
  rw [step, he]

/-! ## Writes -/

theorem writeOption_of_idle {f : State → State} (hb : s.busy = false) : writeOption f s = .next (f s) :=
  if_neg (ne_true_of_eq_false hb)

theorem writeBuffer_of_idle {f : State → State} (hb : s.busy = false) : writeBuffer f s = .next (f s) :=
  if_neg (ne_true_of_eq_false hb)

theorem writeOption_of_busy {f : State → State} (hb : s.busy = true) :
    writeOption f s = .refused .optionWriteWhileBusy := if_pos hb

theorem writeBuffer_of_busy {f : State → State} (hb : s.busy = true) :
    writeBuffer f s = .refused .bufferWriteWhileBusy := if_pos hb

theorem writeOption_next {f : State → State} (h : writeOption f s = .next t) : s.busy = false ∧ t = f s := by
  unfold writeOption at h
  split at h
  · cases h
  · rename_i hb; cases h; exact ⟨eq_false_of_ne_true hb, rfl⟩

theorem writeBuffer_next {f : State → State} (h : writeBuffer f s = .next t) : s.busy = false ∧ t = f s := by
  unfold writeBuffer at h
  split at h
  · cases h
  · rename_i hb; cases h; exact ⟨eq_false_of_ne_true hb, rfl⟩

/-- A buffer write changes the byte at its offset and no other. -/
theorem read_write (m : Memory) (a : Nat) (b : Byte) (c : Nat) :
    (m.write a b).read c = if c = a then some b else m.read c := by
  split
  · subst_vars; exact read_write_same m _ b
  · exact read_write_other m b ‹_›

/-! ## TRANSCEIVE -/

theorem optionsReady_iff (w : OptionsWritten) :
    optionsReady w = true ↔ w = { hostAddr := true, nodeAddr := true, bwtBase := true, hook := true, hasReset := true } := by
  obtain ⟨a, b, c, d, e⟩ := w
  simp [optionsReady, and_assoc]

theorem transceive_next {a b : Nat} (h : transceive a b s = .next t) :
    s.busy = false ∧ commandStart a b s = .ok t := by
  unfold transceive at h
  split at h
  · cases h
  · rename_i hb
    split at h
    · exact ⟨eq_false_of_ne_true hb, answer_eq_next.1 h⟩
    · cases h

theorem atStart_commandSetup (a b : Nat) (s : State) : AtStart (commandSetup a b s) := ⟨rfl, rfl, rfl⟩

/-- What a command start leaves when it answers (R251, R252). -/
theorem commandStart_leaves {a b : Nat} (h : commandStart a b s = .ok t) :
    SnapshotRestored t ∧ InitialBlock s.seqIf t ∧ t.slot1 = s.slot1 ∧
      t = { s with
        txLen0 := s.cfg.clip a, rxCap0 := s.cfg.clip b, opt := s.hostOpt, active := 0, resetDone := false, ifs := t.ifs,
        waitMult := t.waitMult, errors := t.errors, retransmits := t.retransmits, txPtr := t.txPtr, txRem := t.txRem,
        rxPtr := t.rxPtr, rxRem := t.rxRem, lastErr := t.lastErr, slot0 := t.slot0, txsel := t.txsel, phase := t.phase } := by
  unfold commandStart at h
  split at h
  · cases h
  · rename_i u hu
    cases h
    obtain ⟨hblock, hpending, hframe⟩ := buildInitial_leaves (atStart_commandSetup a b s) hu
    have hactive : u.active = 0 := congrArg State.active hframe
    have hslot : u.slot1 = s.slot1 := by
      calc u.slot1 = u.pending := by rw [State.pending, hactive]; rfl
        _ = (commandSetup a b s).pending := hpending
        _ = (commandSetup a b s).slot (~~~0) := rfl
        _ = s.slot1 := rfl
    refine ⟨?_, hblock, hslot, ?_⟩
    · rw [hframe]; exact ⟨rfl, rfl, rfl, rfl, rfl, rfl, rfl, rfl, rfl⟩
    · rw [hslot] at hframe; rw [hframe]; rfl

theorem commandStart_ok {a b : Nat} (hw : FirstChunkWritten s.cfg (s.cfg.clip a) s.txbuf) :
    ∃ t, commandStart a b s = .ok t := by
  obtain ⟨u, hu⟩ := buildInitial_ok (atStart_commandSetup a b s) hw
  exact ⟨{ u with phase := .sending }, by rw [commandStart, hu]⟩

theorem commandStart_unwritten {a b k : Nat} (hu : FirstUnwritten s.txbuf 0 (firstChunk s.cfg (s.cfg.clip a)) k) :
    commandStart a b s = .error (.txUnwritten k) := by
  rw [commandStart, buildInitial_unwritten (atStart_commandSetup a b s) hu]

/-- Outside a command and with every option written, TRANSCEIVE is a command start. -/
theorem transceive_of_ready {a b : Nat} (hb : s.busy = false)
    (ho : s.optWritten = { hostAddr := true, nodeAddr := true, bwtBase := true, hook := true, hasReset := true }) :
    transceive a b s = answer (commandStart a b s) := by
  rw [transceive, if_neg (by simp [hb]), if_pos ((optionsReady_iff _).2 ho)]

/-! ## Every event -/

/-- Everything an event of the host can do when it is not refused: the engine is not busy, and the event is a hardware reset, a write of
an option register, a write of a buffer byte, or a command start. -/
theorem hostStep_next (h : hostStep e s = .next t) :
    s.busy = false ∧
      (t = hardwareReset s ∨
        (∃ o w, t = { s with hostOpt := o, optWritten := w }) ∨
        (∃ a b, t = { s with txbuf := s.txbuf.write a b }) ∨
        (∃ a b, t = { s with rxbuf := s.rxbuf.write a b }) ∨
        ∃ a b, commandStart a b s = .ok t) := by
  cases e <;> rw [hostStep] at h
  case hardwareReset =>
    split at h
    · cases h
    · rename_i hb; cases h; exact ⟨eq_false_of_ne_true hb, .inl rfl⟩
  case writeHostAddr | writeNodeAddr | writeBwtBase | writeHook | writeHasReset =>
    obtain ⟨hb, ht⟩ := writeOption_next h
    exact ⟨hb, .inr (.inl ⟨_, _, ht⟩)⟩
  case writeTx =>
    obtain ⟨hb, ht⟩ := writeBuffer_next h
    exact ⟨hb, .inr (.inr (.inl ⟨_, _, ht⟩))⟩
  case writeRx =>
    obtain ⟨hb, ht⟩ := writeBuffer_next h
    exact ⟨hb, .inr (.inr (.inr (.inl ⟨_, _, ht⟩)))⟩
  case transceive =>
    obtain ⟨hb, ht⟩ := transceive_next h
    exact ⟨hb, .inr (.inr (.inr (.inr ⟨_, _, ht⟩)))⟩

end Events

/-- Settles O46: the command start answers because the first chunk is written. -/
theorem transceiveStartsACommand : Obligations.TransceiveStartsACommand := by
  intro s a b he hb ho hw
  obtain ⟨t, ht⟩ := commandStart_ok (s := s.takeEvent) (b := b) hw
  obtain ⟨hsnap, hblock, hslot, hframe⟩ := commandStart_leaves ht
  have hstep : step s = .next t := by
    rw [step_of_event he, hostStep, transceive_of_ready (s := s.takeEvent) hb ho, ht, answer_ok]
  refine ⟨t, hstep, congrArg State.txLen0 hframe, congrArg State.rxCap0 hframe, congrArg State.opt hframe,
    congrArg State.active hframe, congrArg State.resetDone hframe, hsnap, hblock, hslot, ?_⟩
  rw [hframe]
  rfl

/-- Settles O47: a busy engine refuses each event under its own name, and TRANSCEIVE is refused without its options. -/
theorem hostEventsRefusedOutOfPlace : Obligations.HostEventsRefusedOutOfPlace := by
  refine ⟨fun s a b hb he => ?_, fun s hb he => ?_, fun s e hb he hm => ?_, fun s e hb he hm => ?_, fun s a b hb he ho => ?_⟩
    <;> rw [step_of_event he]
  · exact if_pos hb
  · exact if_pos hb
  · cases e
    case writeHostAddr | writeNodeAddr | writeBwtBase | writeHook | writeHasReset =>
      rw [hostStep]; exact writeOption_of_busy hb
    all_goals exact hm.elim
  · cases e
    case writeTx | writeRx => rw [hostStep]; exact writeBuffer_of_busy hb
    all_goals exact hm.elim
  · exact (if_neg (ne_true_of_eq_false hb)).trans (if_neg fun h => ho ((optionsReady_iff _).1 h))

/-- Settles O48: outside a command the event is `hardwareReset` alone. -/
theorem hardwareResetReinitialises : Obligations.HardwareResetReinitialises := by
  intro s he hb
  refine ⟨hardwareReset s.takeEvent, ?_, rfl, rfl, rfl, rfl, rfl, rfl, rfl, rfl⟩
  rw [step_of_event he]
  exact if_neg (ne_true_of_eq_false hb)

/-- Settles O49: the reset state's registers, read. -/
theorem resetStateIsIdle : Obligations.ResetStateIsIdle := ⟨rfl, rfl, rfl, rfl⟩

/-- Settles O50: two buffer writes by what a read finds after them, five option writes in closed form. -/
theorem hostWritesOnePlace : Obligations.HostWritesOnePlace := by
  refine ⟨fun s a b hb he => ?_, fun s a b hb he => ?_, fun s b hb he => ?_, fun s b hb he => ?_, fun s n hb he => ?_,
    fun s h hb he => ?_, fun s b hb he => ?_⟩ <;> rw [step_of_event he, hostStep]
  · exact ⟨_, writeBuffer_of_idle hb, read_write s.txbuf _ b, rfl⟩
  · exact ⟨_, writeBuffer_of_idle hb, read_write s.rxbuf _ b, rfl⟩
  all_goals exact writeOption_of_idle hb

end Sys2Proof.Proofs
end

