-- ==== Sys2Proof/Proofs/Invariant.lean ====
section
/-! PROOF. The invariant of the engine, `EngineInv`: it holds after reset, every operation keeps it, and so every step does; from it, with
a written send buffer, every engine step has a next state (R195). -/

namespace Sys2Proof.Proofs

open Sys2Proof.Machine Sys2Proof.Claims Sys2Proof.Safety Sys2Proof.Laws

/-- Settles O51: each of the reset state's registers meets its bound. -/
theorem resetMeetsTheEngineInvariant : Obligations.ResetMeetsTheEngineInvariant := by
  unfold Obligations.ResetMeetsTheEngineInvariant
  constructor <;> decide

section Operations

variable {s t : State}

/-! ## Slots and the ways out of an evaluation -/

theorem engineInv_takeEvent (h : EngineInv s) : EngineInv s.takeEvent := { h with }

theorem errors_lt_of_engineInv (h : EngineInv s) (hp : s.phase = .evaluating) : s.errors < s.cfg.errorResetLimit :=
  h.errorsBusy (by rw [State.busy, hp])

theorem slotLen_of_engineInv (h : EngineInv s) (i : Bit) : (s.slot i).len ≠ 0xFF :=
  slot_forall (P := fun g => g.len ≠ 0xFF) h.slot0Len h.slot1Len i

/-- A slot may take any frame whose LEN leaves room for the checksum (R92). -/
theorem engineInv_setSlot (h : EngineInv s) (i : Bit) {f : Frame} (hf : f.len ≠ 0xFF) : EngineInv (s.setSlot i f) :=
  have hslots := setSlot_forall (P := fun g => g.len ≠ 0xFF) (i := i) hf h.slot0Len h.slot1Len
  { h with slot0Len := hslots.1, slot1Len := hslots.2 }

theorem engineInv_setPending (h : EngineInv s) (p : Byte) {bs : List Byte} (hbs : bs.length ≤ 254) :
    EngineInv (s.setPending p bs) := engineInv_setSlot h _ (ofNat_chunk_ne _ hbs)

theorem engineInv_actContinue (h : EngineInv s) : EngineInv (actContinue s) :=
  { h with
    rxfLen := nofun, secondPass := nofun, errorsBound := Nat.zero_le _, errorsBusy := fun _ => h.limitPositive
    retransmitsBound := Nat.zero_le _ }

theorem engineInv_actSingleShot (h : EngineInv s) (hb : s.errors < s.cfg.errorResetLimit) : EngineInv (actSingleShot s) :=
  { h with rxfLen := nofun, secondPass := nofun, errorsBusy := fun _ => hb }

/-- A command may end Failed with its error budget exhausted (R194). -/
theorem engineInv_actFail (h : EngineInv { s with errors := 0 }) (hb : s.errors ≤ s.cfg.errorResetLimit) (k : ResultKind) :
    EngineInv (actFail k s) :=
  { h with rxfLen := nofun, secondPass := nofun, errorsBusy := nofun, countFits := clip_lt _ _, errorsBound := hb }

theorem engineInv_clearErrors (h : EngineInv s) : EngineInv { s with errors := 0 } :=
  { h with errorsBound := Nat.zero_le _, errorsBusy := fun _ => h.limitPositive }

theorem engineInv_actComplete (h : EngineInv s) : EngineInv (actComplete s) :=
  { h with
    rxfLen := nofun, secondPass := nofun, errorsBusy := nofun
    countFits := lt_of_le_of_lt (Nat.sub_le _ _) h.rxFits }

/-! ## Deliveries and chunks -/

theorem engineInv_drainInbound (h : EngineInv s) (hd : drainInbound s = .ok t) : EngineInv t := by
  obtain ⟨-, rfl⟩ | ⟨-, m, hm, rfl⟩ := drain_inv hd
  · exact h
  · exact { h with rxWf := (writeRun_keeps hm).1 h.rxWf, rxCursor := cursor_advance h.rxCursor (drainSize_le_rem s) }

theorem engineInv_afterFill (h : EngineInv s) (i : Bit) {a : Nat} {bs : List Byte}
    (hread : readTx s a (chunkSize s) = .ok bs) : EngineInv (afterFill i s bs) :=
  have hlen : bs.length ≤ 254 := (readTx_inv hread).1 ▸ chunkSize_le_max s
  { engineInv_setSlot h i (f := filled (s.slot i) bs (s.txRem - chunkSize s)) (ofNat_chunk_ne _ hlen) with
    txCursor := cursor_advance h.txCursor (chunkSize_le_rem s) }

theorem engineInv_buildInitial (h : EngineInv s) (hb : buildInitial s = .ok t) : EngineInv t := by
  obtain ⟨bs, hread, rfl⟩ := buildInitial_inv hb
  have hinit : EngineInv (initialSlot s) := engineInv_setSlot h _ (slotLen_of_engineInv h s.active)
  exact { engineInv_afterFill hinit s.active hread with }

/-- A session starts from any state that meets the invariant but for ERRORS, which it clears (R270). -/
theorem engineInv_actResetSession (h : EngineInv { s with errors := 0 }) (hr : actResetSession s = .ok t) : EngineInv t := by
  obtain ⟨u, hu, rfl⟩ := resetSession_inv hr
  have hstart : EngineInv (sessionStart s) :=
    { h with
      txCursor := Nat.zero_add _, rxCursor := Nat.zero_add _, retransmitsBound := Nat.zero_le _ }
  have hbuilt := engineInv_buildInitial hstart hu
  have herrors : u.errors = 0 := by obtain ⟨bs, -, rfl⟩ := buildInitial_inv hu; rfl
  exact { hbuilt with
    rxfLen := nofun, secondPass := nofun
    errorsBusy := fun _ => herrors ▸ hbuilt.limitPositive }

/-! ## The two stages of an evaluation -/

theorem engineInv_precheck (h : EngineInv s) : EngineInv (precheck s).2 := by
  rw [(precheck_shape s).2]
  exact { h with }

/-- The counted state meets the invariant but for the budget ERRORS may have exhausted (R193). -/
theorem engineInv_counted {c : ErrCode} (h : EngineInv s) (hc : c ≠ 3) : EngineInv { counted c s with errors := 0 } :=
  { engineInv_clearErrors h with rErrLegal := hc }

theorem afterReset_eq (s : State) : afterReset s =
    { s with resetDone := true, resets := s.resets.tail, draws := (afterReset s).draws, calls := .reset :: s.calls } :=
  resetLink_eq _

theorem engineInv_afterReset (h : EngineInv { s with errors := 0 }) : EngineInv { afterReset s with errors := 0 } := by
  rw [afterReset_eq]
  exact { h with }

theorem Judged.engineInv {c : ErrCode} (hj : Judged c s t) (h : EngineInv s) (hp : s.phase = .evaluating) (hc : c ≠ 3) :
    EngineInv t := by
  have hlt : s.errors < s.cfg.errorResetLimit := errors_lt_of_engineInv h hp
  have hcounted := engineInv_counted h hc
  cases hj with
  | accepted => exact { h with rErrLegal := fun h0 => by cases h0 }
  | consulted _ hbudget =>
    exact { h with rErrLegal := hc, errorsBound := le_of_lt hbudget, errorsBusy := fun _ => hbudget }
  | resynced => exact { engineInv_actContinue (engineInv_setPending hcounted _ (Nat.zero_le _)) with }
  | exhausted => exact engineInv_actFail hcounted hlt _
  | resetFailed => exact engineInv_actFail (engineInv_afterReset hcounted) (by rw [afterReset_eq]; exact hlt) _
  | restarted _ _ hsession => exact engineInv_actResetSession (engineInv_afterReset hcounted) hsession

theorem Matched.engineInv {i : Instr} (hm : Matched i s t) (h : EngineInv s) (hp : s.phase = .evaluating) : EngineInv t := by
  have hlt : s.errors < s.cfg.errorResetLimit := errors_lt_of_engineInv h hp
  have hone (p b : Byte) : EngineInv (s.setPending p [b]) := engineInv_setPending h p (by decide : 1 ≤ 254)
  cases hm with
  | ifsEchoed => exact { engineInv_actSingleShot (hone (sPcb .ifs .response) (infAt s.rxf 0)) hlt with }
  | wtxEchoed => exact { engineInv_actSingleShot (hone (sPcb .wtx .response) (infAt s.rxf 0)) hlt with }
  | deliveredLast hdrain => exact engineInv_actComplete (engineInv_drainInbound h hdrain)
  | deliveredMore b hdrain =>
    exact engineInv_actContinue (engineInv_setPending (engineInv_drainInbound h hdrain) _ (Nat.zero_le _))
  | chunkSent ns hread =>
    have hslot : EngineInv (chunkSlot ns s) := engineInv_setSlot h _ (slotLen_of_engineInv h (~~~s.active))
    exact engineInv_actContinue (engineInv_afterFill hslot _ hread)
  | sentAgain hbound =>
    exact { h with rxfLen := nofun, secondPass := nofun, errorsBusy := fun _ => hlt, retransmitsBound := hbound }
  | resyncFailed | aborted => exact engineInv_actFail (engineInv_clearErrors h) h.errorsBound _
  | resynced | abortRequested => exact engineInv_actContinue (engineInv_setPending h _ (Nat.zero_le _))
  | errorAnswered => exact engineInv_actSingleShot (engineInv_setPending h _ (Nat.zero_le _)) hlt
  | completed => exact engineInv_actComplete h
  | restarted hsession => exact engineInv_actResetSession (engineInv_clearErrors h) hsession

theorem engineInv_forced (h : EngineInv s) : EngineInv (forced s) :=
  { h with rxfLen := fun _ _ => rfl, secondPass := fun _ _ => rfl }

theorem engineInv_step_evaluating (h : EngineInv s) (he : s.nextEvent = none) (hp : s.phase = .evaluating)
    (hstep : step s = .next t) : EngineInv t := by
  have h := engineInv_takeEvent h
  cases hs : s.stage with
  | precheck =>
    exact (step_precheck_inv he hp hs hstep).engineInv (engineInv_precheck h)
      ((phase_precheck_snd s.takeEvent).trans hp) (precheck_shape _).1
  | lookup =>
    obtain ⟨i, -, hm⟩ | ⟨-, ⟨-, rfl⟩ | ⟨-, -, rfl⟩⟩ := step_lookup_inv he hp hs hstep
    · exact hm.engineInv h hp
    · exact engineInv_actFail (engineInv_clearErrors h) h.errorsBound _
    · exact engineInv_forced h

/-! ## Sending and receiving -/

theorem hookedFrame_len_ne (g : HookedFrame) : (hookedFrame g).len ≠ 0xFF :=
  ofNat_chunk_ne _ (Nat.le_of_lt_succ g.len.isLt)

/-- A hook leaves room for the checksum where there was room (R137). -/
theorem applyHook_len_ne (hook : Option Nat) (d : Direction) {f : Frame} (hf : f.len ≠ 0xFF) :
    (applyHook hook d f).len ≠ 0xFF := by
  cases hook with
  | none => exact hf
  | some k => exact hookedFrame_len_ne _

theorem engineInv_step_sending (h : EngineInv s) (he : s.nextEvent = none) (hp : s.phase = .sending)
    (hstep : step s = .next t) : EngineInv t := by
  have hroom := slotLen_of_engineInv h s.txsel
  rw [step_sending he hp, sendPhase_of_room (s := s.takeEvent) hroom] at hstep
  cases hstep
  have hsent := engineInv_setSlot h s.txsel (applyHook_len_ne s.opt.hook .transmit (f := sealed s.opt.nodeAddr (s.slot s.txsel)) hroom)
  exact { hsent with
    rxfLen := nofun, secondPass := nofun
    errorsBusy := fun _ => h.errorsBusy (by rw [State.busy, hp]) }

/-- A body that `decode` accepts has room for the checksum (R92, R142). -/
theorem decodeBody_len (s : State) : (decodeBody s).1 = none ∨ (decodeBody s).2.rxf.len ≠ 0xFF := by
  cases hbad : s.cfg.lenBad s.rxf.len with
  | true => exact .inl (congrArg Prod.fst (decodeBody_invalid hbad))
  | false =>
    refine .inr ?_
    unfold decodeBody
    rw [if_neg (ne_true_of_eq_false hbad)]
    exact applyHook_len_ne _ _ (len_ne_of_lenBad hbad)

theorem decodeFrame_len (n : Nat) (s : State) : (decodeFrame n s).1 = none ∨ (decodeFrame n s).2.rxf.len ≠ 0xFF := by
  unfold decodeFrame
  split
  · exact .inl rfl
  · exact decodeBody_len _
  · exact decodeBody_len _

theorem substituteSentinel_len {r : Option Byte × State} (h : r.1 = none ∨ r.2.rxf.len ≠ 0xFF)
    (hl : (substituteSentinel r).rxf.len = 0xFF) : (substituteSentinel r).rxf.pcb = (substituteSentinel r).cfg.pcbInvalid := by
  obtain ⟨_ | l, u⟩ := r
  · rfl
  · exact absurd hl (h.resolve_left nofun)

/-- After a reception a LEN of 255 stands beside the sentinel only (R142, R256). -/
theorem receivePhase_len (s : State) (hl : (receivePhase s).rxf.len = 0xFF) :
    (receivePhase s).rxf.pcb = (receivePhase s).cfg.pcbInvalid :=
  substituteSentinel_len (decodeFrame_len (deadline s) { s with waitMult := 1 }) hl

theorem engineInv_step_receiving (h : EngineInv s) (he : s.nextEvent = none) (hp : s.phase = .receiving)
    (hstep : step s = .next t) : EngineInv t := by
  obtain ⟨u, hu, -, -, hpass, -, -, hframe⟩ := receivingConsumesTheMultiplier s he hp h.windowClosed
  rw [hstep, Host.Outcome.next.injEq] at hu
  subst hu
  have hlen : t.rxf.len = 0xFF → t.rxf.pcb = t.cfg.pcbInvalid := by
    rw [step_receiving he hp] at hstep
    cases hstep
    exact receivePhase_len s.takeEvent
  have hbusy := h.errorsBusy (by rw [State.busy, hp])
  rw [hframe] at hlen ⊢
  exact { h with
    rxfLen := fun _ => hlen, errorsBusy := fun _ => hbusy
    secondPass := fun _ h1 => by rw [hpass] at h1; cases h1 }

/-! ## The host's events -/

theorem zeroFrame_len_ne : zeroFrame.len ≠ 0xFF := by decide

theorem engineInv_hardwareReset (h : EngineInv s) : EngineInv (hardwareReset s) :=
  { h with
    txCursor := rfl, rxCursor := rfl, txFits := Nat.two_pow_pos _, rxFits := Nat.two_pow_pos _
    countFits := Nat.two_pow_pos _, slot0Len := zeroFrame_len_ne, slot1Len := zeroFrame_len_ne, rxfLen := nofun
    rErrLegal := fun h3 : (0 : ErrCode) = 3 => by cases h3
    errorsBound := Nat.zero_le _, errorsBusy := nofun, retransmitsBound := Nat.zero_le _, secondPass := nofun }

theorem engineInv_commandStart (h : EngineInv s) {a b : Nat} (hc : commandStart a b s = .ok t) : EngineInv t := by
  unfold commandStart at hc
  split at hc
  · cases hc
  · rename_i u hu
    cases hc
    have hsetup : EngineInv (commandSetup a b s) :=
      { h with
        txCursor := Nat.zero_add _, rxCursor := Nat.zero_add _, txFits := clip_lt _ _, rxFits := clip_lt _ _
        errorsBound := Nat.zero_le _, errorsBusy := fun _ => h.limitPositive, retransmitsBound := Nat.zero_le _ }
    have hbuilt := engineInv_buildInitial hsetup hu
    have herrors : u.errors = 0 := by obtain ⟨bs, -, rfl⟩ := buildInitial_inv hu; rfl
    exact { hbuilt with rxfLen := nofun, secondPass := nofun, errorsBusy := fun _ => herrors ▸ hbuilt.limitPositive }

theorem engineInv_hostStep {e : HostEvent} (h : EngineInv s) (hstep : hostStep e s = .next t) : EngineInv t := by
  obtain ⟨-, rfl | ⟨o, w, rfl⟩ | ⟨a, b, rfl⟩ | ⟨a, b, rfl⟩ | ⟨a, b, hc⟩⟩ := hostStep_next hstep
  · exact engineInv_hardwareReset h
  · exact { h with }
  · exact { h with txWf := write_wf _ _ _ h.txWf }
  · exact { h with rxWf := write_wf _ _ _ h.rxWf }
  · exact engineInv_commandStart h hc

/-- Every step without a host event keeps the invariant; the cases follow PHASE (R253). -/
theorem engineInv_step_engine (h : EngineInv s) (he : s.nextEvent = none) (hstep : step s = .next t) : EngineInv t := by
  cases hp : s.phase with
  | idle => rw [step_waiting he (.inl hp)] at hstep; cases hstep; exact engineInv_takeEvent h
  | done => rw [step_waiting he (.inr (.inl hp))] at hstep; cases hstep; exact engineInv_takeEvent h
  | failed => rw [step_waiting he (.inr (.inr hp))] at hstep; cases hstep; exact engineInv_takeEvent h
  | sending => exact engineInv_step_sending h he hp hstep
  | receiving => exact engineInv_step_receiving h he hp hstep
  | evaluating => exact engineInv_step_evaluating h he hp hstep

end Operations

/-- Settles O52: the host's events and the engine's own steps. -/
theorem stepKeepsTheEngineInvariant : Obligations.StepKeepsTheEngineInvariant := by
  intro s t h hstep
  cases he : s.nextEvent with
  | none => exact engineInv_step_engine h he hstep
  | some e => rw [step_of_event he] at hstep; exact engineInv_hostStep (engineInv_takeEvent h) hstep

/-! ## Totality -/

section Totality

variable {s : State}

/-- A written send buffer has its first chunk written. -/
theorem firstChunkWritten_of_txReady (h : TxReady s) : FirstChunkWritten s.cfg s.txLen0 s.txbuf :=
  fun k hk => h k (lt_of_lt_of_le hk (firstChunk_le_len _ _))

theorem actResetDevice_ok (hw : FirstChunkWritten s.cfg s.txLen0 s.txbuf) : ∃ t, actResetDevice s = .ok t := by
  obtain ⟨u, hu⟩ := actResetSession_ok (s := afterReset s) (by rw [afterReset_eq]; exact hw)
  unfold actResetDevice
  split
  · exact ⟨_, rfl⟩
  · split
    · rename_i v hv
      exact ⟨u, by rw [← hu, afterReset, hv]⟩
    · exact ⟨_, rfl⟩
    · exact ⟨_, rfl⟩

theorem account_ok (c : ErrCode) (hw : FirstChunkWritten s.cfg s.txLen0 s.txbuf) : ∃ t, account (c, s) = .ok t := by
  obtain ⟨-, heq⟩ | ⟨-, heq⟩ := account_cases c s
  · exact ⟨_, heq⟩
  · rw [heq]
    obtain ⟨-, heq⟩ | ⟨-, -, -, heq⟩ | ⟨-, -, heq⟩ := escalate_cases (countError { s with rErr := c })
    · rw [heq]; exact actResetDevice_ok hw
    · exact ⟨_, heq⟩
    · exact ⟨_, heq⟩

theorem drainInbound_ok (h : s.rxPtr + s.rxRem = s.rxCap0) : ∃ t, drainInbound s = .ok t := by
  by_cases hk : s.kind s.rxf.pcb = .i
  · obtain ⟨m, hm, -⟩ := drain_ok hk h
    exact ⟨_, hm⟩
  · exact ⟨s, by rw [drainInbound, if_neg hk]⟩

theorem nextChunk_ok (ns : Bit) (h : s.txPtr + s.txRem = s.txLen0) (hw : TxReady s) : ∃ t, nextChunk ns s = .ok t := by
  have hsize := chunkSize_le_rem (chunkSlot ns s)
  have hrem : (chunkSlot ns s).txRem = s.txRem := rfl
  obtain ⟨bs, hread, -⟩ := readTx_ok (chunkSlot ns s) s.txPtr (chunkSize (chunkSlot ns s))
    (.inr (show _ ≤ s.txLen0 by omega)) (fun k hk => hw _ (by omega))
  exact ⟨_, nextChunk_of_read hread⟩

/-- Every row of the rule table has a next state (R195). -/
theorem exec_pair_completes {i : Instr} (hi : encodeBlock i = none) (h : EngineInv s) (hw : TxReady s) :
    ∃ t, exec i s = .next t := by
  obtain ⟨u, hu⟩ := drainInbound_ok h.rxCursor
  rcases pair_form hi s with he | he | he | ⟨b, he⟩ | ⟨ns, he⟩ | he | he | he | he | ⟨n, -, he⟩ | he <;> rw [he]
  · exact ⟨_, rfl⟩
  · exact ⟨_, rfl⟩
  · exact ⟨_, by rw [deliverLast, hu]; rfl⟩
  · exact ⟨_, by rw [deliverMore, hu]; rfl⟩
  · obtain ⟨t, ht⟩ := nextChunk_ok ns h.txCursor hw
    exact ⟨t, answer_eq_next.2 ht⟩
  · exact ⟨_, rfl⟩
  · exact ⟨_, rfl⟩
  · exact ⟨_, rfl⟩
  · obtain ⟨t, ht⟩ := actResetSession_ok (firstChunkWritten_of_txReady hw)
    exact ⟨t, answer_eq_next.2 ht⟩
  · exact ⟨_, rfl⟩
  · exact ⟨_, rfl⟩

theorem step_evaluating_completes (h : EngineInv s) (he : s.nextEvent = none) (hp : s.phase = .evaluating) (hw : TxReady s) :
    ∃ t, step s = .next t := by
  cases hs : s.stage with
  | precheck =>
    rw [step_precheck he hp hs, if_neg fun hc => hc.2 (h.rxfLen hp hc.1)]
    obtain ⟨t, ht⟩ := account_ok (precheck s.takeEvent).1 (s := (precheck s.takeEvent).2)
      (by rw [(precheck_shape s.takeEvent).2]; exact firstChunkWritten_of_txReady hw)
    exact ⟨t, answer_eq_next.2 ht⟩
  | lookup =>
    obtain ⟨i, hd, heq⟩ | ⟨-, heq⟩ := step_lookup he hp hs <;> rw [heq]
    · exact exec_pair_completes (encodePair_of_decodePair hd) (engineInv_takeEvent h) hw
    · obtain ⟨-, heq⟩ | ⟨-, -, heq⟩ := noMatch_cases s.takeEvent <;> rw [heq] <;> exact ⟨_, rfl⟩

end Totality

/-- Settles O54: each phase's step answers under the invariant. -/
theorem engineStepAlwaysCompletes : Obligations.EngineStepAlwaysCompletes := by
  intro s h he hw
  cases hp : s.phase with
  | idle => exact ⟨_, step_waiting he (.inl hp)⟩
  | done => exact ⟨_, step_waiting he (.inr (.inl hp))⟩
  | failed => exact ⟨_, step_waiting he (.inr (.inr hp))⟩
  | sending => exact ⟨_, by rw [step_sending he hp, sendPhase_of_room (s := s.takeEvent) (slotLen_of_engineInv h _), answer_ok]⟩
  | receiving => exact ⟨_, step_receiving he hp⟩
  | evaluating => exact step_evaluating_completes h he hp hw

end Sys2Proof.Proofs
end

