-- ==== Sys2Proof/Proofs/StepFrame.lean ====
section
/-! PROOF. What no engine step writes (R21, R40, R69) and who writes the sequence bits (R32): each as a projection of the state that
every move of the engine keeps, or moves in one way only. -/

namespace Sys2Proof.Proofs

open Sys2Proof.Machine Sys2Proof.Claims Sys2Proof.Laws

/-! ## The host's part of the state -/

/-- What the engine never writes: the configuration, the options as written and as sampled, the latched lengths, TXBUF, and RXBUF at or
beyond RX_CAP0. -/
structure HostsPart where
  cfg : Config.Params
  hostOpt : Options
  optWritten : OptionsWritten
  opt : Options
  txLen0 : Nat
  rxCap0 : Nat
  txbuf : Memory
  beyond : Nat → Option Byte

/-- The host's part of a state. -/
def hostsPart (s : State) : HostsPart :=
  ⟨s.cfg, s.hostOpt, s.optWritten, s.opt, s.txLen0, s.rxCap0, s.txbuf, fun a => s.rxbuf.read (s.rxCap0 + a)⟩

/-- A delivery stays below RX_CAP0 (R69). -/
theorem hostsPart_drainInbound {s t : State} (h : drainInbound s = .ok t) : hostsPart t = hostsPart s := by
  obtain ⟨-, rfl⟩ | ⟨-, m, hm, rfl⟩ := drain_inv h
  · rfl
  · have hbeyond : (fun a => m.read (s.rxCap0 + a)) = fun a => s.rxbuf.read (s.rxCap0 + a) :=
      funext fun a => (writeRun_keeps hm).2 _ (Nat.le_add_right _ _)
    exact congrArg (HostsPart.mk s.cfg s.hostOpt s.optWritten s.opt s.txLen0 s.rxCap0 s.txbuf) hbeyond

theorem hostsPart_actResetSession {s t : State} (h : actResetSession s = .ok t) : hostsPart t = hostsPart s := by
  obtain ⟨-, -, -, hframe⟩ := actResetSession_restarts h
  rw [hframe]; rfl

theorem hostsPart_afterReset (s : State) : hostsPart (afterReset s) = hostsPart s := by
  rw [afterReset_eq]; rfl

theorem hostsPart_precheck (s : State) : hostsPart (precheck s).2 = hostsPart s := by
  rw [(precheck_shape s).2]; rfl

theorem Judged.hostsPart_eq {c : ErrCode} {w t : State} (h : Judged c w t) : hostsPart t = hostsPart w := by
  cases h with
  | resetFailed => exact hostsPart_afterReset (counted c w)
  | restarted _ _ hsession => exact (hostsPart_actResetSession hsession).trans (hostsPart_afterReset (counted c w))
  | accepted | consulted | resynced | exhausted => rfl

theorem Matched.hostsPart_eq {i : Instr} {s t : State} (h : Matched i s t) : hostsPart t = hostsPart s := by
  cases h with
  | deliveredLast hdrain => exact (hostsPart_drainInbound hdrain :)
  | deliveredMore b hdrain => exact (hostsPart_drainInbound hdrain :)
  | restarted hsession => exact hostsPart_actResetSession hsession
  | ifsEchoed | wtxEchoed | chunkSent | sentAgain | resyncFailed | resynced | errorAnswered | completed | aborted
  | abortRequested => rfl

theorem EngineMove.hostsPart_eq {s t : State} (h : EngineMove s t) : hostsPart t = hostsPart s := by
  cases h with
  | judges _ _ hj => exact hj.hostsPart_eq.trans (hostsPart_precheck s.takeEvent)
  | runsRow _ _ _ hm => exact hm.hostsPart_eq
  | waits | sends | receives | hardFails | forces => rfl

/-- Settles O55: every move of the engine keeps the host's part. -/
theorem engineNeverWritesTheHostsState : Obligations.EngineNeverWritesTheHostsState := by
  intro s t he h
  have hkept := (step_engineMove he h).hostsPart_eq
  have hcap : t.rxCap0 = s.rxCap0 := congrArg HostsPart.rxCap0 hkept
  refine ⟨congrArg HostsPart.cfg hkept, congrArg HostsPart.hostOpt hkept, congrArg HostsPart.optWritten hkept,
    congrArg HostsPart.opt hkept, congrArg HostsPart.txLen0 hkept, hcap, congrArg HostsPart.txbuf hkept, fun a ha => ?_⟩
  have hread : t.rxbuf.read (t.rxCap0 + (a - s.rxCap0)) = s.rxbuf.read (s.rxCap0 + (a - s.rxCap0)) :=
    congrFun (congrArg HostsPart.beyond hkept) (a - s.rxCap0)
  rwa [hcap, Nat.add_sub_cancel' ha] at hread

/-! ## The sequence bits -/

/-- The two sequence bits of a state (R32). -/
def seqBits (s : State) : Bit × Bit := (s.seqIf, s.seqCard)

/-- A session reset puts both bits to SEQ_INIT, with the marks R270 leaves. -/
def SeqReset (c : Config.Params) (t : State) : Prop :=
  t.seqIf = c.seqInit ∧ t.seqCard = c.seqInit ∧ SnapshotRestored t ∧ InitialBlock c.seqInit t

theorem seqReset_of_actResetSession {s t : State} (h : actResetSession s = .ok t) : SeqReset s.cfg t := by
  obtain ⟨hsnap, hblock, -, hframe⟩ := actResetSession_restarts h
  exact ⟨congrArg State.seqIf hframe, congrArg State.seqCard hframe, hsnap, hblock⟩

theorem seqBits_afterReset (s : State) : seqBits (afterReset s) = seqBits s := by
  rw [afterReset_eq]; rfl

theorem seqBits_drainInbound {s t : State} (h : drainInbound s = .ok t) : seqBits t = seqBits s := by
  obtain ⟨-, rfl⟩ | ⟨-, m, -, rfl⟩ := drain_inv h <;> rfl

theorem Judged.seqBits_cases {c : ErrCode} {w t : State} (h : Judged c w t) : seqBits t = seqBits w ∨ SeqReset w.cfg t := by
  cases h with
  | resetFailed => exact .inl (seqBits_afterReset (counted c w))
  | restarted _ _ hsession =>
    have hcfg : (afterReset (counted c w)).cfg = w.cfg := by rw [afterReset_eq]; rfl
    exact .inr (hcfg ▸ seqReset_of_actResetSession hsession)
  | accepted | consulted | resynced | exhausted => exact .inl rfl

theorem Matched.seqBits_cases {i : Instr} {s t : State} (h : Matched i s t) : seqBits t = seqBits s ∨ SeqReset s.cfg t := by
  cases h with
  | deliveredLast hdrain => exact .inl (seqBits_drainInbound hdrain :)
  | deliveredMore b hdrain => exact .inl (seqBits_drainInbound hdrain :)
  | restarted hsession => exact .inr (seqReset_of_actResetSession hsession)
  | ifsEchoed | wtxEchoed | chunkSent | sentAgain | resyncFailed | resynced | errorAnswered | completed | aborted
  | abortRequested => exact .inl rfl

theorem seqIf_sentRecorded (s : State) :
    (sentRecorded s).seqIf = if s.kind s.current.pcb = .i then nsOf s.current.pcb else s.seqIf := rfl

/-- The pre-check moves SEQ_IF only for a checksum-valid reception after an I-block, to the N(S) of that block (R184). -/
theorem seqIf_precheck (s : State) (h : (precheck s).2.seqIf ≠ s.seqIf) :
    lrcOk s.rxf = true ∧ s.kind s.current.pcb = .i ∧ (precheck s).2.seqIf = nsOf s.current.pcb := by
  by_cases hsent : s.rxf.pcb = s.cfg.pcbInvalid
  · rw [precheck_sentinel hsent] at h; exact absurd rfl h
  cases hok : lrcOk s.rxf with
  | false => rw [precheck_of_bad hsent hok] at h; exact absurd rfl h
  | true =>
    have hseq : (precheck s).2.seqIf = (sentRecorded s).seqIf := by
      rw [(precheck_writes_of_ok hsent hok).1]
    rw [hseq, seqIf_sentRecorded] at h ⊢
    split at h
    · rename_i hk; exact ⟨rfl, hk, if_pos hk⟩
    · exact absurd rfl h

/-- The pre-check moves SEQ_CARD only for a checksum-valid I-block, to its N(S) (R188). -/
theorem seqCard_precheck (s : State) (h : (precheck s).2.seqCard ≠ s.seqCard) :
    lrcOk s.rxf = true ∧ s.kind s.rxf.pcb = .i ∧ (precheck s).2.seqCard = nsOf s.rxf.pcb := by
  by_cases hsent : s.rxf.pcb = s.cfg.pcbInvalid
  · rw [precheck_sentinel hsent] at h; exact absurd rfl h
  cases hok : lrcOk s.rxf with
  | false => rw [precheck_of_bad hsent hok] at h; exact absurd rfl h
  | true =>
    have hk : s.kind s.rxf.pcb = .i := by
      by_contra hk
      exact h ((precheck_writes_of_ok hsent hok).2 hk)
    rw [precheck_of_ok_i hk hok] at h ⊢
    by_cases hns : nsOf s.rxf.pcb = s.seqCard
    · rw [if_pos hns] at h; exact absurd rfl h
    · rw [if_neg hns]; exact ⟨rfl, hk, rfl⟩

/-- Settles O56: a pre-check and a session reset are the two writers. -/
theorem sequenceBitsHaveTwoWriters : Obligations.SequenceBitsHaveTwoWriters := by
  intro s t he h
  cases step_engineMove he h with
  | judges hp hs hj =>
    have hcfg : (precheck s.takeEvent).2.cfg = s.cfg := congrArg HostsPart.cfg (hostsPart_precheck s.takeEvent)
    obtain heq | ⟨hif, hcard, hmarks⟩ := hj.seqBits_cases
    · have hif : t.seqIf = (precheck s.takeEvent).2.seqIf := congrArg Prod.fst heq
      have hcard : t.seqCard = (precheck s.takeEvent).2.seqCard := congrArg Prod.snd heq
      rw [hif, hcard]
      exact ⟨fun hne => ⟨hp, .inr ⟨hs, seqIf_precheck s.takeEvent hne⟩⟩,
        fun hne => ⟨hp, .inr ⟨hs, seqCard_precheck s.takeEvent hne⟩⟩⟩
    · rw [hcfg] at hif hcard hmarks
      exact ⟨fun _ => ⟨hp, .inl ⟨hif, hmarks⟩⟩, fun _ => ⟨hp, .inl ⟨hcard, hmarks⟩⟩⟩
  | runsRow hp _ _ hm =>
    obtain heq | ⟨hif, hcard, hmarks⟩ := hm.seqBits_cases
    · exact ⟨fun hne => absurd (congrArg Prod.fst heq) hne, fun hne => absurd (congrArg Prod.snd heq) hne⟩
    · exact ⟨fun _ => ⟨hp, .inl ⟨hif, hmarks⟩⟩, fun _ => ⟨hp, .inl ⟨hcard, hmarks⟩⟩⟩
  | waits | sends | receives | hardFails | forces => exact ⟨fun hne => absurd rfl hne, fun hne => absurd rfl hne⟩

end Sys2Proof.Proofs
end

