-- ==== Sys2Proof/Proofs/LastSent.lean ====
section
/-! PROOF. The last-sent control byte (43_rule_table.md R234): what each move of the engine makes the current slot, so that without a hook
its byte stays one of eight; and that with such a byte neither HardFail nor Abort is reached (R198, R268). -/

namespace Sys2Proof.Proofs

open Sys2Proof.Machine Sys2Proof.Claims Sys2Proof.Safety Sys2Proof.Laws

section Moves

variable {s t : State}

/-! ## The current slot after each operation -/

/-- The last-sent control byte is one of the eight (R234). -/
def SentLegal (s : State) : Prop := s.current.pcb ∈ lastSentBytes

theorem iPcb_legal (ns m : Bit) : iPcb ns m ∈ lastSentBytes := by revert ns m; decide

theorem ackR_legal (b : Bit) : rPcb (~~~b) 0 ∈ lastSentBytes := by revert b; decide

theorem resyncRequest_legal : sPcb .resync .request ∈ lastSentBytes := by decide

theorem abortRequest_legal : sPcb .abort .request ∈ lastSentBytes := by decide

/-- Continue makes the pending slot the current one (R266). -/
theorem current_actContinue (s : State) : (actContinue s).current = s.pending := rfl

theorem sentLegal_actContinue_setPending {p : Byte} (bs : List Byte) (hp : p ∈ lastSentBytes) :
    SentLegal (actContinue (s.setPending p bs)) := by
  rw [SentLegal, current_actContinue, pending_setPending]
  exact hp

/-- A built slot that is not the current one leaves the last-sent byte (R267). -/
theorem sentLegal_setPending (p : Byte) (bs : List Byte) (h : SentLegal s) : SentLegal (s.setPending p bs) := by
  rw [SentLegal, current_setPending]
  exact h

theorem sentLegal_initialBlock {b : Bit} (h : InitialBlock b t) : SentLegal t := by
  rw [SentLegal, h.1]
  exact iPcb_legal _ _

theorem sentLegal_actResetSession (h : actResetSession s = .ok t) : SentLegal t :=
  sentLegal_initialBlock (actResetSession_restarts h).2.1

theorem sentLegal_nextChunk {ns : Bit} {bs : List Byte} :
    SentLegal (actContinue (afterFill (~~~s.active) (chunkSlot ns s) bs)) := by
  have hpcb : ((chunkSlot ns s).slot (~~~s.active)).pcb = iPcb ns 0 := by rw [chunkSlot, slot_setSlot_same]
  have hcurrent := slot_afterFill_same (~~~s.active) (chunkSlot ns s) bs
  show ((afterFill (~~~s.active) (chunkSlot ns s) bs).slot (~~~s.active)).pcb ∈ lastSentBytes
  rw [hcurrent, filled, withBlock_pcb, hpcb, withM_iPcb]
  exact iPcb_legal _ _

theorem current_drainInbound (h : drainInbound s = .ok t) : t.current = s.current := by
  obtain ⟨-, rfl⟩ | ⟨-, m, -, rfl⟩ := drain_inv h <;> rfl

theorem current_afterReset (s : State) : (afterReset s).current = s.current := by
  rw [afterReset_eq]; rfl

theorem current_precheck (s : State) : (precheck s).2.current = s.current := by
  rw [(precheck_shape s).2]; rfl

/-- Without a hook Sending keeps the control byte of every slot (R135). -/
theorem pcb_current_afterSending (h : s.opt.hook = none) : (afterSending s).current.pcb = s.current.pcb := by
  have hpcb : (encodedFrame s.txsel s).pcb = (s.slot s.txsel).pcb := by rw [encodedFrame, h]; rfl
  show ((s.setSlot s.txsel (encodedFrame s.txsel s)).slot s.active).pcb = (s.slot s.active).pcb
  by_cases ha : s.active = s.txsel
  · rw [ha, slot_setSlot_same, hpcb]
  · rw [bit_ne_iff.1 ha, slot_setSlot_not]

/-! ## Every move keeps the byte legal -/

theorem Judged.sentLegal {c : ErrCode} (hj : Judged c s t) (h : SentLegal s) : SentLegal t := by
  cases hj with
  | resynced => exact sentLegal_actContinue_setPending [] resyncRequest_legal
  | resetFailed =>
    show (afterReset (counted c s)).current.pcb ∈ lastSentBytes
    rw [current_afterReset]; exact h
  | restarted _ _ hsession => exact sentLegal_actResetSession hsession
  | accepted | consulted | exhausted => exact h

theorem Matched.sentLegal {i : Instr} (hm : Matched i s t) (h : SentLegal s) : SentLegal t := by
  cases hm with
  | ifsEchoed => exact (sentLegal_setPending (sPcb .ifs .response) [infAt s.rxf 0] h :)
  | wtxEchoed => exact (sentLegal_setPending (sPcb .wtx .response) [infAt s.rxf 0] h :)
  | errorAnswered => exact (sentLegal_setPending (rPcb (~~~s.seqCard) s.rErr) [] h :)
  | deliveredLast hdrain => rw [SentLegal, ← current_drainInbound hdrain] at h; exact h
  | deliveredMore b => exact sentLegal_actContinue_setPending [] (ackR_legal b)
  | chunkSent => exact sentLegal_nextChunk
  | resynced => exact sentLegal_actContinue_setPending [] resyncRequest_legal
  | abortRequested => exact sentLegal_actContinue_setPending [] abortRequest_legal
  | restarted hsession => exact sentLegal_actResetSession hsession
  | sentAgain | resyncFailed | completed | aborted => exact h

theorem EngineMove.sentLegal (hm : EngineMove s t) (hh : s.opt.hook = none) (h : SentLegal s) : SentLegal t := by
  cases hm with
  | sends =>
    rw [SentLegal, pcb_current_afterSending (s := s.takeEvent) hh]
    exact h
  | judges _ _ hj =>
    refine hj.sentLegal ?_
    rw [SentLegal, current_precheck]
    exact h
  | runsRow _ _ _ hm => exact hm.sentLegal h
  | waits | receives | hardFails | forces => exact h

theorem EngineMove.busy_of_busy (hm : EngineMove s t) (h : t.busy = true) : s.busy = true := by
  cases hm with
  | waits => exact h
  | sends hp | receives hp | judges hp | runsRow hp | hardFails hp | forces hp => rw [State.busy, hp]

theorem lastSentInv_step_engine (he : s.nextEvent = none) (h : LastSentInv s) (hstep : step s = .next t) : LastSentInv t := by
  intro hb hh
  have hm := step_engineMove he hstep
  have hopt : t.opt = s.opt := congrArg HostsPart.opt hm.hostsPart_eq
  rw [hopt] at hh
  exact hm.sentLegal hh (h (hm.busy_of_busy hb) hh)

/-- Of the host's events only a command start makes the engine busy, with the initial I-block last-sent (R252). -/
theorem lastSentInv_hostStep {e : HostEvent} (h : hostStep e s = .next t) : LastSentInv t := by
  obtain ⟨hb, rfl | ⟨o, w, rfl⟩ | ⟨a, b, rfl⟩ | ⟨a, b, rfl⟩ | ⟨a, b, hc⟩⟩ := hostStep_next h
  · exact nofun
  · exact fun hbusy => absurd hbusy (ne_true_of_eq_false hb)
  · exact fun hbusy => absurd hbusy (ne_true_of_eq_false hb)
  · exact fun hbusy => absurd hbusy (ne_true_of_eq_false hb)
  · exact fun _ _ => sentLegal_initialBlock (commandStart_leaves hc).2.1

/-! ## The failure of a command -/

theorem Judged.failure {c : ErrCode} (hj : Judged c s t) (hp : s.phase = .evaluating) (hf : t.phase = .failed) :
    t.resultKind = .deviceResetFailure := by
  cases hj with
  | exhausted | resetFailed => rfl
  | restarted _ _ hsession => rw [phase_of_actResetSession hsession] at hf; cases hf
  | accepted | consulted => exact absurd (hp.symm.trans hf) nofun
  | resynced => cases hf

/-- An abort response is never last-sent, so the row that ends in Abort does not match (R226, R234). -/
theorem decodePair_ne_aborted {received : Byte} {n : Bit} (h : SentLegal s)
    (hd : decodePair s.current.pcb received = some (.abortRespToR0 n)) : False := by
  obtain ⟨hkey, -⟩ := readsKey_of_decodePair hd
  simp only [encodePair, Option.some.injEq, Prod.mk.injEq] at hkey
  rw [SentLegal, ← hkey.1] at h
  revert h; decide

theorem Matched.failure {i : Instr} {received : Byte} (hm : Matched i s t) (h : SentLegal s)
    (hd : decodePair s.current.pcb received = some i) (hf : t.phase = .failed) : t.resultKind = .deviceResetFailure := by
  cases hm with
  | resyncFailed => rfl
  | aborted n hi => subst hi; exact (decodePair_ne_aborted h hd).elim
  | restarted hsession => rw [phase_of_actResetSession hsession] at hf; cases hf
  | _ => cases hf

/-- Each of the eight bytes has a row for the sentinel (R198). -/
theorem decodePair_sentinel_isSome {p : Byte} (h : p ∈ lastSentBytes) : (decodePair p 0xFF).isSome = true := by
  revert p; decide

/-- An unrecognised pair is forced before a command can end in HardFail: the sentinel, once there, has a row. -/
theorem not_hardFails (hinv : EngineInv s) (h : SentLegal s) (hlimit : 1 ≤ s.cfg.reevalLimit) (hp : s.phase = .evaluating)
    (hd : decodePair s.current.pcb (s.rowByte s.rx) = none) :
    ¬(s.rx = s.cfg.pcbInvalid ∨ s.cfg.reevalLimit ≤ s.pass.toNat) := by
  have hrx : s.rx ≠ s.cfg.pcbInvalid := by
    intro hrx
    rw [hrx, rowByte_sentinel] at hd
    have := decodePair_sentinel_isSome h
    rw [hd] at this
    cases this
  rintro (hc | hc)
  · exact hrx hc
  · have hpass : s.pass = true := by
      cases hpass : s.pass with
      | true => rfl
      | false => rw [hpass] at hc; exact absurd (le_trans hlimit hc) (by decide)
    exact hrx (rx_eq_sentinel.2 (.inr (hinv.secondPass hp hpass)))

theorem EngineMove.failure (hm : EngineMove s t) (hinv : EngineInv s) (h : SentLegal s) (hlimit : 1 ≤ s.cfg.reevalLimit)
    (hb : s.busy = true) (hf : t.phase = .failed) : t.resultKind = .deviceResetFailure := by
  cases hm with
  | waits hp => obtain hp | hp | hp := hp <;> rw [State.busy, hp] at hb <;> cases hb
  | judges hp _ hj => exact hj.failure ((phase_precheck_snd s.takeEvent).trans hp) hf
  | runsRow _ _ hd hm => exact hm.failure h hd hf
  | hardFails hp _ hd hc => exact absurd hc (not_hardFails hinv h hlimit hp hd)
  | forces hp => exact absurd (hp.symm.trans hf) nofun
  | sends | receives => cases hf

end Moves

/-- Settles O53: the byte stays legal over every step; with a legal byte only the device reset's failure is left. -/
theorem lastSentByteStaysLegal : Obligations.LastSentByteStaysLegal := by
  refine ⟨fun s t h hstep => ?_, fun s t hinv h hh hlimit hb hstep hf => ?_⟩ <;> cases he : s.nextEvent with
  | none => ?_
  | some e => ?_
  · exact lastSentInv_step_engine he h hstep
  · rw [step_of_event he] at hstep; exact lastSentInv_hostStep hstep
  · exact (step_engineMove he hstep).failure hinv (h hb hh) hlimit hb hf
  · rw [step_of_event he] at hstep
    have hidle : s.busy = false := (hostStep_next hstep).1
    rw [hb] at hidle; cases hidle

end Sys2Proof.Proofs
end

