-- ==== Sys2Proof/Proofs/RowActions.lean ====
section
/-! PROOF. The rows of the rule table by their action (43_rule_table.md; 44_orchestrator.md R263 to R270): what Continue and SingleShot
leave of a block in the pending slot, what Retransmit does below and at its bound, and the chunk of R220. -/

namespace Sys2Proof.Proofs

open Sys2Proof.Machine Sys2Proof.Claims Sys2Proof.Laws

/-! ## Continue -/

/-- The old current slot is the pending one after Continue (R266). -/
theorem pending_actContinue (s : State) : (actContinue s).pending = s.current := by
  show s.slot (~~~(~~~s.active)) = s.slot s.active
  rw [bit_not_not]

/-- Continue after the pending slot took a block with LEN 0, nothing of the slots having moved before. -/
theorem continuedWith_setPending {s u : State} (p : Byte) (hactive : u.active = s.active) (hcurrent : u.current = s.current) :
    ContinuedWith p s (actContinue (u.setPending p [])) := by
  have hnew : (actContinue (u.setPending p [])).current = withBlock u.pending p [] := by
    rw [current_actContinue, pending_setPending]
  have hold : (actContinue (u.setPending p [])).pending = s.current := by
    rw [pending_actContinue, current_setPending, hcurrent]
  refine ⟨congrArg Frame.pcb hnew, congrArg Frame.len hnew, hold, ?_, ?_, rfl, rfl, rfl⟩
  · rw [← hactive]; rfl
  · rw [← hactive]; rfl

/-- Settles O20: both rows put the abort request in the pending slot and continue. -/
theorem abortRequestIsAnsweredByAbortRequest : Obligations.AbortRequestIsAnsweredByAbortRequest := by
  intro s i hi
  have hexec : exec i s = .next (actContinue (putAbortRequest s)) := by
    cases i
    case iMoreToAbortReq | rToAbortReq => rfl
    all_goals cases hi
  exact ⟨_, hexec, continuedWith_setPending 0xC2 rfl rfl, rfl⟩

/-- A further block's meaning is its delivery and the acknowledgement of its N(S) (R212, R218). -/
theorem exec_of_moreBlockRow {i : Instr} {b : Bit} (h : moreBlockRow i = some b) (s : State) :
    exec i s = answer (deliverMore b s) := by
  cases i
  case iToIMore | rToIMore => cases h; rfl
  all_goals cases h

/-- Settles O22: the delivery leaves both slots, and the acknowledgement is continued with. -/
theorem moreBlockIsDeliveredAndAcknowledged : Obligations.MoreBlockIsDeliveredAndAcknowledged := by
  intro s i b hi hk hc
  obtain ⟨m, hdrain, -, hread⟩ := drain_ok hk hc
  refine ⟨actContinue (putAckR b (afterDrain s m)), ?_, ⟨hread, rfl, rfl⟩, continuedWith_setPending (rPcb (~~~b) 0) rfl rfl, rfl⟩
  rw [exec_of_moreBlockRow hi, deliverMore, hdrain]
  rfl

/-! ## The next chunk -/

theorem exec_of_nextChunkRow {i : Instr} {ns : Bit} (h : nextChunkRow i = some ns) (s : State) :
    exec i s = answer (nextChunk ns s) := by
  cases i
  case i01ToR10 | i11ToR00 => cases h; rfl
  all_goals cases h

theorem chunkSize_chunkSlot (ns : Bit) (s : State) : chunkSize (chunkSlot ns s) = nextSize s := Nat.min_comm _ _

theorem nextSize_le (s : State) : nextSize s ≤ s.txRem := Nat.min_le_right _ _

/-- Settles O23: the chunk is read from TXBUF, fills the pending slot, and is continued with. -/
theorem nextChunkIsFilledAndSent : Obligations.NextChunkIsFilledAndSent := by
  intro s i ns hi hc hw
  have hsize := chunkSize_chunkSlot ns s
  obtain ⟨bs, hread, -⟩ := readTx_ok (chunkSlot ns s) s.txPtr (nextSize s)
    (.inr (show _ ≤ s.txLen0 by have := nextSize_le s; omega)) hw
  rw [← hsize] at hread
  have hexec : exec i s = .next (actContinue (afterFill (~~~s.active) (chunkSlot ns s) bs)) := by
    rw [exec_of_nextChunkRow hi, nextChunk_of_read hread, answer_ok]
  have hcurrent : (actContinue (afterFill (~~~s.active) (chunkSlot ns s) bs)).current =
      filled ((chunkSlot ns s).slot (~~~s.active)) bs (s.txRem - chunkSize (chunkSlot ns s)) := slot_afterFill_same _ _ _
  have hslot : ((chunkSlot ns s).slot (~~~s.active)).pcb = iPcb ns 0 := by rw [chunkSlot, slot_setSlot_same]
  obtain ⟨hpcb, hlen, hinf⟩ := filled_of_readTx (r := s.txRem) hslot (chunkSize_le_max _) hread
  rw [hsize] at hpcb hlen hinf hcurrent
  have hpending : (actContinue (afterFill (~~~s.active) (chunkSlot ns s) bs)).pending = s.current := by
    rw [pending_actContinue]
    have hother := slot_afterFill_not (~~~s.active) (chunkSlot ns s) bs
    rw [bit_not_not] at hother
    exact hother.trans (slot_setSlot_of_not s s.active _)
  refine ⟨_, hexec, ?_, ?_, ?_, ?_, ?_, hpending, rfl, rfl, rfl, rfl, rfl, rfl⟩
  · rw [hcurrent]; exact hpcb
  · rw [hcurrent]; exact hlen
  · rw [hcurrent]; exact hinf
  · exact congrArg (s.txPtr + ·) hsize
  · exact congrArg (s.txRem - ·) hsize

/-! ## Retransmit -/

/-- The rows that ask for the last frame again are Retransmit alone (R221, R222, R228, R229). -/
theorem exec_retransmit {i : Instr} (h : askedAgainRow i = true ∨ unansweredRow i = true) (s : State) :
    exec i s = .next (actRetransmit s) := by
  cases i
  case i0mToR0e | i1mToR1e | i01ToR11 | i01ToR12 | i01ToR13 | i11ToR01 | i11ToR02 | i11ToR03 | resyncReqToInvalid
      | rToInvalid => rfl
  all_goals simp [askedAgainRow, unansweredRow] at h

theorem actRetransmit_below {s : State} (h : s.retransmits < s.cfg.retransmitLimit) :
    actRetransmit s = { s with retransmits := s.retransmits + 1, txsel := s.active, phase := .sending } := if_pos h

/-- Settles O24: Retransmit below its bound. -/
theorem retransmitResendsTheCurrentSlot : Obligations.RetransmitResendsTheCurrentSlot := by
  intro s i hi hb
  rw [exec_retransmit (.inl hi), actRetransmit_below hb]

theorem decodePair_rToInvalid (n : Bit) (e : ErrCode) : decodePair (rPcb n e) 0xFF = some (.rToInvalid n e) := by
  revert n e; decide

/-- Settles O25: the keys of the rows, and Retransmit below its bound. -/
theorem unansweredBlocksAreRetransmitted : Obligations.UnansweredBlocksAreRetransmitted := by
  refine ⟨rfl, fun n e => decodeBytes_of_decodePair (decodePair_rToInvalid n e), fun s i hi hb => ?_⟩
  rw [exec_retransmit (.inr hi), actRetransmit_below hb]

/-- Settles O26: the two outcomes of Retransmit at its bound. -/
theorem retransmitBoundEscalates : Obligations.RetransmitBoundEscalates := by
  intro s i hi hb
  rw [exec_retransmit hi]
  obtain ⟨hlt, -⟩ | ⟨-, hpcb, heq⟩ | ⟨-, hpcb, heq⟩ := retransmit_cases s
  · exact absurd hb (Nat.not_le.2 hlt)
  · rw [heq]
    exact ⟨fun hne => absurd hpcb hne, fun _ => ⟨actFail .deviceResetFailure s, rfl, rfl⟩⟩
  · rw [heq]
    exact ⟨fun _ => ⟨_, rfl, continuedWith_setPending 0xC0 rfl rfl, rfl⟩, fun hc => absurd hc hpcb⟩

/-! ## SingleShot -/

/-- Settles O19: the row puts the echo in the pending slot, writes WAIT_MULT and selects the slot for one transmission. -/
theorem wtxRequestIsEchoed : Obligations.WtxRequestIsEchoed := by
  intro s a m
  refine ⟨actSingleShot { putEcho .wtx s with waitMult := infAt s.rxf 0 }, rfl, ?_, ?_, rfl, rfl⟩
  · exact singleShotWith_of_pending (bs := [infAt s.rxf 0]) rfl (pending_putEcho .wtx s) (current_putEcho .wtx s)
  · exact infAt_pending_putEcho .wtx s

/-- Settles O27: every row of the kind puts the error R-block in the pending slot and selects it for one transmission. -/
theorem errorRBlockIsSentOnce : Obligations.ErrorRBlockIsSentOnce := by
  intro s i hi
  have hexec : exec i s = .next (actSingleShot (putErrorR s)) := by
    cases i
    case i00ToR1e | i10ToR0e | iToInvalid | ifsWtxReqToInvalid | abortReqToInvalid | respToInvalid => rfl
    all_goals cases hi
  exact ⟨_, hexec, singleShotWith_of_pending (bs := []) rfl (pending_setPending s _ _) (current_setPending s _ _), rfl⟩

/-! ## The rows that end the command -/

/-- Settles O29: the row is `actComplete` alone. -/
theorem ifsResponseCompletes : Obligations.IfsResponseCompletes := ⟨rfl, fun _ => rfl⟩

/-- Settles O30: the row is `actFail` with the kind Abort. -/
theorem abortResponseThenAckAborts : Obligations.AbortResponseThenAckAborts := fun s _ => ⟨actFail .abort s, rfl, rfl⟩

end Sys2Proof.Proofs
end

