-- ==== Sys2Proof/Proofs/Blocks.lean ====
section
/-! PROOF. The meanings of the received blocks (42_rule_engine.md R181 to R194): the verdict on a block of each kind, refused receptions in
one form, and what the accounting makes of a verdict below and at each of its limits. -/

namespace Sys2Proof.Proofs

open Sys2Proof.Machine Sys2Proof.Claims Sys2Proof.Laws

section Accounting

variable {u : State} {c : ErrCode}

/-! ## The accounting below and at its limits -/

theorem account_of_ne (hc : c ≠ 0) : account (c, u) = escalate (counted c u) := if_neg hc

/-- The last-sent frame is an I-block, said as the statements say it. -/
theorem sentI_iff (s : State) : s.sentI = true ↔ s.kind s.current.pcb = .i := beq_iff_eq

/-- Short of an escalation an error is counted and the table is consulted (R193). -/
theorem account_of_noEscalation (hc : c ≠ 0) (h : NoEscalation u) :
    account (c, u) = .ok { u with rErr := c, lastErr := .invalidFrame, errors := u.errors + 1, stage := .lookup } := by
  obtain ⟨hreset, hresync⟩ := h
  rw [account_of_ne hc]
  obtain ⟨hge, -⟩ | ⟨-, hsent, hge, -⟩ | ⟨-, -, heq⟩ := escalate_cases (counted c u)
  · exact absurd hge (Nat.not_le.2 hreset)
  · obtain hne | hlt := hresync
    · exact absurd ((sentI_iff u).1 hsent) hne
    · exact absurd hge (Nat.not_le.2 hlt)
  · exact heq

/-- At ERROR_RESYNC_LIMIT after an I-block the resync request is continued with (R194 (b)). -/
theorem account_of_resyncEscalation (hc : c ≠ 0) (h : ResyncEscalation u) :
    account (c, u) = .ok (actContinue (putResyncRequest (counted c u))) := by
  obtain ⟨hreset, hkind, hresync⟩ := h
  rw [account_of_ne hc]
  obtain ⟨hge, -⟩ | ⟨-, -, -, heq⟩ | ⟨-, hno, -⟩ := escalate_cases (counted c u)
  · exact absurd hge (Nat.not_le.2 hreset)
  · exact heq
  · obtain hsent | hlt := hno
    · exact absurd ((sentI_iff u).2 hkind) (ne_true_of_eq_false hsent)
    · exact absurd hresync (Nat.not_le.2 hlt)

/-- At ERROR_RESET_LIMIT the device is reset (R194 (a)). -/
theorem account_of_resetEscalation (hc : c ≠ 0) (h : ResetEscalation u) :
    account (c, u) = actResetDevice (counted c u) := by
  rw [account_of_ne hc]
  exact if_pos h

/-- With no reset to try, the budget's end is the command's (R269). -/
theorem account_of_exhausted (hc : c ≠ 0) (h : ResetEscalation u) (hspent : u.resetDone = true ∨ u.opt.hasReset = false) :
    account (c, u) = .ok (actFail .deviceResetFailure (counted c u)) :=
  (account_of_resetEscalation hc h).trans (actResetDevice_of_unavailable hspent)

/-- The state in which the answer of the one device reset is acted on, `rest` being the answers left (R269). -/
def resetCalled (c : ErrCode) (rest : List ResetAnswer) (u : State) : State :=
  { counted c u with resetDone := true, resets := rest, calls := .reset :: u.calls }

/-- With a reset to try, its answer decides between a new session and the end of the command (R269). -/
theorem account_of_available {r : ResetAnswer} {rest : List ResetAnswer} (hc : c ≠ 0) (h : ResetEscalation u)
    (hdone : u.resetDone = false) (hoffered : u.opt.hasReset = true) (hr : u.resets = r :: rest) :
    account (c, u) = if r = .ok then actResetSession (resetCalled c rest u)
      else .ok (actFail .deviceResetFailure (resetCalled c rest u)) :=
  (account_of_resetEscalation hc h).trans (actResetDevice_of_available hdone hoffered hr)

end Accounting

section Verdicts

variable {s : State}

/-! ## The verdict on a block with a good checksum -/

/-- A received block other than the sentinel, with room for its checksum, is judged by one check (R182). -/
theorem answer_judge_of_ok {check : State → ErrCode × State} (hl : s.rxf.len ≠ 0xFF) (hok : lrcOk s.rxf = true) :
    answer (judge check s) = answer (account (check (sentRecorded s))) := by
  rw [judge_of_len hl, precheckWith_of_ok hok, recordSent_eq_sentRecorded]

theorem exec_iBlock (ns m : Bit) (s : State) : exec (iBlock ns m) s = answer (judge (checkI ns) s) := by
  obtain rfl | rfl := bit_cases ns <;> obtain rfl | rfl := bit_cases m <;> rfl

theorem exec_rBlock (nr : Bit) (e : ErrCode) (s : State) : exec (rBlock nr e) s = answer (judge checkR s) := by
  unfold rBlock
  repeat' split
  all_goals rfl

/-- The check of an S-block is that it has its LEN (R186). -/
theorem exec_sBlock (t : SType) (d : SDir) (s : State) :
    exec (sBlock t d) s = answer (judge (fun u => if u.rxf.len = sBlockLen t d then (0, u) else (2, u)) s) := by
  cases t <;> cases d <;> rfl

/-- The verdict on an I-block (R184, R188). -/
theorem exec_iBlock_of_ok (ns m : Bit) (hl : s.rxf.len ≠ 0xFF) (hok : lrcOk s.rxf = true) :
    exec (iBlock ns m) s = answer (account
      (if ns = s.seqCard then (2, sentRecorded s) else (0, { sentRecorded s with seqCard := ns }))) := by
  rw [exec_iBlock, answer_judge_of_ok hl hok]; rfl

/-- The verdict on an R-block (R187). -/
theorem exec_rBlock_of_ok (nr : Bit) (e : ErrCode) (hl : s.rxf.len ≠ 0xFF) (hok : lrcOk s.rxf = true) :
    exec (rBlock nr e) s = answer (account (if s.rxf.len = 0 then (0, sentRecorded s) else (2, sentRecorded s))) := by
  rw [exec_rBlock, answer_judge_of_ok hl hok]; rfl

/-- The verdict on an S-block (R186). -/
theorem exec_sBlock_of_ok (t : SType) (d : SDir) (hl : s.rxf.len ≠ 0xFF) (hok : lrcOk s.rxf = true) :
    exec (sBlock t d) s =
      answer (account (if s.rxf.len = sBlockLen t d then (0, sentRecorded s) else (2, sentRecorded s))) := by
  rw [exec_sBlock, answer_judge_of_ok hl hok]; rfl

end Verdicts

theorem errCode_two_ne : (2 : ErrCode) ≠ 0 := by decide

/-- Settles O8: the verdict on an I-block, accounted. -/
theorem iBlockAlternates : Obligations.IBlockAlternates := by
  intro s ns m hl hok
  rw [exec_iBlock_of_ok ns m hl hok]
  refine ⟨fun hne => ?_, fun heq hno => ?_⟩
  · rw [if_neg hne]; rfl
  · rw [if_pos heq, account_of_noEscalation (u := sentRecorded s) errCode_two_ne hno]; rfl

/-- Settles O9: the verdict on an R-block, accounted. -/
theorem rBlockNeedsLengthZero : Obligations.RBlockNeedsLengthZero := by
  intro s nr e hl hok
  rw [exec_rBlock_of_ok nr e hl hok]
  refine ⟨fun heq => ?_, fun hne hno => ?_⟩
  · rw [if_pos heq]; rfl
  · rw [if_neg hne, account_of_noEscalation (u := sentRecorded s) errCode_two_ne hno]; rfl

/-- Settles O10: the verdict on an S-block, accounted. -/
theorem sBlockNeedsItsLength : Obligations.SBlockNeedsItsLength := by
  intro s t d hl hok
  rw [exec_sBlock_of_ok t d hl hok]
  refine ⟨fun heq => ?_, fun hne hno => ?_⟩
  · rw [if_pos heq]; rfl
  · rw [if_neg hne, account_of_noEscalation (u := sentRecorded s) errCode_two_ne hno]; rfl

/-! ## Refused receptions -/

section Refused

variable {i : Instr} {c : ErrCode} {s u : State}

/-- A block of a wrong shape is error 2 once its last-sent frame is recorded. -/
theorem exec_of_wrongShape (hl : s.rxf.len ≠ 0xFF) (hok : lrcOk s.rxf = true) (h : WrongShape i s) :
    exec i s = answer (account (2, sentRecorded s)) := by
  obtain ⟨t, d, rfl, hne⟩ | ⟨nr, e, rfl, hne⟩ | ⟨ns, m, rfl, heq⟩ := h
  · rw [exec_sBlock_of_ok t d hl hok, if_neg hne]
  · rw [exec_rBlock_of_ok nr e hl hok, if_neg hne]
  · rw [exec_iBlock_of_ok ns m hl hok, if_pos heq]

/-- A defined block is judged by one check, whatever RXF's control byte is. -/
theorem exec_block (hi : (encodeBlock i).isSome = true) (hne : i ≠ .invalid) :
    ∃ check, ∀ s, exec i s = answer (judge check s) := by
  obtain ⟨p, hp⟩ := Option.isSome_iff_exists.1 hi
  obtain ⟨rfl, -⟩ | ⟨-, check, hexec, -⟩ := block_form hp
  · exact absurd rfl hne
  · exact ⟨check, hexec⟩

/-- Every refusal is the accounting of its code, in the registers it leaves. -/
theorem exec_of_refused (h : RefusedReception i c s u) : exec i s = answer (account (c, u)) := by
  obtain ⟨rfl, rfl, rfl⟩ | ⟨hi, hne, hl, hbad, rfl, rfl⟩ | ⟨hl, hok, hshape, rfl, rfl⟩ := h
  · rfl
  · obtain ⟨check, hexec⟩ := exec_block hi hne
    rw [hexec, judge_of_len hl, precheckWith_of_bad hbad]
  · exact exec_of_wrongShape hl hok hshape

/-- A refusal has a code other than 0, and records the last-sent frame at most (R184, R185). -/
theorem refused_leaves (h : RefusedReception i c s u) :
    c ≠ 0 ∧ ∃ chained seqIf, u = { s with chained := chained, seqIf := seqIf } := by
  obtain ⟨-, rfl, rfl⟩ | ⟨-, -, -, -, rfl, rfl⟩ | ⟨-, -, -, rfl, rfl⟩ := h
  · exact ⟨by decide, u.chained, u.seqIf, rfl⟩
  · exact ⟨by decide, u.chained, u.seqIf, rfl⟩
  · exact ⟨by decide, _, _, rfl⟩

end Refused

/-- Settles O12: a refusal, counted. -/
theorem faultyReceptionIsCounted : Obligations.FaultyReceptionIsCounted := by
  intro s u i c h hno
  rw [exec_of_refused h]
  obtain ⟨hc, ch, si, rfl⟩ := refused_leaves h
  exact answer_eq_next.2 (account_of_noEscalation (u := { s with chained := ch, seqIf := si }) hc hno)

/-- Settles O13: a refusal at ERROR_RESYNC_LIMIT. -/
theorem errorsOnIBlockEscalateToResync : Obligations.ErrorsOnIBlockEscalateToResync := by
  intro s u i c h hesc
  rw [exec_of_refused h]
  obtain ⟨hc, ch, si, rfl⟩ := refused_leaves h
  rw [account_of_resyncEscalation (u := { s with chained := ch, seqIf := si }) hc hesc]
  exact ⟨_, rfl, continuedWith_setPending 0xC0 rfl rfl, rfl⟩

/-- Settles O14: a refusal at ERROR_RESET_LIMIT, no reset being left. -/
theorem exhaustedBudgetWithoutResetFails : Obligations.ExhaustedBudgetWithoutResetFails := by
  intro s u i c h hesc hspent
  rw [exec_of_refused h]
  obtain ⟨hc, ch, si, rfl⟩ := refused_leaves h
  rw [account_of_exhausted (u := { s with chained := ch, seqIf := si }) hc hesc hspent]
  exact ⟨_, rfl, rfl⟩

/-- The counts R270 puts back are no part of what a new session keeps. -/
theorem sessionRestarted_congr {s t : State} {e : LastErr} {n : Nat}
    (h : SessionRestarted { s with lastErr := e, errors := n } t) : SessionRestarted s t := h

/-- Settles O15: a refusal at ERROR_RESET_LIMIT, by the answer of the one reset. -/
theorem exhaustedBudgetResetsTheDevice : Obligations.ExhaustedBudgetResetsTheDevice := by
  intro s u i c r rest h hesc hdone hoffered hresets
  rw [exec_of_refused h]
  obtain ⟨hc, ch, si, rfl⟩ := refused_leaves h
  rw [account_of_available (u := { s with chained := ch, seqIf := si }) hc hesc hdone hoffered hresets]
  refine ⟨fun hr => ?_, fun hr hw => ?_⟩
  · rw [if_neg hr]
    exact ⟨_, rfl, rfl⟩
  · rw [if_pos hr]
    obtain ⟨t, ht⟩ := actResetSession_ok (s := resetCalled c rest { s with chained := ch, seqIf := si }) hw
    exact ⟨t, answer_eq_next.2 ht, sessionRestarted_congr (actResetSession_restarts ht)⟩

/-! ## The pre-check of a row's byte, and of a reserved one -/

theorem decodeBlock_of_decodeBytes {p : Byte} {i : Instr} (h : decodeBytes [p] = .ok i) : decodeBlock p = some i := by
  obtain ⟨q, hq, hd⟩ | ⟨_, _, hq, -⟩ := decodeBytes_inv h
  · cases hq; exact hd
  · cases hq

/-- Settles O16: the check of a row is the pre-check's check of its byte, and the sentinel has none. -/
theorem blockMeaningIsThePrecheck : Obligations.BlockMeaningIsThePrecheck := by
  intro s i h hl
  have hp := encodeBlock_of_decodeBlock (decodeBlock_of_decodeBytes h)
  obtain ⟨rfl, hff⟩ | ⟨hne, check, hexec, hcheck⟩ := block_form hp
  · rw [precheck_sentinel (rowByte_eq_ff.1 hff)]; rfl
  · rw [hexec, judge_of_len hl, hcheck s (eq_of_rowByte rfl (isDefined_of_encodeBlock hp hne))]

section Reserved

variable {s : State}

/-- A byte without a row is not the sentinel. -/
theorem ne_sentinel_of_reserved (h : decodeBlock (s.rowByte s.rxf.pcb) = none) : s.rxf.pcb ≠ s.cfg.pcbInvalid := by
  intro hc
  rw [hc, rowByte_sentinel] at h
  revert h; decide

/-- A byte without a row is not S(RESYNC,RESPONSE), whatever the sentinel is. -/
theorem ne_resyncResp_of_reserved (h : decodeBlock (s.rowByte s.rxf.pcb) = none) : s.rxf.pcb ≠ 0xE0 := by
  intro hc
  have hrow : s.rowByte 0xE0 = 0xE0 := by
    rw [State.rowByte, if_neg (ne_of_isDefined (by decide) s.cfg.pcbInvalidReserved), if_neg (by decide)]
  rw [hc, hrow] at h
  revert h; decide

theorem step_reserved (he : s.nextEvent = none) (hp : s.phase = .evaluating) (hs : s.stage = .precheck)
    (hl : s.rxf.len ≠ 0xFF) : step s = answer (account (precheck s.takeEvent)) := by
  rw [step_precheck he hp hs, if_neg fun h => hl h.1]

/-- The pre-check of a reserved R-kind byte with a good checksum (R187). -/
theorem precheck_of_ok_r (hk : s.kind s.rxf.pcb = .r) (hok : lrcOk s.rxf = true) :
    precheck s = if s.rxf.len = 0 then (0, sentRecorded s) else (2, sentRecorded s) := by
  rw [precheck_of_kind_r hk, precheckWith_of_ok hok, recordSent_eq_sentRecorded]; rfl

/-- The pre-check of an S-kind byte other than S(RESYNC,RESPONSE) with a good checksum (R186). -/
theorem precheck_of_ok_s (hk : s.kind s.rxf.pcb = .s) (hne : s.rxf.pcb ≠ 0xE0) (hok : lrcOk s.rxf = true) :
    precheck s = if s.rxf.len = 1 then (0, sentRecorded s) else (2, sentRecorded s) := by
  have hform : precheck s = precheckWith checkS s := by
    unfold precheck
    rw [hk]
    exact if_neg hne
  rw [hform, precheckWith_of_ok hok, recordSent_eq_sentRecorded]; rfl

end Reserved

/-- Settles O17: the pre-check of each kind, accounted. -/
theorem reservedBlockIsJudgedByKind : Obligations.ReservedBlockIsJudgedByKind := by
  intro s he hp hs hd hl
  have hcount : NoEscalation s → answer (account (2, sentRecorded s.takeEvent)) = .next { sentRecorded s with
      rErr := 2, lastErr := .invalidFrame, errors := s.errors + 1, stage := .lookup, host := s.host.tail } :=
    fun hno => answer_eq_next.2 (account_of_noEscalation (u := sentRecorded s.takeEvent) errCode_two_ne hno)
  rw [step_reserved he hp hs hl]
  refine ⟨fun hbad hno => ?_, fun hok => ⟨fun hk hns => ?_, fun hk => ?_, fun hk hno => ?_⟩⟩
  · rw [precheck_of_bad (s := s.takeEvent) (ne_sentinel_of_reserved hd) hbad]
    exact answer_eq_next.2 (account_of_noEscalation (u := s.takeEvent) (by decide) hno)
  · rw [precheck_of_ok_i (s := s.takeEvent) hk hok, takeEvent_rxf, takeEvent_seqCard, if_neg hns]; rfl
  · obtain ⟨hk, hlen⟩ | ⟨hk, hlen⟩ := hk
    · rw [precheck_of_ok_r (s := s.takeEvent) hk hok, takeEvent_rxf, if_pos hlen]; rfl
    · rw [precheck_of_ok_s (s := s.takeEvent) hk (ne_resyncResp_of_reserved hd) hok, takeEvent_rxf, if_pos hlen]; rfl
  · rw [← hcount hno]
    obtain ⟨hk, hns⟩ | ⟨hk, hlen⟩ | ⟨hk, hlen⟩ := hk
    · rw [precheck_of_ok_i (s := s.takeEvent) hk hok, takeEvent_rxf, takeEvent_seqCard, if_pos hns]
    · rw [precheck_of_ok_r (s := s.takeEvent) hk hok, takeEvent_rxf, if_neg hlen]
    · rw [precheck_of_ok_s (s := s.takeEvent) hk (ne_resyncResp_of_reserved hd) hok, takeEvent_rxf, if_neg hlen]

end Sys2Proof.Proofs
end

