-- ==== Sys2Proof/Proofs/Checksum.lean ====
section
/-! PROOF. The checksum and the frames on the wire (40_codec.md R130 to R135): the XOR of a frame's bytes is zero exactly when the
checksum stands in its place, a sealed slot is such a frame, and a change of one byte is a change of that XOR. -/

namespace Sys2Proof.Proofs

open Sys2Proof.Machine Sys2Proof.Claims Sys2Proof.Laws

/-! ## The XOR of bytes -/

theorem xorFold_append (c : Byte) (as bs : List Byte) : xorFold c (as ++ bs) = xorFold (xorFold c as) bs :=
  List.foldl_append

/-- A change of one byte by a difference changes the XOR by that difference. -/
theorem xorFold_set (c d : Byte) {bs : List Byte} {j : Nat} {b : Byte} (h : bs[j]? = some b) :
    xorFold c (bs.set j (b ^^^ d)) = xorFold c bs ^^^ d := by
  induction bs generalizing c j with
  | nil => cases h
  | cons a bs ih =>
    cases j with
    | zero =>
      obtain rfl : a = b := Option.some.inj h
      show bs.foldl (· ^^^ ·) (c ^^^ (a ^^^ d)) = bs.foldl (· ^^^ ·) (c ^^^ a) ^^^ d
      rw [← BitVec.xor_assoc, BitVec.xor_comm (c ^^^ a) d, foldl_xor_assoc, BitVec.xor_comm d]
    | succ j => exact ih (c ^^^ a) h

section Frames

variable {f : Frame}

/-! ## A frame on the wire -/

theorem getElem?_inf {j : Nat} (h : j < 255) : f.inf.toList[j]? = some (infAt f j) := by
  have hl : j < f.inf.toList.length := by rw [inf_length]; exact h
  rw [infAt, List.getElem?_eq_getElem hl, Option.getD_some]

/-- A frame with room for its checksum is header, payload and checksum (R62). -/
theorem wireBytes_eq (h : f.len ≠ 0xFF) :
    wireBytes f = f.nad :: f.pcb :: f.len :: (infBytes f ++ [infAt f f.len.toNat]) := by
  rw [wireBytes, List.take_add_one, getElem?_inf (len_lt h)]
  rfl

theorem wireBytes_length (h : f.len ≠ 0xFF) : (wireBytes f).length = 4 + f.len.toNat := by
  rw [wireBytes_eq h]
  simp only [List.length_cons, List.length_append, List.length_nil, infBytes_length f h]
  omega

/-- The XOR of a frame's bytes is its checksum against the byte in the checksum's place. -/
theorem xorFold_wireBytes (h : f.len ≠ 0xFF) : xorFold 0 (wireBytes f) = lrc f ^^^ infAt f f.len.toNat := by
  rw [wireBytes_eq h]
  show xorFold (0 ^^^ f.nad ^^^ f.pcb ^^^ f.len) (infBytes f ++ [infAt f f.len.toNat]) = _
  have hzero : (0 : Byte) ^^^ f.nad = f.nad := BitVec.zero_xor
  rw [xorFold_append, hzero]
  rfl

theorem lrcOk_iff (h : f.len ≠ 0xFF) : lrcOk f = true ↔ xorFold 0 (wireBytes f) = 0 := by
  rw [xorFold_wireBytes h, lrcOk, beq_iff_eq, eq_comm]
  exact BitVec.xor_eq_zero_iff.symm

/-- A frame that differs from a valid one of its length in one byte is not valid. -/
theorem lrcOk_of_damaged {g : Frame} {j : Nat} {b d : Byte} (h : f.len ≠ 0xFF) (hg : g.len = f.len) (hok : lrcOk f = true)
    (hd : d ≠ 0) (hb : (wireBytes f)[j]? = some b) (hw : wireBytes g = (wireBytes f).set j (b ^^^ d)) : lrcOk g = false := by
  have hzero : (0 : Byte) ^^^ d = d := BitVec.zero_xor
  rw [Bool.eq_false_iff, ne_eq, lrcOk_iff (hg.trans_ne h), hw, xorFold_set 0 d hb, (lrcOk_iff h).1 hok, hzero]
  exact hd

theorem wireBytes_setInf (j : Nat) (b : Byte) :
    wireBytes { f with inf := setInf f.inf j b } = (wireBytes f).set (j + 3) b := by
  simp only [wireBytes, setInf_toList, List.take_set, List.set_cons_succ]

/-- The bytes of INF on the wire come after the three of the header (R62). -/
theorem getElem?_wireBytes_inf {j : Nat} (h : f.len ≠ 0xFF) (hj : j ≤ f.len.toNat) :
    (wireBytes f)[j + 3]? = some (infAt f j) := by
  have hlt := len_lt h
  show (f.inf.toList.take (f.len.toNat + 1))[j]? = some (infAt f j)
  rw [List.getElem?_take_of_lt (by omega), getElem?_inf (by omega)]

/-! ## A sealed frame -/

theorem infBytes_sealed (a : Byte) (f : Frame) : infBytes (sealed a f) = infBytes f := by
  simp only [infBytes, sealed, setInf_toList]
  exact List.take_set_of_le (le_refl _)

/-- The byte a seal puts in the checksum's place is the XOR of header and payload (R130, R135). -/
theorem infAt_sealed_len {a : Byte} (h : f.len ≠ 0xFF) :
    infAt (sealed a f) f.len.toNat = xorFold (a ^^^ f.pcb ^^^ f.len) (infBytes f) :=
  infAt_setInf_same { f with nad := a } _ (len_lt h)

theorem infAt_sealed_ne (a : Byte) {j : Nat} (h : j ≠ f.len.toNat) : infAt (sealed a f) j = infAt f j := by
  simp only [infAt, sealed, setInf_toList, List.getElem?_set_ne (Ne.symm h)]

theorem wireBytes_sealed {a : Byte} (h : f.len ≠ 0xFF) : wireBytes (sealed a f) =
    a :: f.pcb :: f.len :: (infBytes f ++ [xorFold (a ^^^ f.pcb ^^^ f.len) (infBytes f)]) := by
  rw [wireBytes_eq (f := sealed a f) h, infBytes_sealed]
  exact congrArg (fun b => a :: f.pcb :: f.len :: (infBytes f ++ [b])) (infAt_sealed_len h)

/-- Sealing a sealed frame changes nothing (R83). -/
theorem sealed_sealed (a : Byte) (f : Frame) : sealed a (sealed a f) = sealed a f := by
  have hlrc : lrc { sealed a f with nad := a } = lrc { f with nad := a } := lrc_setInf_len { f with nad := a } _
  have hinf (b : Byte) : setInf (setInf f.inf f.len.toNat b) f.len.toNat b = setInf f.inf f.len.toNat b := by
    rw [← Vector.toList_inj, setInf_toList, setInf_toList, List.set_set]
  unfold sealed at hlrc ⊢
  rw [hlrc, hinf]

end Frames

/-- Settles O37: the checksum test against the XOR of the frame. -/
theorem checksumTestIsXorZero : Obligations.ChecksumTestIsXorZero := fun _ h => lrcOk_iff h

/-- Settles O40: each change is a change of one byte on the wire. -/
theorem oneDamagedByteIsDetected : Obligations.OneDamagedByteIsDetected := by
  intro f d h hok hd
  refine ⟨?_, ?_, fun j hj => ?_⟩
  · exact lrcOk_of_damaged (j := 0) h rfl hok hd rfl rfl
  · exact lrcOk_of_damaged (j := 1) h rfl hok hd rfl rfl
  · exact lrcOk_of_damaged h rfl hok hd (getElem?_wireBytes_inf h hj) (wireBytes_setInf j _)

/-! ## What `encode` hands over -/

/-- Without a hook the frame handed over is the sealed slot (R135). -/
theorem encodedFrame_of_noHook {s : State} (i : Bit) (h : s.opt.hook = none) :
    encodedFrame i s = sealed s.opt.nodeAddr (s.slot i) := by
  rw [encodedFrame, h]; rfl

/-- `encode` answers only for a slot with room for its checksum (R92). -/
theorem encodeSlot_inv {i : Bit} {s t : State} (h : encodeSlot i s = .ok t) :
    (s.slot i).len ≠ 0xFF ∧ t = transmit (wireBytes (encodedFrame i s)) (s.setSlot i (encodedFrame i s)) := by
  by_cases hl : (s.slot i).len = 0xFF
  · rw [encodeSlot, if_pos hl] at h; cases h
  · rw [encodeSlot_of_room hl] at h; cases h; exact ⟨hl, rfl⟩

/-- Settles O38: the frame is a sealed one, whose checksum test is passed. -/
theorem transmittedFrameXorsToZero : Obligations.TransmittedFrameXorsToZero := by
  intro s t i hh h
  obtain ⟨hl, rfl⟩ := encodeSlot_inv h
  rw [encodedFrame_of_noHook i hh]
  exact ⟨_, rfl, wireBytes_length (f := sealed _ (s.slot i)) hl,
    (lrcOk_iff (f := sealed _ (s.slot i)) hl).1 (lrcOk_sealed _ _ hl)⟩

/-- Without a hook a slot that holds its encoded frame is encoded to the same frame (R83). -/
theorem encodedFrame_again {s t : State} {i : Bit} (hh : s.opt.hook = none) (hopt : t.opt = s.opt)
    (hslot : t.slot i = encodedFrame i s) : encodedFrame i t = encodedFrame i s := by
  rw [encodedFrame_of_noHook i (hopt ▸ hh), hslot, encodedFrame_of_noHook i hh, hopt, sealed_sealed]

/-- The slot after `encode` holds the frame handed over. -/
theorem slot_transmit_setSlot (s : State) (bytes : List Byte) (i : Bit) (f : Frame) :
    (transmit bytes (s.setSlot i f)).slot i = f := slot_setSlot_same s i f

/-- Settles O39: the slot holds its encoded frame when it is encoded again. -/
theorem retransmissionIsByteIdentical : Obligations.RetransmissionIsByteIdentical := by
  intro s t u i hh ht hu
  obtain ⟨-, heq⟩ := encodeSlot_inv ht
  obtain ⟨-, rfl⟩ := encodeSlot_inv hu
  have hslot : t.slot i = encodedFrame i s := by rw [heq]; exact slot_transmit_setSlot s _ i _
  have hagain : encodedFrame i t = encodedFrame i s := encodedFrame_again hh (by rw [heq]; rfl) hslot
  rw [hagain, slot_transmit_setSlot, hslot]
  exact ⟨by rw [heq]; rfl, rfl⟩

/-- Settles O36: the step is `afterSending`, whose frame is the sealed slot. -/
theorem sendingTransmitsTheSelectedFrame : Obligations.SendingTransmitsTheSelectedFrame := by
  intro s he hp hh hl
  have hframe : encodedFrame s.txsel s.takeEvent = sealed s.opt.nodeAddr (s.slot s.txsel) := encodedFrame_of_noHook _ hh
  have hslot : (afterSending s.takeEvent).slot s.txsel = sealed s.opt.nodeAddr (s.slot s.txsel) := by
    rw [← hframe]; exact slot_setSlot_same _ _ _
  have hstep : step s = .next (afterSending s.takeEvent) := by
    rw [step_sending he hp, sendPhase_of_room (s := s.takeEvent) hl, answer_ok]
  refine ⟨_, hstep, ?_, ?_, ?_, ?_, ?_, fun j hj => ?_, ?_, rfl, rfl, rfl⟩
  · rw [← wireBytes_sealed hl, ← hframe]; rfl
  · rw [hslot]; rfl
  · rw [hslot]; rfl
  · rw [hslot]; rfl
  · rw [hslot, infAt_sealed_len hl]
  · rw [hslot, infAt_sealed_ne _ hj]
  · exact slot_setSlot_not _ _ _

end Sys2Proof.Proofs
end

