-- ==== Sys2Proof/Proofs/Reception.lean ====
section
/-! PROOF. Receptions with given answers of the transport (40_codec.md R140 to R144; 44_orchestrator.md R256): silence, a header with an
invalid LEN, a frame that arrives; and the hook in place, in both directions (R137). -/

namespace Sys2Proof.Proofs

open Sys2Proof.Machine Sys2Proof.Claims Sys2Proof.Laws

section Decode

variable {s u : State}

/-! ## `decode`, by the answers -/

/-- A failed poll is the end of the reception (R141). -/
theorem decodeFrame_error {n : Nat} {ps : List PollAnswer} (h : s.polls = .error :: ps) :
    decodeFrame n s = (none, { s with calls := .poll s.opt.hostAddr n :: s.calls, polls := ps }) := by
  unfold decodeFrame
  rw [poll_of_cons h]

/-- The header of a frame, the address byte consumed by the poll or not (R141). -/
theorem decodeFrame_header (one : Bool) {n : Nat} {nad pcb len : Byte} {ps : List PollAnswer} {rs : List (List Byte)}
    (hp : s.polls = (if one then .one else .zero) :: ps)
    (hr : s.receives = (if one then [pcb, len] else [nad, pcb, len]) :: rs) :
    decodeFrame n s =
      decodeBody (afterHeader (if one then 2 else 3) n (if one then s.opt.hostAddr else nad) pcb len ps rs s) := by
  cases one with
  | true => exact decodeFrame_one hp hr
  | false => exact decodeFrame_zero hp hr

/-- A body that is delivered whole, the hook applied to the frame (R143, R144). -/
theorem decodeBody_hooked {body : List Byte} {rs : List (List Byte)} (h : s.cfg.lenBad s.rxf.len = false)
    (hr : s.receives = body :: rs) (hb : body.length = s.rxf.len.toNat + 1) :
    decodeBody s = (some (applyHook s.opt.hook .receive { s.rxf with inf := putInf s.rxf.inf body }).len,
      { s with
        calls := .receive (s.rxf.len.toNat + 1) s.cfg.rt true :: s.calls
        window := false
        receives := rs
        rxf := applyHook s.opt.hook .receive { s.rxf with inf := putInf s.rxf.inf body } }) := by
  have hrec := receive_delivered (n := s.rxf.len.toNat + 1) (c := true) (Nat.succ_ne_zero _) hr hb
  unfold decodeBody
  rw [if_neg (ne_true_of_eq_false h), hrec]
  rfl

/-- What RXF holds when a frame has arrived whole, the hook applied to it (R141, R144). -/
def arrived (s : State) (one : Bool) (nad pcb len : Byte) (body : List Byte) : Frame :=
  applyHook s.opt.hook .receive
    { nad := if one then s.opt.hostAddr else nad, pcb := pcb, len := len, inf := putInf s.rxf.inf body }

theorem decodeFrame_arrived (one : Bool) {n : Nat} {nad pcb len : Byte} {body : List Byte} {ps : List PollAnswer}
    {rs : List (List Byte)} (hp : s.polls = (if one then .one else .zero) :: ps)
    (hr : s.receives = (if one then [pcb, len] else [nad, pcb, len]) :: body :: rs)
    (hbad : s.cfg.lenBad len = false) (hlen : body.length = len.toNat + 1) :
    decodeFrame n s = (some (arrived s one nad pcb len body).len,
      { s with
        calls := .receive (len.toNat + 1) s.cfg.rt true :: .receive (if one then 2 else 3) s.cfg.rt false ::
          .poll s.opt.hostAddr n :: s.calls
        polls := ps
        receives := rs
        window := false
        rxf := arrived s one nad pcb len body }) :=
  (decodeFrame_header one hp hr).trans (decodeBody_hooked
    (s := afterHeader (if one then 2 else 3) n (if one then s.opt.hostAddr else nad) pcb len ps (body :: rs) s) hbad rfl hlen)

/-- A header with an invalid LEN: the window is closed with a call of 0 bytes (R142). -/
theorem decodeFrame_lenBad (one : Bool) {n : Nat} {nad pcb len : Byte} {ps : List PollAnswer} {rs : List (List Byte)}
    (hp : s.polls = (if one then .one else .zero) :: ps)
    (hr : s.receives = (if one then [pcb, len] else [nad, pcb, len]) :: rs) (hbad : s.cfg.lenBad len = true) :
    decodeFrame n s = (none,
      { s with
        calls := .receive 0 s.cfg.rt true :: .receive (if one then 2 else 3) s.cfg.rt false :: .poll s.opt.hostAddr n :: s.calls
        polls := ps
        receives := rs
        window := false
        rxf := { s.rxf with nad := if one then s.opt.hostAddr else nad, pcb := pcb, len := len } }) :=
  (decodeFrame_header one hp hr).trans (decodeBody_invalid
    (s := afterHeader (if one then 2 else 3) n (if one then s.opt.hostAddr else nad) pcb len ps rs s) hbad)

/-- A reception that `decode` accepts is judged as it stands (R256). -/
theorem receivePhase_of_some {l : Byte} (h : decodeFrame (deadline s) { s with waitMult := 1 } = (some l, u)) :
    receivePhase s = { u with phase := .evaluating, stage := .precheck, pass := false } := by
  rw [receivePhase, h]; rfl

/-- A reception that fails leaves the sentinel (R256). -/
theorem receivePhase_of_none (h : decodeFrame (deadline s) { s with waitMult := 1 } = (none, u)) :
    receivePhase s = { u with
      rxf := { u.rxf with pcb := u.cfg.pcbInvalid }, phase := .evaluating, stage := .precheck, pass := false } := by
  rw [receivePhase, h]; rfl

end Decode

/-! ## The bytes of RXF after a body -/

/-- The bytes after a written run are kept, and there are none beyond INF. -/
theorem getElem?_putInf_beyond (v : Vector Byte 255) {bs : List Byte} {j : Nat} (h : bs.length ≤ j) :
    (putInf v bs).toList[j]? = v.toList[j]? := by
  have hl : v.toList.length = 255 := by simp
  rw [putInf_toList, List.getElem?_take]
  split
  · rw [List.getElem?_append_right h, List.getElem?_drop, Nat.add_sub_cancel' h]
  · rw [List.getElem?_eq_none (by omega)]

theorem infBytes_putInf (f : Frame) {bs : List Byte} (hl : f.len.toNat ≤ bs.length) :
    infBytes { f with inf := putInf f.inf bs } = bs.take f.len.toNat := by
  simp only [infBytes, putInf_toList, List.take_take]
  rw [Nat.min_eq_left (by omega), List.take_append_of_le_length hl]

theorem infAt_putInf_last (f : Frame) {bs : List Byte} {n : Nat} (hl : bs.length = n + 1) (h255 : bs.length ≤ 255) :
    bs[n]? = some (infAt { f with inf := putInf f.inf bs } n) := by
  have hn : n < bs.length := by omega
  rw [infAt, putInf_getElem f.inf hn h255, List.getElem?_eq_getElem hn, Option.getD_some]

theorem infAt_putInf_beyond (f : Frame) {bs : List Byte} {j : Nat} (h : bs.length ≤ j) :
    infAt { f with inf := putInf f.inf bs } j = infAt f j := by
  rw [infAt, getElem?_putInf_beyond f.inf h, infAt]

/-! ## The statements -/

/-- Settles O42: no answer, so the sentinel is substituted. -/
theorem silenceBecomesTheSentinel : Obligations.SilenceBecomesTheSentinel := by
  intro s ps he hp hpolls
  have hdecode := decodeFrame_error (n := deadline s.takeEvent) (s := { s.takeEvent with waitMult := 1 }) hpolls
  rw [step_receiving he hp, receivePhase_of_none hdecode]
  rfl

/-- Settles O43: the header, then the body, in RXF. -/
theorem arrivingFrameIsReceived : Obligations.ArrivingFrameIsReceived := by
  intro s one nad pcb len body ps rs he hp hh hbad hlen hpolls hrec
  have hroom : len.toNat < 255 := len_lt (f := { zeroFrame with len := len }) (len_ne_of_lenBad hbad)
  have hdecode := decodeFrame_arrived one (n := deadline s.takeEvent) (s := { s.takeEvent with waitMult := 1 }) hpolls hrec hbad hlen
  have hrxf : arrived { s.takeEvent with waitMult := 1 } one nad pcb len body =
      { nad := if one then s.opt.hostAddr else nad, pcb := pcb, len := len, inf := putInf s.rxf.inf body } :=
    congrArg (applyHook · .receive _) hh
  rw [hrxf] at hdecode
  refine ⟨_, (step_receiving he hp).trans (congrArg Host.Outcome.next (receivePhase_of_some hdecode)), rfl, rfl, rfl,
    ?_, ?_, fun j hj => ?_, rfl, rfl, rfl, rfl⟩
  · exact infBytes_putInf { s.rxf with nad := _, pcb := pcb, len := len } (by rw [hlen]; exact Nat.le_succ _)
  · exact infAt_putInf_last { s.rxf with nad := _, pcb := pcb, len := len } hlen (by omega)
  · exact infAt_putInf_beyond { s.rxf with nad := _, pcb := pcb, len := len } (by omega)

/-- Settles O44: the header, then the close, and the sentinel is substituted. -/
theorem lengthInvalidBecomesTheSentinel : Obligations.LengthInvalidBecomesTheSentinel := by
  intro s one nad pcb len ps rs he hp hbad hpolls hrec
  have hdecode := decodeFrame_lenBad one (n := deadline s.takeEvent) (s := { s.takeEvent with waitMult := 1 }) hpolls hrec hbad
  exact ⟨_, (step_receiving he hp).trans (congrArg Host.Outcome.next (receivePhase_of_none hdecode)), rfl, rfl, rfl, rfl, rfl, rfl⟩

/-- The transmit half of O45: the sealed slot goes out as the hook leaves it. -/
theorem hook_transmits {s : State} {h : Nat} (he : s.nextEvent = none) (hp : s.phase = .sending) (hh : s.opt.hook = some h)
    (hl : (s.slot s.txsel).len ≠ 0xFF) : ∃ t, step s = .next t ∧
      t.slot s.txsel = hookedFrame (Config.hook h .transmit (sealed s.opt.nodeAddr (s.slot s.txsel))) ∧
      (t.slot s.txsel).len ≠ 0xFF ∧ t.calls = .transmit (wireBytes (t.slot s.txsel)) :: s.calls ∧
      t.slot (~~~s.txsel) = s.slot (~~~s.txsel) ∧
      t = { s with
        slot0 := t.slot0, slot1 := t.slot1, txsel := s.active, phase := .receiving, calls := t.calls, host := s.host.tail } := by
  have hstep : step s = .next (afterSending s.takeEvent) := by
    rw [step_sending he hp, sendPhase_of_room (s := s.takeEvent) hl, answer_ok]
  have hframe : encodedFrame s.txsel s = hookedFrame (Config.hook h .transmit (sealed s.opt.nodeAddr (s.slot s.txsel))) := by
    rw [encodedFrame, hh]; rfl
  have hslot : (afterSending s.takeEvent).slot s.txsel = encodedFrame s.txsel s := slot_setSlot_same _ _ _
  refine ⟨_, hstep, hslot.trans hframe, ?_, ?_, slot_setSlot_not _ _ _, rfl⟩
  · rw [hslot, hframe]; exact hookedFrame_len_ne _
  · rw [hslot]; rfl

/-- Settles O45: the slot before a transmission, and RXF after a reception, are what the hook leaves. -/
theorem hookRunsInPlace : Obligations.HookRunsInPlace := by
  refine ⟨fun s h => hook_transmits, fun s h one nad pcb len body ps rs he hp hh hbad hlen hpolls hrec => ?_⟩
  have hdecode := decodeFrame_arrived one (n := deadline s.takeEvent) (s := { s.takeEvent with waitMult := 1 }) hpolls hrec hbad hlen
  have hrxf : arrived { s.takeEvent with waitMult := 1 } one nad pcb len body = hookedFrame (Config.hook h .receive
      { nad := if one then s.opt.hostAddr else nad, pcb := pcb, len := len, inf := putInf s.rxf.inf body }) :=
    congrArg (applyHook · .receive _) hh
  refine ⟨_, (step_receiving he hp).trans (congrArg Host.Outcome.next (receivePhase_of_some hdecode)), hrxf, ?_, rfl, rfl, rfl, rfl⟩
  exact (congrArg Frame.len hrxf).trans_ne (hookedFrame_len_ne _)

end Sys2Proof.Proofs
end

