-- ==== Sys2Proof/Proofs/Stops.lean ====
section
/-! PROOF. Where the model stops, each place its own reading of the spec (logs 9, 10, 11): a LEN of 255, a run past a buffer, a byte of
TXBUF that nothing has written. -/

namespace Sys2Proof.Proofs

open Sys2Proof.Machine Sys2Proof.Claims Sys2Proof.Laws

section

variable {s u : State} {i : Instr} {c : ErrCode} {k : Nat}

/-! ## A LEN of 255 -/

theorem exec_block_lenInvalid (hi : (encodeBlock i).isSome = true) (hne : i ≠ .invalid) (hl : s.rxf.len = 0xFF) :
    exec i s = .fault .lenInvalid := by
  obtain ⟨check, hexec⟩ := exec_block hi hne
  rw [hexec, judge_lenInvalid hl]
  rfl

theorem step_reserved_lenInvalid (he : s.nextEvent = none) (hp : s.phase = .evaluating) (hs : s.stage = .precheck)
    (hd : decodeBlock (s.rowByte s.rxf.pcb) = none) (hl : s.rxf.len = 0xFF) : step s = .fault .lenInvalid := by
  rw [step_precheck he hp hs, if_pos ⟨hl, ne_sentinel_of_reserved hd⟩]

theorem step_sending_lenInvalid (he : s.nextEvent = none) (hp : s.phase = .sending) (hl : (s.slot s.txsel).len = 0xFF) :
    step s = .fault .lenInvalid := by
  rw [step_sending he hp, sendPhase_of_noRoom (s := s.takeEvent) hl]
  rfl

/-! ## A run past a buffer, an unwritten byte of TXBUF -/

/-- The rows that deliver stop where the delivery does. -/
theorem exec_of_drain_fault {f : Fault} (hi : lastBlockRow i = true ∨ (moreBlockRow i).isSome = true)
    (h : drainInbound s = .error f) : exec i s = .fault f := by
  obtain hlast | hmore := hi
  · rw [exec_of_lastBlockRow hlast, deliverLast, h]; rfl
  · obtain ⟨b, hb⟩ := Option.isSome_iff_exists.1 hmore
    rw [exec_of_moreBlockRow hb, deliverMore, h]; rfl

/-- The rows of the next chunk stop where the reading of TXBUF does. -/
theorem exec_of_readTx_fault {f : Fault} (hi : (nextChunkRow i).isSome = true)
    (h : ∀ ns, readTx (chunkSlot ns s) s.txPtr (nextSize s) = .error f) : exec i s = .fault f := by
  obtain ⟨ns, hns⟩ := Option.isSome_iff_exists.1 hi
  rw [exec_of_nextChunkRow hns, nextChunk_of_fault (by rw [chunkSize_chunkSlot]; exact h ns)]
  rfl

theorem exec_nextChunk_unwritten (hi : (nextChunkRow i).isSome = true) (hu : FirstUnwritten s.txbuf s.txPtr (nextSize s) k)
    (hin : s.txPtr + k < s.txLen0) : exec i s = .fault (.txUnwritten (s.txPtr + k)) := by
  obtain ⟨hk, hw, hn⟩ := hu
  exact exec_of_readTx_fault hi fun ns => readTx_unwritten (s := chunkSlot ns s) hk hin hw hn

/-! ## A new session whose first chunk is not written -/

/-- The accounting of an exhausted budget stops when the device answers ok and the session cannot start (R269, U1). -/
theorem account_unwritten {rest : List ResetAnswer} (hc : c ≠ 0) (h : ResetEscalation u) (hdone : u.resetDone = false)
    (hoffered : u.opt.hasReset = true) (hr : u.resets = .ok :: rest)
    (hu : FirstUnwritten u.txbuf 0 (firstChunk u.cfg u.txLen0) k) : account (c, u) = .error (.txUnwritten k) := by
  rw [account_of_available hc h hdone hoffered hr, if_pos rfl]
  exact actResetSession_unwritten (s := resetCalled c rest u) hu

theorem exec_refused_unwritten {rest : List ResetAnswer} (h : RefusedReception i c s u) (hesc : ResetEscalation s)
    (hdone : s.resetDone = false) (hoffered : s.opt.hasReset = true) (hr : s.resets = .ok :: rest)
    (hu : FirstUnwritten s.txbuf 0 (firstChunk s.cfg s.txLen0) k) : exec i s = .fault (.txUnwritten k) := by
  rw [exec_of_refused h]
  obtain ⟨hc, ch, si, rfl⟩ := refused_leaves h
  rw [account_unwritten (u := { s with chained := ch, seqIf := si }) hc hesc hdone hoffered hr hu]
  rfl

theorem step_refused_unwritten {rest : List ResetAnswer} (he : s.nextEvent = none) (hp : s.phase = .evaluating)
    (hs : s.stage = .precheck) (hl : s.rxf.len ≠ 0xFF ∨ s.rxf.pcb = s.cfg.pcbInvalid) (hc : (precheck s.takeEvent).1 ≠ 0)
    (hesc : ResetEscalation s) (hdone : s.resetDone = false) (hoffered : s.opt.hasReset = true)
    (hr : s.resets = .ok :: rest) (hu : FirstUnwritten s.txbuf 0 (firstChunk s.cfg s.txLen0) k) :
    step s = .fault (.txUnwritten k) := by
  have hroom : ¬(s.rxf.len = 0xFF ∧ s.rxf.pcb ≠ s.cfg.pcbInvalid) := fun h => hl.elim (· h.1) (h.2 ·)
  have haccount : account ((precheck s.takeEvent).1, (precheck s.takeEvent).2) = .error (.txUnwritten k) := by
    rw [(precheck_shape s.takeEvent).2]
    exact account_unwritten (u := { s.takeEvent with
      chained := (precheck s.takeEvent).2.chained
      seqIf := (precheck s.takeEvent).2.seqIf
      seqCard := (precheck s.takeEvent).2.seqCard }) hc hesc hdone hoffered hr hu
  rw [step_precheck he hp hs, if_neg hroom]
  exact congrArg answer haccount

theorem step_transceive_unwritten {a b : Nat} (he : s.nextEvent = some (.transceive a b)) (hb : s.busy = false)
    (ho : s.optWritten = { hostAddr := true, nodeAddr := true, bwtBase := true, hook := true, hasReset := true })
    (hu : FirstUnwritten s.txbuf 0 (firstChunk s.cfg (s.cfg.clip a)) k) : step s = .fault (.txUnwritten k) := by
  rw [step_of_event he]
  exact (transceive_of_ready (s := s.takeEvent) hb ho).trans (congrArg answer (commandStart_unwritten (s := s.takeEvent) hu))

end

/-- Settles O32, a lemma for each place. -/
theorem whereAMeaningStops : Obligations.WhereAMeaningStops := by
  refine ⟨fun s i => exec_block_lenInvalid, fun s => step_reserved_lenInvalid, fun s => step_sending_lenInvalid,
    fun s i hi hk h0 h => exec_of_drain_fault hi (drain_outside hk h0 h), fun s i k => exec_nextChunk_unwritten,
    fun s i hi h0 h hw => exec_of_readTx_fault hi fun ns => readTx_outside (s := chunkSlot ns s) h0 h hw,
    fun s k hu => ?_, fun s u i c rest k => exec_refused_unwritten, fun s rest k => step_refused_unwritten,
    fun s a b k => step_transceive_unwritten⟩
  exact congrArg answer (actResetSession_unwritten hu)

end Sys2Proof.Proofs
end

