-- ==== Sys2Proof/Proofs/Chunks.lean ====
section
/-! PROOF. A message cut into chunks (41_segmentation.md R163 to R166): filling slot 0 until nothing remains, by induction on the fuel.
While it runs, TXBUF holds the message, the cursor stands between the bytes cut and those that remain, and slot 0 holds an I-block
whichever M flag it is given. -/

namespace Sys2Proof.Proofs

open Sys2Proof.Machine Sys2Proof.Claims Sys2Proof.Laws

/-! ## The M flag -/

theorem withM_mOf (p : Byte) : withM p (mOf p) = p := by revert p; decide

theorem withM_withM (p : Byte) (m m' : Bit) : withM (withM p m) m' = withM p m' := by revert p m m'; decide

/-! ## One chunk -/

/-- The cap of a chunk (R163). -/
def chunkCap (s : State) : Nat := min s.ifs.toNat s.cfg.infMax

/-- The message `msg` is being cut in slot 0. -/
structure Cutting (msg : List Byte) (s : State) : Prop where
  block : ∀ m, s.kind (withM s.slot0.pcb m) = .i
  cap : 0 < chunkCap s
  cursor : s.txPtr + s.txRem = msg.length
  length : s.txLen0 = msg.length
  bytes : ∀ k, k < msg.length → s.txbuf.read k = msg[k]?

section

variable {msg : List Byte} {s : State}

/-- The chunk read is the next stretch of the message. -/
theorem Cutting.readTx (h : Cutting msg s) :
    readTx s s.txPtr (chunkSize s) = .ok ((msg.drop s.txPtr).take (chunkSize s)) := by
  have hle : chunkSize s ≤ s.txRem := Nat.min_le_left _ _
  have hin : s.txPtr + chunkSize s ≤ msg.length := by have := h.cursor; omega
  have hread (k : Nat) (hk : k < chunkSize s) : s.txbuf.read (s.txPtr + k) = msg[s.txPtr + k]? := h.bytes _ (by omega)
  obtain ⟨bs, hbs, hlen, hget⟩ := readTx_ok s s.txPtr (chunkSize s) (.inr (h.length ▸ hin))
    fun k hk => by rw [hread k hk, List.getElem?_eq_getElem (by omega)]; rfl
  have heq : bs = (msg.drop s.txPtr).take (chunkSize s) := by
    refine List.ext_getElem? fun k => ?_
    rw [List.getElem?_take, List.getElem?_drop]
    split
    · rename_i hk; rw [hget k hk, hread k hk]
    · exact List.getElem?_eq_none (by omega)
  rw [hbs, heq]

/-- The state after one chunk more. -/
def afterChunk (msg : List Byte) (s : State) : State := afterFill 0 s ((msg.drop s.txPtr).take (chunkSize s))

theorem Cutting.fill (h : Cutting msg s) :
    fillOutbound 0 s = .ok (BitVec.ofNat 8 (chunkSize s), afterChunk msg s) := by
  refine fill_of_read ?_ h.readTx
  have := h.block (mOf s.slot0.pcb)
  rwa [withM_mOf] at this

theorem infBytes_afterChunk (msg : List Byte) (s : State) :
    infBytes ((afterChunk msg s).slot 0) = (msg.drop s.txPtr).take (chunkSize s) := by
  have hlen : ((msg.drop s.txPtr).take (chunkSize s)).length ≤ 255 :=
    le_trans (List.length_take_le _ _) (le_trans (chunkSize_le_max s) (by decide))
  rw [afterChunk, slot_afterFill_same, filled, infBytes_withBlock _ _ hlen]

theorem Cutting.next (h : Cutting msg s) : Cutting msg (afterChunk msg s) where
  block m := by
    have hpcb : (afterChunk msg s).slot0.pcb = withM s.slot0.pcb (moreFlag (s.txRem - chunkSize s)) := rfl
    rw [hpcb, withM_withM]
    exact h.block m
  cap := h.cap
  cursor := by
    have hle : chunkSize s ≤ s.txRem := Nat.min_le_left _ _
    have := h.cursor
    show s.txPtr + chunkSize s + (s.txRem - chunkSize s) = msg.length
    omega
  length := h.length
  bytes := h.bytes

/-! ## All chunks -/

/-- Their number: one, and one more for every cap's worth of bytes beyond the first (R166). -/
def chunkCount (c n : Nat) : Nat := max 1 ((n + c - 1) / c)

theorem chunkCount_last {c n : Nat} (hc : 0 < c) (h : n ≤ c) : chunkCount c n = 1 :=
  Nat.max_eq_left (Nat.le_of_lt_succ ((Nat.div_lt_iff_lt_mul hc).2 (by omega)))

theorem chunkCount_more {c n : Nat} (hc : 0 < c) (h : c < n) : chunkCount c n = chunkCount c (n - c) + 1 := by
  have hone : 1 ≤ (n - 1) / c := (Nat.le_div_iff_mul_le hc).2 (by omega)
  have hdiv : (n + c - 1) / c = (n - 1) / c + 1 := by
    rw [← Nat.add_div_right _ hc]; congr 1; omega
  have hrest : n - c + c - 1 = n - 1 := by omega
  rw [chunkCount, chunkCount, hdiv, hrest, Nat.max_eq_right hone, Nat.max_eq_right (Nat.le_add_left _ _)]

/-- With fuel enough, what remains of the message is cut into its chunks. -/
theorem sendChunks_of_cutting : ∀ {k : Nat} {s : State}, Cutting msg s → s.txRem < k →
    ∃ cs, sendChunks k s = .ok cs ∧ cs.flatten = msg.drop s.txPtr ∧ cs.length = chunkCount (chunkCap s) s.txRem := by
  intro k
  induction k with
  | zero => exact fun _ hk => absurd hk (Nat.not_lt_zero _)
  | succ k ih =>
    intro s h hk
    have hsize : chunkSize s = min s.txRem (chunkCap s) := rfl
    have hrem : (afterChunk msg s).txRem = s.txRem - chunkSize s := rfl
    have hptr : (afterChunk msg s).txPtr = s.txPtr + chunkSize s := rfl
    have hcap := h.cap
    rw [sendChunks, h.fill]
    simp only [infBytes_afterChunk]
    by_cases hlast : (afterChunk msg s).txRem = 0
    · -- the last chunk: all that remains fits in it
      have hall : (msg.drop s.txPtr).length ≤ chunkSize s := by
        have := h.cursor
        rw [List.length_drop]; omega
      refine ⟨_, if_pos hlast, ?_, (chunkCount_last hcap (by omega)).symm⟩
      rw [List.flatten_singleton, List.take_of_length_le hall]
    · -- a full chunk, and the rest by induction
      have hfull : chunkSize s = chunkCap s := by omega
      obtain ⟨cs, hcs, hflat, hlen⟩ := ih h.next (by omega)
      refine ⟨_, by rw [if_neg hlast, hcs], ?_, ?_⟩
      · rw [List.flatten_cons, hflat, hptr, ← List.drop_drop, List.take_append_drop]
      · rw [List.length_cons, hlen, hrem, hfull, chunkCount_more hcap (by omega)]; rfl

end

/-- Settles O59: the whole message remains at the start. -/
theorem chunksAreTheMessage : Obligations.ChunksAreTheMessage := by
  intro s msg hblock hifs hptr hrem hlen hbytes
  have hcap : 0 < chunkCap s := by
    have hifs : s.ifs.toNat ≠ 0 := fun h => hifs (BitVec.eq_of_toNat_eq h)
    have := s.cfg.infMaxRange.1
    rw [chunkCap]; omega
  have hcutting : Cutting msg s := ⟨hblock, hcap, by omega, hlen, hbytes⟩
  obtain ⟨cs, hcs, hflat, hcount⟩ := sendChunks_of_cutting (k := msg.length + 1) hcutting (by omega)
  rw [hptr, List.drop_zero] at hflat
  rw [hrem, hlen] at hcount
  exact ⟨cs, hcs, hflat, hcount⟩

end Sys2Proof.Proofs
end

