-- ==== Sys2Proof/Proofs/Silence.lean ====
section
/-! PROOF. Termination under silence (44_orchestrator.md R272). One invariant describes the command while the card is silent: how many
frames are still to be transmitted, how many errors and retransmissions are counted, and the last-sent byte. A round of the engine
transmits one frame, hears nothing and takes one of four turns: after an I-block the error R-block (three times), then the resync
request; after the resync request Retransmit (three times), then the end. -/

namespace Sys2Proof.Proofs

open Sys2Proof.Machine Sys2Proof.Claims Sys2Proof.Laws

/-! ## Runs -/

theorem runSteps_succ {n : Nat} {s t : State} (h : step s = .next t) : runSteps (n + 1) s = runSteps n t := by
  rw [runSteps, h]

theorem runSteps_one {s t : State} (h : step s = .next t) : runSteps 1 s = .next t := runSteps_succ h

theorem runSteps_add {m n : Nat} {s t u : State} (h : runSteps m s = .next t) (hu : runSteps n t = .next u) :
    runSteps (m + n) s = .next u := by
  induction m generalizing s with
  | zero => cases h; rw [Nat.zero_add]; exact hu
  | succ m ih =>
    rw [runSteps] at h
    split at h
    · rename_i v hv
      rw [Nat.succ_add, runSteps_succ hv, ih h]
    · cases h
    · cases h

/-! ## The invariant -/

/-- The command begun in `s₀`, while every poll fails: `j` polls are still to fail, the answers `ps` after them, and `k` frames
are still to be transmitted; `e` errors and `r` retransmissions are counted, and the last-sent byte is `p`. -/
structure UnderSilence (s₀ : State) (ps : List PollAnswer) (j k e r : Nat) (p : Byte) (s : State) : Prop where
  host : s.host = []
  hook : s.opt.hook = none
  resetLimit : s.cfg.errorResetLimit = 6
  resyncLimit : s.cfg.errorResyncLimit = 4
  retransmitLimit : s.cfg.retransmitLimit = 3
  slot0 : s.slot0.len ≠ 0xFF
  slot1 : s.slot1.len ≠ 0xFF
  polls : s.polls = List.replicate j .error ++ ps
  sent : s.current.pcb = p
  errors : s.errors = e
  retransmits : s.retransmits = r
  frames : framesSent s.calls + k = framesSent s₀.calls + 8
  calls : ∃ cs, s.calls = cs ++ s₀.calls ∧ TransportCall.reset ∉ cs
  seqIf : s.seqIf = s₀.seqIf
  seqCard : s.seqCard = s₀.seqCard

/-- The reception failed and is to be judged. -/
structure HeardNothing (s : State) : Prop where
  phase : s.phase = .evaluating
  stage : s.stage = .precheck
  sentinel : s.rxf.pcb = s.cfg.pcbInvalid

/-- The failed reception is counted and the table is consulted. -/
structure Consulting (s : State) : Prop where
  phase : s.phase = .evaluating
  stage : s.stage = .lookup
  rErr : s.rErr ≠ 0

section

variable {s₀ s : State} {ps : List PollAnswer} {j k e r : Nat} {p : Byte}

theorem UnderSilence.nextEvent (h : UnderSilence s₀ ps j k e r p s) : s.nextEvent = none := by
  rw [State.nextEvent, h.host]; rfl

theorem UnderSilence.takeEvent (h : UnderSilence s₀ ps j k e r p s) : UnderSilence s₀ ps j k e r p s.takeEvent :=
  { h with host := by rw [takeEvent_host, h.host]; rfl }

/-- A block built in the pending slot has room for its checksum. -/
theorem UnderSilence.setPending (h : UnderSilence s₀ ps j k e r p s) (q : Byte) :
    UnderSilence s₀ ps j k e r p (s.setPending q []) := by
  obtain ⟨h0, h1⟩ := setSlot_forall (P := fun f => f.len ≠ 0xFF) (s := s) (i := ~~~s.active) (f := withBlock s.pending q [])
    (by rw [withBlock_len]; decide) h.slot0 h.slot1
  exact { h with slot0 := h0, slot1 := h1, sent := by rw [current_setPending]; exact h.sent }

/-- Continue with a block `q` clears both counters and makes it the last-sent frame (R266). -/
theorem UnderSilence.continues (h : UnderSilence s₀ ps j k e r p s) (q : Byte) :
    UnderSilence s₀ ps j k 0 0 q (actContinue (s.setPending q [])) :=
  { h.setPending q with
    sent := by rw [current_actContinue, pending_setPending, withBlock_pcb]
    errors := rfl
    retransmits := rfl }

/-! ## The steps of a round -/

/-- Sending transmits one frame (R254). -/
theorem UnderSilence.sends (h : UnderSilence s₀ ps j (k + 1) e r p s) (hp : s.phase = .sending) :
    ∃ t, step s = .next t ∧ UnderSilence s₀ ps j k e r p t ∧ t.phase = .receiving := by
  have hroom : (s.slot s.txsel).len ≠ 0xFF := slot_forall (P := fun f => f.len ≠ 0xFF) h.slot0 h.slot1 _
  have hframe : (encodedFrame s.txsel s.takeEvent).len ≠ 0xFF := by
    rw [encodedFrame_of_noHook (s := s.takeEvent) _ h.hook]; exact hroom
  obtain ⟨h0, h1⟩ := setSlot_forall (P := fun f => f.len ≠ 0xFF) (i := s.txsel) hframe h.slot0 h.slot1
  obtain ⟨cs, hcs, hreset⟩ := h.calls
  refine ⟨afterSending s.takeEvent, ?_, { h.takeEvent with
    slot0 := h0
    slot1 := h1
    sent := (pcb_current_afterSending (s := s.takeEvent) h.hook).trans h.sent
    frames := (Nat.add_right_comm (framesSent s.calls) 1 k).trans h.frames
    calls := ⟨_ :: cs, congrArg _ hcs, by simp [hreset]⟩ }, rfl⟩
  rw [step_sending h.nextEvent hp, sendPhase_of_room (s := s.takeEvent) hroom, answer_ok]

/-- The poll fails and the sentinel is substituted (R256). -/
theorem UnderSilence.hears (h : UnderSilence s₀ ps (j + 1) k e r p s) (hp : s.phase = .receiving) :
    ∃ t, step s = .next t ∧ UnderSilence s₀ ps j k e r p t ∧ HeardNothing t := by
  obtain ⟨cs, hcs, hreset⟩ := h.calls
  refine ⟨_, silenceBecomesTheSentinel s _ h.nextEvent hp h.polls, { h.takeEvent with
    polls := rfl
    calls := ⟨_ :: cs, congrArg _ hcs, by simp [hreset]⟩ }, ⟨rfl, rfl, rfl⟩⟩

/-- The sentinel is judged error 2. -/
theorem UnderSilence.step_heard (h : UnderSilence s₀ ps j k e r p s) (hn : HeardNothing s) :
    step s = answer (account (2, s.takeEvent)) := by
  rw [step_precheck h.nextEvent hn.phase hn.stage, if_neg fun hc => hc.2 hn.sentinel,
    precheck_sentinel (s := s.takeEvent) hn.sentinel]

/-- Short of an escalation the error is counted and the table is consulted (R193). -/
theorem UnderSilence.counts (h : UnderSilence s₀ ps j k e r p s) (hn : HeardNothing s) (he : e < 5)
    (hresync : s.kind p ≠ .i ∨ e < 3) :
    ∃ t, step s = .next t ∧ UnderSilence s₀ ps j k (e + 1) r p t ∧ Consulting t := by
  have hno : NoEscalation s.takeEvent := by
    refine ⟨?_, hresync.imp (fun hk => ?_) fun hlt => ?_⟩
    · show s.errors + 1 < s.cfg.errorResetLimit
      rw [h.errors, h.resetLimit]; omega
    · show s.kind s.current.pcb ≠ .i
      rwa [h.sent]
    · show s.errors + 1 < s.cfg.errorResyncLimit
      rw [h.errors, h.resyncLimit]; omega
  refine ⟨{ s.takeEvent with rErr := 2, lastErr := .invalidFrame, errors := s.errors + 1, stage := .lookup }, ?_,
    { h.takeEvent with errors := congrArg (· + 1) h.errors }, ⟨hn.phase, rfl, errCode_two_ne⟩⟩
  rw [h.step_heard hn, account_of_noEscalation errCode_two_ne hno]
  rfl

/-- The fourth error after an I-block puts the resync request in its place (R194 (b)). -/
theorem UnderSilence.resyncs (h : UnderSilence s₀ ps j k 3 r p s) (hn : HeardNothing s) (hk : s.kind p = .i) :
    ∃ t, step s = .next t ∧ UnderSilence s₀ ps j k 0 0 (sPcb .resync .request) t ∧ t.phase = .sending := by
  have hesc : ResyncEscalation s.takeEvent := by
    refine ⟨?_, ?_, ?_⟩
    · show s.errors + 1 < s.cfg.errorResetLimit
      rw [h.errors, h.resetLimit]; omega
    · show s.kind s.current.pcb = .i
      rwa [h.sent]
    · show s.cfg.errorResyncLimit ≤ s.errors + 1
      rw [h.errors, h.resyncLimit]
  have hcounted : UnderSilence s₀ ps j k 4 r p (counted 2 s.takeEvent) :=
    { h.takeEvent with errors := congrArg (· + 1) h.errors }
  refine ⟨_, ?_, hcounted.continues _, rfl⟩
  rw [h.step_heard hn, account_of_resyncEscalation errCode_two_ne hesc]
  rfl

/-- The row of the last-sent byte and the sentinel is run (R190, R231). -/
theorem UnderSilence.step_consulting {i : Instr} (h : UnderSilence s₀ ps j k e r p s) (hc : Consulting s)
    (hd : decodePair p 0xFF = some i) : step s = exec i s.takeEvent := by
  have hbyte : s.rowByte s.rx = 0xFF := by rw [rx_eq_sentinel.2 (.inl hc.rErr), rowByte_sentinel]
  obtain ⟨i', hd', hstep⟩ | ⟨hd', -⟩ := step_lookup h.nextEvent hc.phase hc.stage <;> rw [h.sent, hbyte, hd] at hd' <;> cases hd'
  exact hstep

/-- After an I-block the error R-block is sent once (R231). -/
theorem UnderSilence.answersError {a m : Bit} (h : UnderSilence s₀ ps j k e r p s) (hc : Consulting s)
    (hd : decodePair p 0xFF = some (.iToInvalid a m)) :
    ∃ t, step s = .next t ∧ UnderSilence s₀ ps j k e r p t ∧ t.phase = .sending :=
  ⟨actSingleShot (putErrorR s.takeEvent), h.step_consulting hc hd, { h.takeEvent.setPending _ with }, rfl⟩

/-- The resync request is sent again below the bound (R228, R264). -/
theorem UnderSilence.retransmits_below (h : UnderSilence s₀ ps j k e r (sPcb .resync .request) s) (hc : Consulting s)
    (hr : r < 3) : ∃ t, step s = .next t ∧ UnderSilence s₀ ps j k e (r + 1) (sPcb .resync .request) t ∧ t.phase = .sending := by
  have hbelow : s.takeEvent.retransmits < s.takeEvent.cfg.retransmitLimit := by
    rw [h.takeEvent.retransmits, h.takeEvent.retransmitLimit]; exact hr
  refine ⟨{ s.takeEvent with retransmits := s.retransmits + 1, txsel := s.active, phase := .sending }, ?_,
    { h.takeEvent with retransmits := congrArg (· + 1) h.retransmits }, rfl⟩
  rw [h.step_consulting hc rfl, exec_retransmit (.inr rfl), actRetransmit_below hbelow]
  rfl

/-- At the bound the resync request ends the command (R264, R269). -/
theorem UnderSilence.fails (h : UnderSilence s₀ ps j k e 3 (sPcb .resync .request) s) (hc : Consulting s) :
    ∃ t, step s = .next t ∧ UnderSilence s₀ ps j k e 3 (sPcb .resync .request) t ∧
      t.phase = .failed ∧ t.resultKind = .deviceResetFailure := by
  refine ⟨actFail .deviceResetFailure s.takeEvent, ?_, { h.takeEvent with }, rfl, rfl⟩
  rw [h.step_consulting hc rfl, exec_retransmit (.inr rfl)]
  obtain ⟨hlt, -⟩ | ⟨-, -, heq⟩ | ⟨-, hne, -⟩ := retransmit_cases s.takeEvent
  · rw [h.takeEvent.retransmits, h.takeEvent.retransmitLimit] at hlt
    exact absurd hlt (Nat.lt_irrefl 3)
  · rw [heq]
  · exact absurd h.takeEvent.sent hne

/-! ## The rounds -/

/-- Every round transmits a frame and hears nothing. -/
theorem UnderSilence.transmits (h : UnderSilence s₀ ps (k + 1) (k + 1) e r p s) (hp : s.phase = .sending) :
    ∃ t, runSteps 2 s = .next t ∧ UnderSilence s₀ ps k k e r p t ∧ HeardNothing t := by
  obtain ⟨u, hu, hsent, hup⟩ := h.sends hp
  obtain ⟨t, ht, hheard, hn⟩ := hsent.hears hup
  exact ⟨t, runSteps_add (runSteps_one hu) (runSteps_one ht), hheard, hn⟩

/-- Three of the four steps of a round that counts its error. -/
theorem UnderSilence.consults (h : UnderSilence s₀ ps (k + 1) (k + 1) e r p s) (hp : s.phase = .sending) (he : e < 5)
    (hresync : (∀ c : Config.Params, kind c.pcbInvalid p ≠ .i) ∨ e < 3) :
    ∃ t, runSteps 3 s = .next t ∧ UnderSilence s₀ ps k k (e + 1) r p t ∧ Consulting t := by
  obtain ⟨u, hu, hheard, hn⟩ := h.transmits hp
  obtain ⟨t, ht, hcounted, hc⟩ := hheard.counts hn he (hresync.imp (fun hk => hk u.cfg) id)
  exact ⟨t, runSteps_add hu (runSteps_one ht), hcounted, hc⟩

theorem decodePair_iToInvalid (a m : Bit) : decodePair (iPcb a m) 0xFF = some (.iToInvalid a m) := by
  revert a m; decide

theorem UnderSilence.errorRound {a m : Bit} (h : UnderSilence s₀ ps (k + 1) (k + 1) e r (iPcb a m) s)
    (hp : s.phase = .sending) (he : e < 3) :
    ∃ t, runSteps 4 s = .next t ∧ UnderSilence s₀ ps k k (e + 1) r (iPcb a m) t ∧ t.phase = .sending := by
  obtain ⟨u, hu, hcounted, hc⟩ := h.consults hp (by omega) (.inr he)
  obtain ⟨t, ht, hnext⟩ := hcounted.answersError hc (decodePair_iToInvalid a m)
  exact ⟨t, runSteps_add hu (runSteps_one ht), hnext⟩

theorem UnderSilence.resyncRound {a m : Bit} (h : UnderSilence s₀ ps (k + 1) (k + 1) 3 r (iPcb a m) s)
    (hp : s.phase = .sending) :
    ∃ t, runSteps 3 s = .next t ∧ UnderSilence s₀ ps k k 0 0 (sPcb .resync .request) t ∧ t.phase = .sending := by
  obtain ⟨u, hu, hheard, hn⟩ := h.transmits hp
  obtain ⟨t, ht, hnext⟩ := hheard.resyncs hn (kind_iPcb u.cfg a m)
  exact ⟨t, runSteps_add hu (runSteps_one ht), hnext⟩

theorem kind_resyncRequest_ne (c : Config.Params) : kind c.pcbInvalid (sPcb .resync .request) ≠ .i := by
  rw [kind_of_isDefined c (by decide)]; decide

theorem UnderSilence.retransmitRound (h : UnderSilence s₀ ps (k + 1) (k + 1) e r (sPcb .resync .request) s)
    (hp : s.phase = .sending) (he : e < 5) (hr : r < 3) :
    ∃ t, runSteps 4 s = .next t ∧ UnderSilence s₀ ps k k (e + 1) (r + 1) (sPcb .resync .request) t ∧ t.phase = .sending := by
  obtain ⟨u, hu, hcounted, hc⟩ := h.consults hp he (.inl kind_resyncRequest_ne)
  obtain ⟨t, ht, hnext⟩ := hcounted.retransmits_below hc hr
  exact ⟨t, runSteps_add hu (runSteps_one ht), hnext⟩

theorem UnderSilence.lastRound (h : UnderSilence s₀ ps (k + 1) (k + 1) e 3 (sPcb .resync .request) s)
    (hp : s.phase = .sending) (he : e < 5) :
    ∃ t, runSteps 4 s = .next t ∧ UnderSilence s₀ ps k k (e + 1) 3 (sPcb .resync .request) t ∧
      t.phase = .failed ∧ t.resultKind = .deviceResetFailure := by
  obtain ⟨u, hu, hcounted, hc⟩ := h.consults hp he (.inl kind_resyncRequest_ne)
  obtain ⟨t, ht, hend⟩ := hcounted.fails hc
  exact ⟨t, runSteps_add hu (runSteps_one ht), hend⟩

/-! ## The command -/

/-- The four frames of the I-block: the error R-block three times, then the resync request. -/
theorem UnderSilence.iBlockRounds {a m : Bit} (h : UnderSilence s₀ ps (k + 4) (k + 4) 0 r (iPcb a m) s)
    (hp : s.phase = .sending) :
    ∃ t, runSteps 15 s = .next t ∧ UnderSilence s₀ ps k k 0 0 (sPcb .resync .request) t ∧ t.phase = .sending := by
  obtain ⟨t₁, h₁, hinv₁, hp₁⟩ := h.errorRound hp (by decide)
  obtain ⟨t₂, h₂, hinv₂, hp₂⟩ := hinv₁.errorRound hp₁ (by decide)
  obtain ⟨t₃, h₃, hinv₃, hp₃⟩ := hinv₂.errorRound hp₂ (by decide)
  obtain ⟨t, ht, hnext⟩ := hinv₃.resyncRound hp₃
  exact ⟨t, runSteps_add h₁ (runSteps_add h₂ (runSteps_add h₃ ht)), hnext⟩

/-- The four frames of the resync request: three retransmissions, then the end. -/
theorem UnderSilence.resyncRequestRounds (h : UnderSilence s₀ ps (k + 4) (k + 4) 0 0 (sPcb .resync .request) s)
    (hp : s.phase = .sending) :
    ∃ t, runSteps 16 s = .next t ∧ UnderSilence s₀ ps k k 4 3 (sPcb .resync .request) t ∧
      t.phase = .failed ∧ t.resultKind = .deviceResetFailure := by
  obtain ⟨t₁, h₁, hinv₁, hp₁⟩ := h.retransmitRound hp (by decide) (by decide)
  obtain ⟨t₂, h₂, hinv₂, hp₂⟩ := hinv₁.retransmitRound hp₁ (by decide) (by decide)
  obtain ⟨t₃, h₃, hinv₃, hp₃⟩ := hinv₂.retransmitRound hp₂ (by decide) (by decide)
  obtain ⟨t, ht, hend⟩ := hinv₃.lastRound hp₃ (by decide)
  exact ⟨t, runSteps_add h₁ (runSteps_add h₂ (runSteps_add h₃ ht)), hend⟩

end

theorem eq_iPcb_of_kind {p : Byte} (hd : isDefined p = true) (hk : kind 0xFF p = .i) : p = iPcb (nsOf p) (mOf p) := by
  revert p; decide

/-- Settles O60: the invariant holds at the start, for the I-block in the current slot. -/
theorem silentCardEndsTheCommand : Obligations.SilentCardEndsTheCommand := by
  intro s ps hhost hp hk hd he hr hhook hreset hresync hretransmit h0 h1 hpolls
  have hpcb : s.current.pcb = iPcb (nsOf s.current.pcb) (mOf s.current.pcb) :=
    eq_iPcb_of_kind hd ((kind_of_isDefined s.cfg hd).symm.trans hk)
  have hstart : UnderSilence s ps 8 8 0 0 (iPcb (nsOf s.current.pcb) (mOf s.current.pcb)) s :=
    { host := hhost, hook := hhook, resetLimit := hreset, resyncLimit := hresync, retransmitLimit := hretransmit
      slot0 := h0, slot1 := h1, polls := hpolls, sent := hpcb, errors := he, retransmits := hr, frames := rfl
      calls := ⟨[], rfl, List.not_mem_nil⟩, seqIf := rfl, seqCard := rfl }
  obtain ⟨u, hu, hinv, hup⟩ := hstart.iBlockRounds hp
  obtain ⟨t, ht, hend, hphase, hkind⟩ := hinv.resyncRequestRounds hup
  exact ⟨t, runSteps_add hu ht, hphase, hkind, hend.frames, hend.calls, hend.seqIf, hend.seqCard⟩

end Sys2Proof.Proofs
end
